-- ==== Sys2Proof/Word.lean ====
section
/-! DEFINITION. The widths of the CORE (spec/00_scope.md R6, spec/10_state.md R20 to R29) and the one widening the spec names. -/

namespace Sys2Proof

/-- An 8-bit register value, memory cell or immediate (R6, R9: every value is unsigned). -/
abbrev Byte := BitVec 8

/-- A 16-bit value: an instruction word, `pc`, `I`, a stack entry (R6). -/
abbrev Word := BitVec 16

/-- A 4-bit immediate or sub-opcode (R82, field N). -/
abbrev Nibble := BitVec 4

/-- A 12-bit address or immediate (R82, field NNN). -/
abbrev Addr12 := BitVec 12

/-- The number of a general register, 0 to 15 (R20, R83: all 16 values are legal). -/
abbrev Reg := Fin 16

/-- A row of the framebuffer: bit `px` is the cell of column `px` (R29). -/
abbrev FbRow := BitVec 64

/-- The framebuffer, row 0 first (R29: 64 columns, 32 rows). The host's read port is the rows end to end (R253). -/
abbrev Framebuffer := Vector FbRow 32

/-- `zext_16` of R11: the value is unchanged, the width becomes 16. -/
abbrev zext16 (a : Addr12) : Word := a.setWidth 16

end Sys2Proof
end

