-- ==== Sys2Proof/Config.lean ====
section
/-! DEFINITION. What an implementation fixes: the open parameters of spec/00_scope.md R7, and the free value of the random source (spec/43_random.md R161). The defaults are in Machine/Defaults.lean. -/

namespace Sys2Proof

/-- `OOB_POLICY` (R55, D4): what an address ≥ 4096 or a key index ≥ 16 does. -/
inductive OobPolicy where
  /-- raise a fault -/
  | fault
  /-- reduce it into range -/
  | mask
  deriving DecidableEq, Repr

/-- `STACK_POLICY` (R111, R112, D5). -/
inductive StackPolicy where
  /-- raise a fault -/
  | fault
  /-- `sp` counts modulo 16 -/
  | wrap
  deriving DecidableEq, Repr

/-- `SPRITE_EDGE` (R173, D6): what a set sprite bit past the framebuffer's edge does. -/
inductive SpriteEdge where
  /-- the bit is dropped -/
  | clip
  /-- raise a fault -/
  | fault
  deriving DecidableEq, Repr

/-- `SHIFT_SOURCE` (R148, R149, D12): the register the shifts read. -/
inductive ShiftSource where
  | vx
  | vy
  deriving DecidableEq, Repr

/-- `FLAG_ORDER` (R140, D13): which of result and flag is written last. -/
inductive FlagOrder where
  | flagLast
  | resultLast
  deriving DecidableEq, Repr

/-- `LDST_I` (R132, R133, D15): what the register-range store and load do to `I`. -/
inductive LdstI where
  | unchanged
  | increment
  deriving DecidableEq, Repr

/-- `FONT_DIGIT` (R212, D16): which bits of the register choose the glyph. -/
inductive FontDigit where
  | full
  | lowNibble
  deriving DecidableEq, Repr

/-- `FONT` (R33, D17): 16 glyphs of 5 bytes, glyph `d` at `0x050 + 5·d`, top row first. -/
abbrev Font := Vector (Vector Byte 5) 16

/-- The open parameters of R7, one field each. R7: "A model takes each as an argument." (log 1) -/
structure Params where
  oobPolicy   : OobPolicy
  stackPolicy : StackPolicy
  spriteEdge  : SpriteEdge
  shiftSource : ShiftSource
  flagOrder   : FlagOrder
  ldstI       : LdstI
  fontDigit   : FontDigit
  /-- `HAS_SUBN` (R144, D11): whether `0x8XY7` is an instruction. -/
  hasSubn     : Bool
  font        : Font
  deriving DecidableEq, Repr

/-- The random draws the host supplies on `rnd` (R161, R255, U9): "any value". Nothing constrains them; the step reads the
one its counter points at and advances the counter (DESIGN CHOICE, log 8; safe: every claim holds for every draw). -/
opaque Config.randomDraw : Nat → Byte

end Sys2Proof
end

