-- ==== Sys2Proof/Machine/Defaults.lean ====
section
/-! DEFINITION. The default values of the open parameters (spec/00_scope.md R7, spec/92_eei_decisions.md), the font of spec/10_state.md R33 among them. They stand in a file of their own under Machine/ so that a later repair may mend them. -/

namespace Sys2Proof

/-- Digits 0 to 7 of the table of R33 (PRESUMED by the spec, log 4). -/
def fontLow : Vector (Vector Byte 5) 8 :=
  #v[#v[0xF0, 0x90, 0x90, 0x90, 0xF0], #v[0x20, 0x60, 0x20, 0x20, 0x70],
     #v[0xF0, 0x10, 0xF0, 0x80, 0xF0], #v[0xF0, 0x10, 0xF0, 0x10, 0xF0],
     #v[0x90, 0x90, 0xF0, 0x10, 0x10], #v[0xF0, 0x80, 0xF0, 0x10, 0xF0],
     #v[0xF0, 0x80, 0xF0, 0x90, 0xF0], #v[0xF0, 0x10, 0x20, 0x40, 0x40]]

/-- Digits 8 to F of the table of R33 (PRESUMED by the spec, log 4). -/
def fontHigh : Vector (Vector Byte 5) 8 :=
  #v[#v[0xF0, 0x90, 0xF0, 0x90, 0xF0], #v[0xF0, 0x90, 0xF0, 0x10, 0xF0],
     #v[0xF0, 0x90, 0xF0, 0x90, 0x90], #v[0xE0, 0x90, 0xE0, 0x90, 0xE0],
     #v[0xF0, 0x80, 0x80, 0x80, 0xF0], #v[0xE0, 0x90, 0x90, 0x90, 0xE0],
     #v[0xF0, 0x80, 0xF0, 0x80, 0xF0], #v[0xF0, 0x80, 0xF0, 0x80, 0x80]]

/-- The default `FONT` (R33, D17). -/
def Font.default : Font := fontLow ++ fontHigh

/-- The default of every parameter of R7. DESIGN CHOICE of the spec (log 2). -/
def Params.default : Params where
  oobPolicy   := .fault
  stackPolicy := .fault
  spriteEdge  := .clip
  shiftSource := .vx
  flagOrder   := .flagLast
  ldstI       := .unchanged
  fontDigit   := .full
  hasSubn     := true
  font        := Font.default

end Sys2Proof
end

