-- ==== Sys2Proof/Syntax.lean ====
section
/-! DEFINITION. The instructions: one constructor for each row of spec/opcode_table.json (spec/30_encoding.md R88), in the table's order, under the handler names of R90. -/

namespace Sys2Proof

/-- The 34 instructions of R88. `x` and `y` are the register operands X and Y, `nn`, `nnn` and `n` the immediates NN, NNN and
N of R82. Bits a row ignores are no operand. -/
inductive Instr where
  /-- row 1, `CLS` (R170) -/
  | cls
  /-- row 2, `RET` (R115) -/
  | ret
  /-- row 3, `JP addr` (R113) -/
  | jp (nnn : Addr12)
  /-- row 4, `CALL addr` (R114) -/
  | call (nnn : Addr12)
  /-- row 5, `SE Vx, byte` (R116) -/
  | seImm (x : Reg) (nn : Byte)
  /-- row 6, `SNE Vx, byte` (R117) -/
  | sneImm (x : Reg) (nn : Byte)
  /-- row 7, `SE Vx, Vy` (R118) -/
  | seReg (x y : Reg)
  /-- row 8, `LD Vx, byte` (R130) -/
  | ldImm (x : Reg) (nn : Byte)
  /-- row 9, `ADD Vx, byte` (R141) -/
  | addImm (x : Reg) (nn : Byte)
  /-- row 10, `LD Vx, Vy` (R131) -/
  | ldReg (x y : Reg)
  /-- row 11, `OR Vx, Vy` (R145) -/
  | orReg (x y : Reg)
  /-- row 12, `AND Vx, Vy` (R146) -/
  | andReg (x y : Reg)
  /-- row 13, `XOR Vx, Vy` (R147) -/
  | xorReg (x y : Reg)
  /-- row 14, `ADD Vx, Vy` (R142) -/
  | addReg (x y : Reg)
  /-- row 15, `SUB Vx, Vy` (R143) -/
  | sub (x y : Reg)
  /-- row 16, `SHR Vx {, Vy}` (R148) -/
  | shr (x y : Reg)
  /-- row 17, `SUBN Vx, Vy` (R144), present iff `HAS_SUBN` -/
  | subn (x y : Reg)
  /-- row 18, `SHL Vx {, Vy}` (R149) -/
  | shl (x y : Reg)
  /-- row 19, `SNE Vx, Vy` (R119) -/
  | sneReg (x y : Reg)
  /-- row 20, `LD I, addr` (R210) -/
  | ldI (nnn : Addr12)
  /-- row 21, `JP V0, addr` (R220) -/
  | jpV0 (nnn : Addr12)
  /-- row 22, `RND Vx, byte` (R160) -/
  | rnd (x : Reg) (nn : Byte)
  /-- row 23, `DRW Vx, Vy, nibble` (R171) -/
  | drw (x y : Reg) (n : Nibble)
  /-- row 24, `SKP Vx` (R191) -/
  | skp (x : Reg)
  /-- row 25, `SKNP Vx` (R192) -/
  | sknp (x : Reg)
  /-- row 26, `LD Vx, DT` (R200) -/
  | ldVxDt (x : Reg)
  /-- row 27, `LD Vx, K` (R193) -/
  | ldVxK (x : Reg)
  /-- row 28, `LD DT, Vx` (R201) -/
  | ldDtVx (x : Reg)
  /-- row 29, `LD ST, Vx` (R202) -/
  | ldStVx (x : Reg)
  /-- row 30, `ADD I, Vx` (R211) -/
  | addI (x : Reg)
  /-- row 31, `LD F, Vx` (R212) -/
  | ldF (x : Reg)
  /-- row 32, `LD B, Vx` (R165) -/
  | ldB (x : Reg)
  /-- row 33, `LD [I], Vx` (R132) -/
  | ldStore (x : Reg)
  /-- row 34, `LD Vx, [I]` (R133) -/
  | ldLoad (x : Reg)
  deriving DecidableEq, Repr

end Sys2Proof
end

