-- ==== Sys2Proof/WellFormed.lean ====
section
/-! DEFINITION. Which instructions a build has. Operand ranges need no check: the operand types admit exactly the values of the fields of spec/30_encoding.md R82 and R83 (every register number, every immediate). What is left to check is R144: SUBN is "Present iff `HAS_SUBN = true`". -/

namespace Sys2Proof

/-- The instruction exists in a build with the parameters `p` (R87, R144). The decoder gives only such instructions. -/
def Instr.wellFormed (p : Params) (i : Instr) : Bool :=
  match i with
  | .cls => true
  | .ret => true
  | .jp _ => true
  | .call _ => true
  | .seImm _ _ => true
  | .sneImm _ _ => true
  | .seReg _ _ => true
  | .ldImm _ _ => true
  | .addImm _ _ => true
  | .ldReg _ _ => true
  | .orReg _ _ => true
  | .andReg _ _ => true
  | .xorReg _ _ => true
  | .addReg _ _ => true
  | .sub _ _ => true
  | .shr _ _ => true
  | .subn _ _ => p.hasSubn
  | .shl _ _ => true
  | .sneReg _ _ => true
  | .ldI _ => true
  | .jpV0 _ => true
  | .rnd _ _ => true
  | .drw _ _ _ => true
  | .skp _ => true
  | .sknp _ => true
  | .ldVxDt _ => true
  | .ldVxK _ => true
  | .ldDtVx _ => true
  | .ldStVx _ => true
  | .addI _ => true
  | .ldF _ => true
  | .ldB _ => true
  | .ldStore _ => true
  | .ldLoad _ => true

end Sys2Proof
end

