-- ==== Sys2Proof/Decode.lean ====
section
/-! DEFINITION. The decoder (spec/30_encoding.md R81 to R90), total on every word and on every list of bytes, rejecting by name, and after it the encoder. The numbers of the opcodes and the places of the fields are the spec's reading (R88, N1; log 3). -/

namespace Sys2Proof

/-- Why the decoder gives no instruction. All but `truncated` are the invalid words of R87, whose handler is the no-op of R237. -/
inductive Reject where
  /-- family 0 with bits 3–0 not `0` and not `E` -/
  | family0 (sub : Nibble)
  /-- family 8 with an undefined sub-opcode -/
  | family8 (sub : Nibble)
  /-- `0x8XY7` in a build without SUBN (R144, `HAS_SUBN = false`) -/
  | subnAbsent
  /-- family E with bits 3–0 not `1` and not `E` -/
  | familyE (sub : Nibble)
  /-- family F with a low byte that is none of the 9 defined -/
  | familyF (sub : Byte)
  /-- fewer than the two bytes of a word (R80); no fetch gives this -/
  | truncated
  deriving DecidableEq, Repr

/-- `F = w[15:12]`, the family (R82). -/
def familyOf (w : Word) : Nibble := w.extractLsb' 12 4

/-- `X = w[11:8]` (R82). -/
def fieldX (w : Word) : Reg := (w.extractLsb' 8 4).toFin

/-- `Y = w[7:4]` (R82). -/
def fieldY (w : Word) : Reg := (w.extractLsb' 4 4).toFin

/-- `N = w[3:0]` (R82). -/
def fieldN (w : Word) : Nibble := w.extractLsb' 0 4

/-- `NN = w[7:0]` (R82). -/
def fieldNN (w : Word) : Byte := w.extractLsb' 0 8

/-- `NNN = w[11:0]` (R82). -/
def fieldNNN (w : Word) : Addr12 := w.extractLsb' 0 12

/-- Family 0 sub-dispatches on bits 3–0 alone (R85, R86). -/
def decode0 (w : Word) : Except Reject Instr :=
  match fieldN w with
  | 0x0#4 => .ok .cls
  | 0xE#4 => .ok .ret
  | sub   => .error (.family0 sub)

/-- Family 8 sub-dispatches on bits 3–0 (R85, R90). -/
def decode8 (p : Params) (w : Word) : Except Reject Instr :=
  match fieldN w with
  | 0x0#4 => .ok (.ldReg (fieldX w) (fieldY w))
  | 0x1#4 => .ok (.orReg (fieldX w) (fieldY w))
  | 0x2#4 => .ok (.andReg (fieldX w) (fieldY w))
  | 0x3#4 => .ok (.xorReg (fieldX w) (fieldY w))
  | 0x4#4 => .ok (.addReg (fieldX w) (fieldY w))
  | 0x5#4 => .ok (.sub (fieldX w) (fieldY w))
  | 0x6#4 => .ok (.shr (fieldX w) (fieldY w))
  | 0x7#4 => if p.hasSubn then .ok (.subn (fieldX w) (fieldY w)) else .error .subnAbsent
  | 0xE#4 => .ok (.shl (fieldX w) (fieldY w))
  | sub   => .error (.family8 sub)

/-- Family E sub-dispatches on bits 3–0; bits 7–4 are ignored (R85). -/
def decodeE (w : Word) : Except Reject Instr :=
  match fieldN w with
  | 0xE#4 => .ok (.skp (fieldX w))
  | 0x1#4 => .ok (.sknp (fieldX w))
  | sub   => .error (.familyE sub)

/-- Family F sub-dispatches on bits 7–0, 9 variants defined (R85). -/
def decodeF (w : Word) : Except Reject Instr :=
  match fieldNN w with
  | 0x07#8 => .ok (.ldVxDt (fieldX w))
  | 0x0A#8 => .ok (.ldVxK (fieldX w))
  | 0x15#8 => .ok (.ldDtVx (fieldX w))
  | 0x18#8 => .ok (.ldStVx (fieldX w))
  | 0x1E#8 => .ok (.addI (fieldX w))
  | 0x29#8 => .ok (.ldF (fieldX w))
  | 0x33#8 => .ok (.ldB (fieldX w))
  | 0x55#8 => .ok (.ldStore (fieldX w))
  | 0x65#8 => .ok (.ldLoad (fieldX w))
  | sub    => .error (.familyF sub)

/-- `Decode(w)` of R90, total on all 65536 words; `.error` is INVALID. Families 1 to 7 and 9 to D have no sub-dispatch, so their
low bits are operands or ignored (R84). -/
def decodeWord (p : Params) (w : Word) : Except Reject Instr :=
  match familyOf w with
  | 0x0#4 => decode0 w
  | 0x1#4 => .ok (.jp (fieldNNN w))
  | 0x2#4 => .ok (.call (fieldNNN w))
  | 0x3#4 => .ok (.seImm (fieldX w) (fieldNN w))
  | 0x4#4 => .ok (.sneImm (fieldX w) (fieldNN w))
  | 0x5#4 => .ok (.seReg (fieldX w) (fieldY w))
  | 0x6#4 => .ok (.ldImm (fieldX w) (fieldNN w))
  | 0x7#4 => .ok (.addImm (fieldX w) (fieldNN w))
  | 0x8#4 => decode8 p w
  | 0x9#4 => .ok (.sneReg (fieldX w) (fieldY w))
  | 0xA#4 => .ok (.ldI (fieldNNN w))
  | 0xB#4 => .ok (.jpV0 (fieldNNN w))
  | 0xC#4 => .ok (.rnd (fieldX w) (fieldNN w))
  | 0xD#4 => .ok (.drw (fieldX w) (fieldY w) (fieldN w))
  | 0xE#4 => decodeE w
  | _     => decodeF w

/-- The word of two consecutive bytes, big-endian: the first is bits 15–8 (R54, R80). -/
def wordOfBytes (b0 b1 : Byte) : Word := b0 ++ b1

/-- The bytes of a word as memory holds them, first byte at the lower address (R54). -/
def bytesOfWord (w : Word) : Byte × Byte := (w.extractLsb' 8 8, w.extractLsb' 0 8)

/-- The decoder on a list of bytes: the instruction of the first two, and the rest. -/
def decodeBytes (p : Params) : List Byte → Except Reject (Instr × List Byte)
  | b0 :: b1 :: rest =>
    match decodeWord p (wordOfBytes b0 b1) with
    | .ok i => .ok (i, rest)
    | .error r => .error r
  | [] => .error .truncated
  | [_] => .error .truncated

/-- The instruction the decoder reads from the table word `w` of `nbits` bits, under the default parameters: the word's bytes are
laid out as memory holds them and decoded. Every bit above `nbits` is 0. -/
def decodeTableWord (nbits w : Nat) : Option Instr :=
  let word : Word := BitVec.ofNat 16 (w % 2 ^ nbits)
  match decodeBytes Params.default [(bytesOfWord word).1, (bytesOfWord word).2] with
  | .ok (i, _) => some i
  | .error _ => none

/-! The encoder, by the formats of R81. -/

/-- Format `A`: family, NNN. -/
def formatA (family : Nibble) (nnn : Addr12) : Word := family ++ nnn

/-- A register number as the 4-bit field it stands in. -/
def regBits (r : Reg) : Nibble := BitVec.ofFin (w := 4) r

/-- Format `R`: family, X, NN. Format `RS` is the same with the sub-byte for NN. -/
def formatR (family : Nibble) (x : Reg) (nn : Byte) : Word := (family ++ regBits x : BitVec 8) ++ nn

/-- Format `RR`: family, X, Y, N. -/
def formatRR (family : Nibble) (x y : Reg) (n : Nibble) : Word :=
  (family ++ regBits x : BitVec 8) ++ (regBits y ++ n : BitVec 8)

/-- The word of an instruction (R88). Bits the decoder ignores are as in the canonical words the instruction rules name
(`0x00E0`, `0x00EE`, `0x5XY0`, `0x9XY0`, `0xEX9E`, `0xEXA1`; log 19). -/
def encode : Instr → Word
  | .cls => 0x00E0#16
  | .ret => 0x00EE#16
  | .jp nnn => formatA 0x1 nnn
  | .call nnn => formatA 0x2 nnn
  | .seImm x nn => formatR 0x3 x nn
  | .sneImm x nn => formatR 0x4 x nn
  | .seReg x y => formatRR 0x5 x y 0x0
  | .ldImm x nn => formatR 0x6 x nn
  | .addImm x nn => formatR 0x7 x nn
  | .ldReg x y => formatRR 0x8 x y 0x0
  | .orReg x y => formatRR 0x8 x y 0x1
  | .andReg x y => formatRR 0x8 x y 0x2
  | .xorReg x y => formatRR 0x8 x y 0x3
  | .addReg x y => formatRR 0x8 x y 0x4
  | .sub x y => formatRR 0x8 x y 0x5
  | .shr x y => formatRR 0x8 x y 0x6
  | .subn x y => formatRR 0x8 x y 0x7
  | .shl x y => formatRR 0x8 x y 0xE
  | .sneReg x y => formatRR 0x9 x y 0x0
  | .ldI nnn => formatA 0xA nnn
  | .jpV0 nnn => formatA 0xB nnn
  | .rnd x nn => formatR 0xC x nn
  | .drw x y n => formatRR 0xD x y n
  | .skp x => formatR 0xE x 0x9E
  | .sknp x => formatR 0xE x 0xA1
  | .ldVxDt x => formatR 0xF x 0x07
  | .ldVxK x => formatR 0xF x 0x0A
  | .ldDtVx x => formatR 0xF x 0x15
  | .ldStVx x => formatR 0xF x 0x18
  | .addI x => formatR 0xF x 0x1E
  | .ldF x => formatR 0xF x 0x29
  | .ldB x => formatR 0xF x 0x33
  | .ldStore x => formatR 0xF x 0x55
  | .ldLoad x => formatR 0xF x 0x65

/-- The encoder as bytes in memory order. -/
def encodeBytes (i : Instr) : List Byte := [(bytesOfWord (encode i)).1, (bytesOfWord (encode i)).2]

end Sys2Proof
end

