-- ==== Sys2Proof/Machine/Memory.lean ====
section
/-! DEFINITION. The memory of spec/20_memory.md: 4096 byte cells (R50), held as the list of the cells that differ from their reset contents, in one canonical form. -/

namespace Sys2Proof.Machine

/-- Cells (address, byte), addresses strictly rising, none equal to what an unlisted address reads as. -/
abbrev Memory := List Host.Cell

/-- `memory[4096]` (R6, R50). -/
def memorySize : Nat := 4096

/-- The glyph base address (R6). -/
def fontBase : Nat := 0x050

/-- The program load and reset address (R6, R59). -/
def loadBase : Nat := 0x200

/-- What an address nothing has written reads as: the reset contents of R37, the font at `0x050`..`0x09F` and zero elsewhere
(R51, R60, C6; log 18). -/
def initialByte (font : Font) (a : Nat) : Byte :=
  if h : fontBase ≤ a ∧ a < fontBase + 80 then
    (font[(a - fontBase) / 5]'(by simp only [fontBase] at *; omega))[(a - fontBase) % 5]'(Nat.mod_lt _ (by decide))
  else 0

/-- The byte at `a`. -/
def Memory.read (font : Font) : Memory → Nat → Byte
  | [], a => initialByte font a
  | (b, v) :: rest, a =>
    if a < b then initialByte font a
    else if a = b then v
    else Memory.read font rest a

/-- The memory with `v` at `a`; the canonical form is kept. -/
def Memory.write (font : Font) : Memory → Nat → Byte → Memory
  | [], a, v => if v = initialByte font a then [] else [(a, v)]
  | (b, w) :: rest, a, v =>
    if a < b then (if v = initialByte font a then (b, w) :: rest else (a, v) :: (b, w) :: rest)
    else if a = b then (if v = initialByte font a then rest else (a, v) :: rest)
    else (b, w) :: Memory.write font rest a v

/-- The canonical form of a tail whose addresses are at least `lo`. -/
def Memory.wfFrom (font : Font) : Nat → Memory → Bool
  | _, [] => true
  | lo, (a, v) :: rest =>
    decide (lo ≤ a) && decide (a < memorySize) && decide (v ≠ initialByte font a) && Memory.wfFrom font (a + 1) rest

/-- The canonical form: addresses strictly rising and in range, no cell at its reset contents. -/
def Memory.wf (font : Font) (m : Memory) : Bool := Memory.wfFrom font 0 m

/-- Writes `bytes` at `a`, `a + 1`, … -/
def Memory.writeBytes (font : Font) (m : Memory) (a : Nat) : List Byte → Memory
  | [] => m
  | b :: rest => Memory.writeBytes font (m.write font a b) (a + 1) rest

end Sys2Proof.Machine
end

