-- ==== Sys2Proof/Machine/State.lean ====
section
/-! DEFINITION. The state of the CORE: all of spec/10_state.md R20 to R37, the status outputs of spec/60_exceptions.md R256, and the model's own four fields. -/

namespace Sys2Proof.Machine

/-- The value of `fault_cause` (R32, R232). -/
inductive Cause where
  /-- 0: running -/
  | none
  /-- 1, MemoryFault: the fetch (R56) -/
  | fetchOob
  /-- 2, MemoryFault: DRW, LD Vx,[I] (R233) -/
  | readOob
  /-- 3, MemoryFault: LD [I],Vx, LD B,Vx (R233) -/
  | writeOob
  /-- 4, StackFault: CALL (R234) -/
  | stackOverflow
  /-- 5, StackFault: RET (R234) -/
  | stackUnderflow
  /-- 6, KeyIndexFault: SKP, SKNP (R235) -/
  | keyOob
  /-- 7, SpriteEdgeFault: DRW (R236) -/
  | spriteEdge
  deriving DecidableEq, Repr

/-- The 3-bit code of a cause (R232). -/
def Cause.code : Cause → BitVec 3
  | .none => 0
  | .fetchOob => 1
  | .readOob => 2
  | .writeOob => 3
  | .stackOverflow => 4
  | .stackUnderflow => 5
  | .keyOob => 6
  | .spriteEdge => 7

/-- Why the model stops. No instruction and no cycle raises one: the spec describes the entry of every fault of the CORE (R238),
so a faulting cycle is a next state. -/
inductive Fault where
  /-- raised by `State.loadImage` (the loader port, never by a step) when a cycle has already run: "the spec gives such a write
  no meaning" (R272, D3). Safe: the model stops (log 10). -/
  | loadAfterFirstCycle
  deriving DecidableEq, Repr

/-- Why the model gives no meaning. -/
inductive Refusal where
  /-- an instruction without a meaning, raised by an arm of `exec` of that form; no arm is of that form. Safe. -/
  | notModelled (mnemonic : String)
  /-- raised by `State.loadImage` for an image of more than 3584 bytes: the interface refuses the load whole (R251, D26, U17).
  Safe (log 11). -/
  | imageTooLong
  deriving DecidableEq, Repr

/-- The state between two cycles, and inside one. -/
structure State where
  /-- the open parameters; no step writes them (the model's own field, log 1) -/
  params : Params
  /-- V0 to VF (R20); VF is `v[15]` (R21) -/
  v : Vector Byte 16
  /-- the index register `I` (R24) -/
  i : Word
  /-- the program counter (R23): between cycles the address of the next instruction, inside a handler that address + 2 -/
  pc : Word
  /-- the stack pointer, 0 to 16 (R25; log 14) -/
  sp : Fin 17
  /-- the call stack's 16 entries (R25) -/
  stack : Vector Word 16
  /-- the delay timer (R26) -/
  dt : Byte
  /-- the sound timer (R27) -/
  st : Byte
  /-- the input latch (R28): bit `k` is key `k`, 1 = pressed (R259) -/
  keys : Word
  /-- the framebuffer (R29) -/
  fb : Framebuffer
  /-- `current_instruction` (R30), also the output `word` (R256) -/
  currentInstruction : Word
  /-- memory (R31) -/
  memory : Memory
  /-- the status output `invalid_opcode` of the last cycle (R237, R256) -/
  invalidOpcode : Bool
  /-- `fault_cause` (R32): other than `none` means halted -/
  faultCause : Cause
  /-- `fault_pc` (R32) -/
  faultPc : Word
  /-- `fault_word` (R32) -/
  faultWord : Word
  /-- `fault_info` (R32) -/
  faultInfo : BitVec 17
  /-- how many random draws have been taken: the next draw is `Config.randomDraw draws` (the model's own field, log 8) -/
  draws : Nat
  /-- the input adapter's writes still to come, one before each running cycle (R252; the model's own field, log 9) -/
  keyWrites : List Word
  /-- whether a cycle has run since reset (R272; the model's own field, log 10) -/
  started : Bool
  deriving DecidableEq, Repr

/-- The machine right after reset in a build with the parameters `p`: R37, R270. -/
def State.resetWith (p : Params) : State where
  params := p
  v := Vector.replicate 16 0
  i := 0
  pc := 0x200
  sp := 0
  stack := Vector.replicate 16 0
  dt := 0
  st := 0
  keys := 0
  fb := Vector.replicate 32 0
  currentInstruction := 0
  memory := []
  invalidOpcode := false
  faultCause := .none
  faultPc := 0
  faultWord := 0
  faultInfo := 0
  draws := 0
  keyWrites := []
  started := false

/-- The machine right after reset, under the default parameters (R37, R7). Memory lists nothing: an unlisted address reads its
reset contents, the font among them. -/
def State.reset : State := State.resetWith Params.default

end Sys2Proof.Machine
end

