-- ==== Sys2Proof/Machine/Ops.lean ====
section
/-! DEFINITION. The named operations every meaning uses: register access, the access primitives of spec/00_scope.md R11, the stack controller of spec/40_control_flow.md R111 and R112, the framebuffer accesses, taking a fault (spec/60_exceptions.md R238) and leaving the halted state (spec/70_reset_and_hazards.md R270). -/

namespace Sys2Proof.Machine

/-! Registers. -/

/-- `V[r]` (R10). -/
def State.reg (s : State) (r : Reg) : Byte := s.v[r.val]

/-- `V[r] <- b` (R10, R20: none is hardwired). -/
def State.setReg (s : State) (r : Reg) (b : Byte) : State := { s with v := s.v.set r.val b }

/-- VF is `V[15]` (R21). -/
def vf : Reg := 15

/-- `I <- w`. -/
def State.setIndex (s : State) (w : Word) : State := { s with i := w }

/-- `pc <- w`. -/
def State.setPc (s : State) (w : Word) : State := { s with pc := w }

/-- `DT <- b`. -/
def State.setDt (s : State) (b : Byte) : State := { s with dt := b }

/-- `ST <- b`. -/
def State.setSt (s : State) (b : Byte) : State := { s with st := b }

/-- The framebuffer becomes `f`. -/
def State.setFb (s : State) (f : Framebuffer) : State := { s with fb := f }

/-- A skip advances `pc` by 2 modulo 2^16 (R110). -/
def State.skip (s : State) : State := s.setPc (s.pc + 2)

/-- A skip when the condition holds; otherwise `pc` is left where it is (R110). -/
def State.skipIf (s : State) (c : Bool) : State := if c then s.skip else s

/-! Raising and taking a fault. -/

/-- `raise <Fault>(cause, info)` (R11). -/
structure Raise where
  cause : Cause
  info : BitVec 17
  deriving DecidableEq, Repr

/-- A raise whose `fault_info` is the number `n` (an address, key, stack pointer or pixel; at most `0x1000E` where a meaning
uses it, R232). -/
def Raise.of (cause : Cause) (n : Nat) : Raise := ⟨cause, BitVec.ofNat 17 n⟩

/-- The fault status becomes cause, address, word and info (R32, R232); a cause other than NONE halts the CORE (R239). -/
def State.latchFault (s : State) (r : Raise) (pc word : Word) : State :=
  { s with faultCause := r.cause, faultPc := pc, faultWord := word, faultInfo := r.info }

/-- TAKING A FAULT raised by a handler that began in `s` (R238). Everything is as at the start of the cycle: what the handler did
is dropped by starting again from `s`, and `pc` goes back over the pre-increment to the address of the instruction.
`current_instruction` keeps the fetched word (log 12). -/
def takeFault (r : Raise) (s : State) : State :=
  (s.setPc (s.pc - 2)).latchFault r (s.pc - 2) s.currentInstruction

/-- TAKING A FAULT raised by the fetch, in a state before the pre-increment (R238): `pc` and `current_instruction` are
unchanged and `fault_word` is 0 (R232). -/
def takeFetchFault (r : Raise) (s : State) : State := s.latchFault r s.pc 0

/-- LEAVING THE HALTED STATE: there is no return instruction (R242), only reset (R239, R270), which constructs the machine again
and does not touch the key levels. The adapter's writes to come and the draws taken are the outside world's and stay. -/
def State.hostReset (s : State) : State :=
  { State.resetWith s.params with keys := s.keys, keyWrites := s.keyWrites, draws := s.draws }

/-- `halted = (fault_cause ≠ 0)` (R256). -/
def State.halted (s : State) : Bool := decide (s.faultCause ≠ .none)

/-- How a handler ends: its new state, or the fault it raised, taken in the state it began in. -/
def finish (s : State) : Except Raise State → Host.Outcome State Fault Refusal
  | .ok t => .next t
  | .error r => .next (takeFault r s)

/-! Memory and key accesses (R11). -/

/-- The cell an access to the unbounded address `a` reaches (R55): `a` in range, `a mod 4096` under `mask`, else the fault. -/
def State.resolve (s : State) (cause : Cause) (a : Nat) : Except Raise Nat :=
  if a < memorySize then .ok a
  else
    match s.params.oobPolicy with
    | .mask => .ok (a % memorySize)
    | .fault => .error (Raise.of cause a)

/-- The byte of cell `a` (R10, `Mem[a]`). -/
def State.byteAt (s : State) (a : Nat) : Byte := s.memory.read s.params.font a

/-- `Mem[a] <- b`. -/
def State.setByte (s : State) (a : Nat) (b : Byte) : State := { s with memory := s.memory.write s.params.font a b }

/-- `MemRead(a, 1)`; `cause` is READ_OOB, or FETCH_OOB for the fetch (R11). -/
def State.memRead (s : State) (cause : Cause) (a : Nat) : Except Raise Byte :=
  match s.resolve cause a with
  | .ok c => .ok (s.byteAt c)
  | .error r => .error r

/-- `MemWrite(a, 1, b)` (R11). -/
def State.memWrite (s : State) (a : Nat) (b : Byte) : Except Raise State :=
  match s.resolve .writeOob a with
  | .ok c => .ok (s.setByte c b)
  | .error r => .error r

/-- The level of key `k`, `Key[k]` (R10). -/
def State.key (s : State) (k : Reg) : Bool := s.keys.getLsbD k.val

/-- `KeyRead(k)` (R11, R190). -/
def State.keyRead (s : State) (k : Byte) : Except Raise Bool :=
  if h : k.toNat < 16 then .ok (s.key ⟨k.toNat, h⟩)
  else
    match s.params.oobPolicy with
    | .mask => .ok (s.key ⟨k.toNat % 16, Nat.mod_lt _ (by decide)⟩)
    | .fault => .error (Raise.of .keyOob k.toNat)

/-! The stack controller. -/

/-- `Push(w)` (R111). Under `wrap` a stack pointer of 16 is reached by no run; it is read modulo 16 (log 14). -/
def State.push (s : State) (w : Word) : Except Raise State :=
  match s.params.stackPolicy with
  | .fault =>
    if h : s.sp.val < 16 then
      .ok { s with stack := s.stack.set s.sp.val w, sp := ⟨s.sp.val + 1, by omega⟩ }
    else .error (Raise.of .stackOverflow s.sp.val)
  | .wrap =>
    .ok { s with
      stack := s.stack.set (s.sp.val % 16) w (Nat.mod_lt _ (by decide))
      sp := ⟨(s.sp.val + 1) % 16, by omega⟩ }

/-- `Pop()` (R112): the entry and the state after. The entry is not cleared. -/
def State.pop (s : State) : Except Raise (Word × State) :=
  match s.params.stackPolicy with
  | .fault =>
    if h : s.sp.val = 0 then .error (Raise.of .stackUnderflow s.sp.val)
    else .ok (s.stack[s.sp.val - 1], { s with sp := ⟨s.sp.val - 1, by omega⟩ })
  | .wrap =>
    .ok (s.stack[(s.sp.val + 15) % 16]'(Nat.mod_lt _ (by decide)),
      { s with sp := ⟨(s.sp.val + 15) % 16, by omega⟩ })

/-! The framebuffer (R29). -/

/-- `Fb[px][py]`; off outside the framebuffer, where nothing reads it. -/
def fbCell (f : Framebuffer) (px py : Nat) : Bool := if h : py < 32 then f[py].getLsbD px else false

/-- `Fb[px][py] <- Fb[px][py] ^ 1`; nothing outside the framebuffer, where nothing flips. -/
def fbFlip (f : Framebuffer) (px py : Nat) : Framebuffer :=
  if h : py < 32 then f.set py (f[py] ^^^ ((1 : FbRow) <<< px)) else f

/-- Every cell off (R170). -/
def fbClear : Framebuffer := Vector.replicate 32 0

/-! The parts of a cycle (R95) that a step puts around the handler. -/

/-- The inputs of the cycle: the adapter's next write, if one is due, reaches the latch, and the latch is the snapshot for the
whole cycle (R28, R252; log 9). From here on a cycle has run (R272; log 10). -/
def State.takeInputs (s : State) : State :=
  match s.keyWrites with
  | [] => { s with started := true }
  | k :: rest => { s with keys := k, keyWrites := rest, started := true }

/-- Step 1 of the cycle: the word at `pc`, big-endian (R54, R56). -/
def State.fetch (s : State) : Except Raise Word :=
  match s.memRead .fetchOob s.pc.toNat with
  | .error r => .error r
  | .ok b0 =>
    match s.memRead .fetchOob (s.pc.toNat + 1) with
    | .error r => .error r
    | .ok b1 => .ok (wordOfBytes b0 b1)

/-- The word is latched and `pc` pre-incremented (steps 1 and 2 of R95, R96). -/
def State.latchWord (s : State) (w : Word) : State := { s with currentInstruction := w, pc := s.pc + 2 }

/-- The status output `invalid_opcode` (R237, R256). -/
def State.setInvalid (s : State) (b : Bool) : State := { s with invalidOpcode := b }

/-- A timer one cycle later (R245): it never goes below 0. -/
def countDown (t : Byte) : Byte := if 0 < t.toNat then t - 1 else 0

/-- Step 4 of the cycle (R245). -/
def State.tick (s : State) : State := { s with dt := countDown s.dt, st := countDown s.st }

/-- Step 4 runs only in a cycle that did not fault (R95, R238). -/
def State.endCycle (s : State) : State := if s.halted then s else s.tick

/-- The word `w` stored where the next fetch reads it, in the fetch's byte order. -/
def State.placeWord (s : State) (w : Word) : State :=
  (s.setByte (s.pc.toNat % memorySize) (bytesOfWord w).1).setByte ((s.pc.toNat + 1) % memorySize) (bytesOfWord w).2

end Sys2Proof.Machine
end

