-- ==== Sys2Proof/Machine/Flags.lean ====
section
/-! DEFINITION. The flag computations (spec/10_state.md R34, spec/42_arithmetic_logic.md R140 to R150): results are computed on unbounded integers and narrowed to 8 bits at the end. -/

namespace Sys2Proof.Machine

/-- A flag as the value VF receives (R21: "0 or 1"). -/
def flagByte (f : Bool) : Byte := if f then 1 else 0

/-- The sum modulo 256 and the carry, 1 iff the sum exceeds 255 (R142). -/
def addCarry (a b : Byte) : Byte × Bool := (BitVec.ofNat 8 (a.toNat + b.toNat), decide (a.toNat + b.toNat > 255))

/-- The difference `a - b` modulo 256 and the not-borrow, 1 iff the minuend is STRICTLY greater (R143, R144, C7). -/
def subNotBorrow (a b : Byte) : Byte × Bool :=
  (BitVec.ofInt 8 ((a.toNat : Int) - (b.toNat : Int)), decide (a.toNat > b.toNat))

/-- Shift right by one: a 0 enters, the flag is the old bit 0 (R148, R150). -/
def shiftRightOut (a : Byte) : Byte × Bool := (BitVec.ofNat 8 (a.toNat / 2), a.getLsbD 0)

/-- Shift left by one: a 0 enters, the flag is the old bit 7 (R149, R150). -/
def shiftLeftOut (a : Byte) : Byte × Bool := (BitVec.ofNat 8 (a.toNat * 2), a.getLsbD 7)

/-- `WriteResultAndFlag(r, f)` (R140): the two orders differ only for X = 15 (D13, log 27). -/
def State.writeResultAndFlag (s : State) (x : Reg) (rf : Byte × Bool) : State :=
  match s.params.flagOrder with
  | .flagLast => (s.setReg x rf.1).setReg vf (flagByte rf.2)
  | .resultLast => (s.setReg vf (flagByte rf.2)).setReg x rf.1

end Sys2Proof.Machine
end

