-- ==== Sys2Proof/Machine/Operands.lean ====
section
/-! DEFINITION. The operand forms of the instructions that are more than a register or an immediate (spec/30_encoding.md R83): addresses through `I`, the shift source, the glyph, the sprite's origin, the decimal digits, the register ranges, the lowest key. -/

namespace Sys2Proof.Machine

/-- The data address `I + k`, an unbounded integer (R55, D22). -/
def State.dataAddr (s : State) (k : Nat) : Nat := s.i.toNat + k

/-- The value SHR and SHL shift: `V[X]`, or `V[Y]` under `SHIFT_SOURCE = VY` (R148, R149, D12). -/
def State.shiftOperand (s : State) (x y : Reg) : Byte :=
  match s.params.shiftSource with
  | .vx => s.reg x
  | .vy => s.reg y

/-- The digit LD F,Vx takes from a register value (R212, D16). -/
def glyphDigit (d : FontDigit) (b : Byte) : Nat :=
  match d with
  | .full => b.toNat
  | .lowNibble => b.toNat % 16

/-- The address of the glyph of digit `d` (R212): 16 bits, at most `0x054B`. -/
def glyphAddr (d : Nat) : Word := BitVec.ofNat 16 (fontBase + 5 * d)

/-- The target of JP V0,addr (R220): the sum fits in 16 bits. -/
def offsetTarget (v0 : Byte) (nnn : Addr12) : Word := BitVec.ofNat 16 (v0.toNat + nnn.toNat)

/-- The column DRW starts in (R171). -/
def spriteColumn (b : Byte) : Nat := b.toNat % 64

/-- The row DRW starts in (R171). -/
def spriteRow (b : Byte) : Nat := b.toNat % 32

/-- Bit `7 - col` of a sprite byte is the pixel of column `col`: the most significant bit is leftmost (R172, log 5). -/
def spriteBit (bits : Byte) (col : Nat) : Bool := bits.getLsbD (7 - col)

/-- The decimal digits of a register value, each a byte with where it goes from `I` (R165). -/
def bcdDigits (b : Byte) : List (Nat × Byte) :=
  [(0, BitVec.ofNat 8 (b.toNat / 100)), (1, BitVec.ofNat 8 (b.toNat / 10 % 10)), (2, BitVec.ofNat 8 (b.toNat % 10))]

/-- All registers, V0 first. -/
def allRegs : List Reg := [0, 1, 2, 3, 4, 5, 6, 7, 8, 9, 10, 11, 12, 13, 14, 15]

/-- The registers V0..VX in ascending order (R132, R133). -/
def regsUpTo (x : Reg) : List Reg := allRegs.take (x.val + 1)

/-- `I` after a register-range store or load of V0..VX (R132, R133, D15). -/
def indexAfterRange (l : LdstI) (i : Word) (x : Reg) : Word :=
  match l with
  | .unchanged => i
  | .increment => i + BitVec.ofNat 16 (x.val + 1)

/-- The lowest pressed key (R193). -/
def State.lowestKey (s : State) : Option Reg := allRegs.find? s.key

/-- A register number as a register's value (R193: `V[X] <- k`). -/
def byteOfReg (k : Reg) : Byte := BitVec.ofNat 8 k.val

/-- A random draw under a mask (R160). -/
def maskedDraw (draw nn : Byte) : Byte := draw &&& nn

end Sys2Proof.Machine
end

