-- ==== Sys2Proof/Machine/Arithmetic.lean ====
section
/-! DEFINITION. Arithmetic and logic: spec/42_arithmetic_logic.md R140 to R150, and spec/43_random.md R160, R161. Every operand is read before anything is written (R140, R12). -/

namespace Sys2Proof.Machine

/-- `ADD Vx, byte` (R141): modulo 256, VF is no flag here. -/
def execAddImm (x : Reg) (nn : Byte) (s : State) : Host.Outcome State Fault Refusal :=
  .next (s.setReg x (s.reg x + nn))

/-- `OR Vx, Vy` (R145, D14: VF is not written). -/
def execOrReg (x y : Reg) (s : State) : Host.Outcome State Fault Refusal :=
  .next (s.setReg x (s.reg x ||| s.reg y))

/-- `AND Vx, Vy` (R146, D14). -/
def execAndReg (x y : Reg) (s : State) : Host.Outcome State Fault Refusal :=
  .next (s.setReg x (s.reg x &&& s.reg y))

/-- `XOR Vx, Vy` (R147, D14). -/
def execXorReg (x y : Reg) (s : State) : Host.Outcome State Fault Refusal :=
  .next (s.setReg x (s.reg x ^^^ s.reg y))

/-- `ADD Vx, Vy` (R142). -/
def execAddReg (x y : Reg) (s : State) : Host.Outcome State Fault Refusal :=
  .next (s.writeResultAndFlag x (addCarry (s.reg x) (s.reg y)))

/-- `SUB Vx, Vy` (R143): Vx - Vy. -/
def execSub (x y : Reg) (s : State) : Host.Outcome State Fault Refusal :=
  .next (s.writeResultAndFlag x (subNotBorrow (s.reg x) (s.reg y)))

/-- `SUBN Vx, Vy` (R144, D11): Vy - Vx. In a build without SUBN the decoder never gives it (log 15). -/
def execSubn (x y : Reg) (s : State) : Host.Outcome State Fault Refusal :=
  .next (s.writeResultAndFlag x (subNotBorrow (s.reg y) (s.reg x)))

/-- `SHR Vx {, Vy}` (R148). -/
def execShr (x y : Reg) (s : State) : Host.Outcome State Fault Refusal :=
  .next (s.writeResultAndFlag x (shiftRightOut (s.shiftOperand x y)))

/-- `SHL Vx {, Vy}` (R149). -/
def execShl (x y : Reg) (s : State) : Host.Outcome State Fault Refusal :=
  .next (s.writeResultAndFlag x (shiftLeftOut (s.shiftOperand x y)))

/-- RND with the draw given: what R160 does for one value of `Rnd`. -/
def State.withDraw (s : State) (x : Reg) (nn draw : Byte) : State :=
  { s.setReg x (maskedDraw draw nn) with draws := s.draws + 1 }

/-- `RND Vx, byte` (R160): the draw is a free value, a fresh one for every execution (R161, log 8). -/
def execRnd (x : Reg) (nn : Byte) (s : State) : Host.Outcome State Fault Refusal :=
  .next (s.withDraw x nn (Config.randomDraw s.draws))

end Sys2Proof.Machine
end

