-- ==== Sys2Proof/Machine/ControlFlow.lean ====
section
/-! DEFINITION. Control flow: spec/40_control_flow.md R110 to R119 and spec/49_jump_offset.md R220. On entry `pc` is the instruction's address + 2 (R96). -/

namespace Sys2Proof.Machine

/-- `JP addr` (R113). -/
def execJp (nnn : Addr12) (s : State) : Host.Outcome State Fault Refusal :=
  .next (s.setPc (zext16 nnn))

/-- `CALL addr` (R114): push the pre-incremented `pc`, then jump; STACK_OVERFLOW per R111. -/
def execCall (nnn : Addr12) (s : State) : Host.Outcome State Fault Refusal :=
  finish s ((s.push s.pc).map fun t => t.setPc (zext16 nnn))

/-- `RET` (R115): STACK_UNDERFLOW per R112. The popped `pc` is not checked. -/
def execRet (s : State) : Host.Outcome State Fault Refusal :=
  finish s (s.pop.map fun wt => wt.2.setPc wt.1)

/-- `SE Vx, byte` (R116). -/
def execSeImm (x : Reg) (nn : Byte) (s : State) : Host.Outcome State Fault Refusal :=
  .next (s.skipIf (s.reg x == nn))

/-- `SNE Vx, byte` (R117). -/
def execSneImm (x : Reg) (nn : Byte) (s : State) : Host.Outcome State Fault Refusal :=
  .next (s.skipIf (s.reg x != nn))

/-- `SE Vx, Vy` (R118). -/
def execSeReg (x y : Reg) (s : State) : Host.Outcome State Fault Refusal :=
  .next (s.skipIf (s.reg x == s.reg y))

/-- `SNE Vx, Vy` (R119). -/
def execSneReg (x y : Reg) (s : State) : Host.Outcome State Fault Refusal :=
  .next (s.skipIf (s.reg x != s.reg y))

/-- `JP V0, addr` (R220): always register 0. -/
def execJpV0 (nnn : Addr12) (s : State) : Host.Outcome State Fault Refusal :=
  .next (s.setPc (offsetTarget (s.reg 0) nnn))

end Sys2Proof.Machine
end

