-- ==== Sys2Proof/Machine/DataMovement.lean ====
section
/-! DEFINITION. Data movement: spec/41_data_movement.md R130 to R133 and spec/44_bcd.md R165. -/

namespace Sys2Proof.Machine

/-- `LD Vx, byte` (R130). -/
def execLdImm (x : Reg) (nn : Byte) (s : State) : Host.Outcome State Fault Refusal :=
  .next (s.setReg x nn)

/-- `LD Vx, Vy` (R131). -/
def execLdReg (x y : Reg) (s : State) : Host.Outcome State Fault Refusal :=
  .next (s.setReg x (s.reg y))

/-- Stores bytes at their offsets from `I`, in the order of the list (R12, R53). -/
def State.storeAt (s : State) (cells : List (Nat × Byte)) : Except Raise State :=
  cells.foldlM (fun t c => t.memWrite (s.dataAddr c.1) c.2) s

/-- `LD [I], Vx` (R132): ascending; WRITE_OOB with the first address out of range. -/
def execLdStore (x : Reg) (s : State) : Host.Outcome State Fault Refusal :=
  finish s ((s.storeAt ((regsUpTo x).map fun r => (r.val, s.reg r))).map fun t =>
    t.setIndex (indexAfterRange s.params.ldstI s.i x))

/-- Loads registers from their offsets from `I`, in the order of the list (R12, R53). -/
def State.loadFrom (s : State) (regs : List Reg) : Except Raise State :=
  regs.foldlM (fun t r => (s.memRead .readOob (s.dataAddr r.val)).map fun b => t.setReg r b) s

/-- `LD Vx, [I]` (R133): ascending; READ_OOB with the first address out of range. -/
def execLdLoad (x : Reg) (s : State) : Host.Outcome State Fault Refusal :=
  finish s ((s.loadFrom (regsUpTo x)).map fun t =>
    t.setIndex (indexAfterRange s.params.ldstI s.i x))

/-- `LD B, Vx` (R165): hundreds, tens, ones; WRITE_OOB with the first address out of range. -/
def execLdB (x : Reg) (s : State) : Host.Outcome State Fault Refusal :=
  finish s (s.storeAt (bcdDigits (s.reg x)))

end Sys2Proof.Machine
end

