-- ==== Sys2Proof/Machine/Graphics.lean ====
section
/-! DEFINITION. The framebuffer blit engine: spec/45_graphics.md R170 to R173. -/

namespace Sys2Proof.Machine

/-- `CLS` (R170): every cell off; VF is unchanged (log 21). -/
def execCls (s : State) : Host.Outcome State Fault Refusal :=
  .next (s.setFb fbClear)

/-- A set sprite bit at column `px`, row `py` (R171, R173): past the edge it is dropped or raises SPRITE_EDGE; else the cell is
flipped, and a cell that was on is a collision. The pair is the framebuffer and `hit`. -/
def plotPixel (edge : SpriteEdge) (px py : Nat) (acc : Framebuffer × Bool) : Except Raise (Framebuffer × Bool) :=
  if px ≥ 64 ∨ py ≥ 32 then
    match edge with
    | .clip => .ok acc
    | .fault => .error (Raise.of .spriteEdge ((py <<< 8) ||| px))
  else .ok (fbFlip acc.1 px py, acc.2 || fbCell acc.1 px py)

/-- The columns of a sprite byte, left to right (R171). -/
def spriteCols : List Nat := [0, 1, 2, 3, 4, 5, 6, 7]

/-- One row of the sprite, its bits left to right (R171, R240). A 0 bit changes nothing. -/
def drawBits (edge : SpriteEdge) (x0 py : Nat) (bits : Byte) (acc : Framebuffer × Bool) :
    Except Raise (Framebuffer × Bool) :=
  spriteCols.foldlM (fun a col => if spriteBit bits col then plotPixel edge (x0 + col) py a else .ok a) acc

/-- One row: its byte is read first, even if every bit of it is clipped (R240, D28, log 25). -/
def State.drawRow (s : State) (x0 y0 : Nat) (acc : Framebuffer × Bool) (row : Nat) :
    Except Raise (Framebuffer × Bool) :=
  match s.memRead .readOob (s.dataAddr row) with
  | .ok bits => drawBits s.params.spriteEdge x0 (y0 + row) bits acc
  | .error r => .error r

/-- The rows of the sprite, top row first (R171). -/
def State.drawSprite (s : State) (x0 y0 : Nat) (n : Nibble) : Except Raise (Framebuffer × Bool) :=
  (List.range n.toNat).foldlM (s.drawRow x0 y0) (s.fb, false)

/-- `DRW Vx, Vy, nibble` (R171): the origin wraps, the sprite does not; VF is 1 iff a cell went from on to off. -/
def execDrw (x y : Reg) (n : Nibble) (s : State) : Host.Outcome State Fault Refusal :=
  finish s ((s.drawSprite (spriteColumn (s.reg x)) (spriteRow (s.reg y)) n).map fun fh =>
    (s.setFb fh.1).setReg vf (flagByte fh.2))

end Sys2Proof.Machine
end

