-- ==== Sys2Proof/Machine/Input.lean ====
section
/-! DEFINITION. The input latch: spec/46_input.md R190 to R193. -/

namespace Sys2Proof.Machine

/-- `SKP Vx` (R191): KEY_OOB per R190. -/
def execSkp (x : Reg) (s : State) : Host.Outcome State Fault Refusal :=
  finish s ((s.keyRead (s.reg x)).map fun pressed => s.skipIf pressed)

/-- `SKNP Vx` (R192): KEY_OOB per R190. -/
def execSknp (x : Reg) (s : State) : Host.Outcome State Fault Refusal :=
  finish s ((s.keyRead (s.reg x)).map fun pressed => s.skipIf (!pressed))

/-- `LD Vx, K` (R193): the lowest pressed key, or `pc` goes back by 2 modulo 2^16 so that the instruction runs again. -/
def execLdVxK (x : Reg) (s : State) : Host.Outcome State Fault Refusal :=
  match s.lowestKey with
  | some k => .next (s.setReg x (byteOfReg k))
  | none => .next (s.setPc (s.pc - 2))

end Sys2Proof.Machine
end

