-- ==== Sys2Proof/Machine/TimersIndex.lean ====
section
/-! DEFINITION. Timer transfers (spec/47_timers.md R200 to R202) and the index register (spec/48_index.md R210 to R212). The countdown of the same cycle is `State.tick` (R245), after the handler. -/

namespace Sys2Proof.Machine

/-- `LD Vx, DT` (R200). -/
def execLdVxDt (x : Reg) (s : State) : Host.Outcome State Fault Refusal :=
  .next (s.setReg x s.dt)

/-- `LD DT, Vx` (R201). -/
def execLdDtVx (x : Reg) (s : State) : Host.Outcome State Fault Refusal :=
  .next (s.setDt (s.reg x))

/-- `LD ST, Vx` (R202). -/
def execLdStVx (x : Reg) (s : State) : Host.Outcome State Fault Refusal :=
  .next (s.setSt (s.reg x))

/-- `LD I, addr` (R210). -/
def execLdI (nnn : Addr12) (s : State) : Host.Outcome State Fault Refusal :=
  .next (s.setIndex (zext16 nnn))

/-- `ADD I, Vx` (R211): modulo 2^16, no flag. -/
def execAddI (x : Reg) (s : State) : Host.Outcome State Fault Refusal :=
  .next (s.setIndex (s.i + (s.reg x).setWidth 16))

/-- `LD F, Vx` (R212): `0x050 + 5·digit`. -/
def execLdF (x : Reg) (s : State) : Host.Outcome State Fault Refusal :=
  .next (s.setIndex (glyphAddr (glyphDigit s.params.fontDigit (s.reg x))))

end Sys2Proof.Machine
end

