-- ==== Sys2Proof/Machine/Cycle.lean ====
section
/-! DEFINITION. One cycle of the CORE: spec/30_encoding.md R95, R96, with the invalid opcode of spec/60_exceptions.md R237, the fault entry of R238 and the halted state of R239. -/

namespace Sys2Proof.Machine

/-- The invalid-opcode handler (R237): it changes nothing but the report. -/
def invalidHandler (s : State) : State := s.setInvalid true

/-- Steps 3 and 4 of the cycle for the fetched word `w`, in the state before the fetch: latch and pre-increment, dispatch,
execute, count the timers unless the handler faulted. -/
def executeWord (w : Word) (s : State) : Host.Outcome State Fault Refusal :=
  let s1 := (s.latchWord w).setInvalid false
  match decodeWord s.params w with
  | .error _ => .next (invalidHandler s1).endCycle
  | .ok i =>
    match exec i s1 with
    | .next t => .next t.endCycle
    | .fault r => .fault r
    | .refused r => .refused r

/-- The cycle of a running CORE (R95). A fetch fault prevents decoding and ends the cycle (R240). -/
def runningCycle (s : State) : Host.Outcome State Fault Refusal :=
  let s0 := s.takeInputs
  match s0.fetch with
  | .error r => .next (takeFetchFault r (s0.setInvalid false))
  | .ok w => executeWord w s0

/-- One trigger (R95, R239): a halted CORE changes no state, and `invalid_opcode` is 0. -/
def cycle (s : State) : Host.Outcome State Fault Refusal :=
  if s.halted then .next (s.setInvalid false) else runningCycle s

end Sys2Proof.Machine
end

