-- ==== Sys2Proof/Machine/Step.lean ====
section
/-! DEFINITION. One step of the model is one cycle trigger (spec/60_exceptions.md R254; log 26), and where a step fetches. -/

namespace Sys2Proof.Machine

/-- One cycle (R95, R254). -/
def step (s : State) : Host.Outcome State Fault Refusal := cycle s

/-- `s` with the table word `w` of `nbits` bits (the bits above are 0) stored where `step` fetches: at `pc` and `pc + 1`,
big-endian (R54, R56). It stands for the loader's write (log 17). -/
def State.withFetchWord (s : State) (nbits w : Nat) : State := s.placeWord (BitVec.ofNat 16 (w % 2 ^ nbits))

end Sys2Proof.Machine
end

