-- ==== Sys2Proof/Machine/HostPort.lean ====
section
/-! DEFINITION. The block interface (spec/60_exceptions.md R250 to R256, R259): what the host may do between cycles and what it reads. Reset is `State.hostReset` (Machine/Ops.lean). -/

namespace Sys2Proof.Machine

/-- The longest image: 4096 − 512 bytes (R6, R251). -/
def maxImage : Nat := memorySize - loadBase

/-- The program loader (R251, R272): the image is copied verbatim to `0x200`. An image of more than 3584 bytes is refused whole
(D26, log 11); after the first cycle a load has no meaning in the spec (D3, log 10). -/
def State.loadImage (s : State) (image : List Byte) : Host.Outcome State Fault Refusal :=
  if s.started then .fault .loadAfterFirstCycle
  else if image.length > maxImage then .refused .imageTooLong
  else .next { s with memory := s.memory.writeBytes s.params.font loadBase image }

/-- The input adapter writes the 16 key levels between cycles (R252). -/
def State.driveKeys (s : State) (levels : Word) : State := { s with keys := levels }

/-- The framebuffer as the display adapter reads it: bit `py·64 + px` is `Fb[px][py]` (R253, D27). -/
def fbPort (f : Framebuffer) : BitVec 2048 := BitVec.ofFnLE fun k : Fin 2048 => fbCell f (k.val % 64) (k.val / 64)

/-- The report of an invalid opcode (R237, decision D9): the word and the address `a` of the cycle that ran its handler, none after any
other cycle. Such a cycle leaves `pc` at `a + 2` modulo 2^16, so the address is computed from `pc` (log 22). -/
def State.invalidReport (s : State) : Option (Word × Word) :=
  if s.invalidOpcode then some (s.currentInstruction, s.pc - 2) else none

/-- The output ports (R259), and the report of R237, whose address the list of R259 gives no port. -/
structure Outputs where
  /-- the framebuffer, bit `py·64 + px` (R253) -/
  fb : BitVec 2048
  /-- the sound timer (R247) -/
  st : Byte
  /-- `sound_on = (ST ≠ 0)` (R247, D25) -/
  soundOn : Bool
  /-- the last cycle ran the invalid-opcode handler (R256) -/
  invalidOpcode : Bool
  /-- `current_instruction` (R256) -/
  word : Word
  /-- the word and the address of an invalid opcode (R237) -/
  invalidReport : Option (Word × Word)
  /-- the 3-bit code of the cause (R256, R232) -/
  faultCause : BitVec 3
  faultPc : Word
  faultWord : Word
  faultInfo : BitVec 17
  /-- `halted = (fault_cause ≠ 0)` (R256) -/
  halted : Bool
  deriving DecidableEq, Repr

/-- What the host reads between cycles (R237, R247, R253, R256). -/
def State.outputs (s : State) : Outputs where
  fb := fbPort s.fb
  st := s.st
  soundOn := decide (s.st ≠ 0)
  invalidOpcode := s.invalidOpcode
  word := s.currentInstruction
  invalidReport := s.invalidReport
  faultCause := s.faultCause.code
  faultPc := s.faultPc
  faultWord := s.faultWord
  faultInfo := s.faultInfo
  halted := s.halted

/-- A move of the host between or by cycles (R250). -/
inductive HostMove where
  /-- the `rst` input (R270) -/
  | reset
  /-- the loader (R251) -/
  | load (image : List Byte)
  /-- the input adapter (R252) -/
  | keys (levels : Word)
  /-- one trigger of the timing loop (R254) -/
  | trigger
  deriving DecidableEq, Repr

/-- The state after a move of the host. -/
def State.move (s : State) : HostMove → Host.Outcome State Fault Refusal
  | .reset => .next s.hostReset
  | .load image => s.loadImage image
  | .keys levels => .next (s.driveKeys levels)
  | .trigger => step s

end Sys2Proof.Machine
end

