-- ==== Sys2Proof/Safety.lean ====
section
/-! DEFINITION. What the statements speak in: running states, the invariants of the machine, the frames of the instructions, and the effects the spec describes on whole objects (a sprite, a fault entry), written without the machine's loops. -/

namespace Sys2Proof.Machine

/-- The CORE is not halted (R239). -/
abbrev State.running (s : State) : Prop := s.faultCause = .none

/-- An access to the unbounded address `a` raises nothing (R55). -/
abbrev State.reaches (s : State) (a : Nat) : Prop := a < 4096 ∨ s.params.oobPolicy = .mask

/-- The address the accesses of a run of ascending addresses from `a` fault on first: the first that is ≥ 4096 (R232). -/
def firstOutOfRange (a : Nat) : Nat := if a < 4096 then 4096 else a

/-! Invariants. -/

/-- Memory is in its canonical form. -/
abbrev State.memoryCanonical (s : State) : Prop := s.memory.wf s.params.font = true

/-- Under `STACK_POLICY = wrap` the stack pointer takes the values 0 to 15 (R25). -/
abbrev State.stackPointerLegal (s : State) : Prop := s.params.stackPolicy = .wrap → s.sp.val < 16

/-- The last column of the table of R232: what `fault_info` can be for each cause, and the parameter setting that lets the cause
arise (R231). -/
def State.faultInfoLegal (s : State) : Prop :=
  match s.faultCause with
  | .none => s.faultInfo = 0
  | .fetchOob => s.params.oobPolicy = .fault ∧ s.faultInfo.toNat = firstOutOfRange s.faultPc.toNat ∧ 4095 ≤ s.faultPc.toNat
  | .readOob => s.params.oobPolicy = .fault ∧ 4096 ≤ s.faultInfo.toNat ∧ s.faultInfo.toNat ≤ 0x1000E
  | .writeOob => s.params.oobPolicy = .fault ∧ 4096 ≤ s.faultInfo.toNat ∧ s.faultInfo.toNat ≤ 0x1000E
  | .stackOverflow => s.params.stackPolicy = .fault ∧ s.faultInfo = 16 ∧ s.sp = 16
  | .stackUnderflow => s.params.stackPolicy = .fault ∧ s.faultInfo = 0 ∧ s.sp = 0
  | .keyOob => s.params.oobPolicy = .fault ∧ 16 ≤ s.faultInfo.toNat ∧ s.faultInfo.toNat ≤ 255
  | .spriteEdge => s.params.spriteEdge = .fault ∧ (64 ≤ s.faultInfo.toNat % 256 ∨ 32 ≤ s.faultInfo.toNat / 256)

/-- The fault status says what R32, R232 and R238 say: nothing while running; when halted, the address is that of the instruction
`pc` still holds, the word is the word of that cycle (0 for FETCH_OOB), and `invalid_opcode` is 0. -/
def State.faultStatusCoherent (s : State) : Prop :=
  s.faultInfoLegal ∧
  (s.faultCause = .none → s.faultPc = 0 ∧ s.faultWord = 0) ∧
  (s.faultCause ≠ .none →
    s.faultPc = s.pc ∧ s.invalidOpcode = false ∧
    (s.faultCause = .fetchOob → s.faultWord = 0) ∧
    (s.faultCause ≠ .fetchOob → s.faultWord = s.currentInstruction))

/-! Frames: what is unchanged from `s` to `t`. -/

/-- Only registers in `dst` may differ. -/
def frameRegs (dst : List Reg) (s t : State) : Prop :=
  (∀ r, r ∉ dst → t.reg r = s.reg r) ∧ (∀ a, t.byteAt a = s.byteAt a) ∧ t = { s with v := t.v }

/-- Only `pc` may differ. -/
def framePc (s t : State) : Prop :=
  (∀ r, t.reg r = s.reg r) ∧ (∀ a, t.byteAt a = s.byteAt a) ∧ t = { s with pc := t.pc }

/-- Only `I` may differ. -/
def frameIndex (s t : State) : Prop :=
  (∀ r, t.reg r = s.reg r) ∧ (∀ a, t.byteAt a = s.byteAt a) ∧ t = { s with i := t.i }

/-- Only `pc`, `sp` and the stack entry `j` may differ. -/
def frameStack (j : Nat) (s t : State) : Prop :=
  (∀ r, t.reg r = s.reg r) ∧ (∀ a, t.byteAt a = s.byteAt a) ∧
  (∀ k (_ : k < 16), k ≠ j → t.stack[k] = s.stack[k]) ∧
  t = { s with pc := t.pc, sp := t.sp, stack := t.stack }

/-- Only the bytes at the addresses `stored` and, where `I` is written back, `I` may differ. -/
def frameStore (stored : Nat → Prop) (s t : State) : Prop :=
  (∀ r, t.reg r = s.reg r) ∧ (∀ a, ¬ stored a → t.byteAt a = s.byteAt a) ∧
  t = { s with memory := t.memory, i := t.i }

/-- The state after the fault `c` with the information `n` raised by a handler that began in `s`: R238, R232, field by field. -/
def faultEntry (c : Cause) (n : Nat) (s : State) : State :=
  { s with
    pc := s.pc - 2
    faultCause := c
    faultPc := s.pc - 2
    faultWord := s.currentInstruction
    faultInfo := BitVec.ofNat 17 n }

/-- The state a handler receives in the cycle of `s` that fetched `w` (R95, R96). -/
def handlerState (w : Word) (s : State) : State :=
  { s.takeInputs with currentInstruction := w, pc := s.pc + 2, invalidOpcode := false }

/-! The effect of DRW said cell by cell (R171, R172), without the machine's loops. -/

/-- The sprite has a set bit over column `px`, row `py`: origin `x0`, `y0`, `n` rows, bytes from `I` on. -/
def State.spriteCovers (s : State) (x0 y0 n px py : Nat) : Bool :=
  decide (x0 ≤ px) && decide (px < x0 + 8) && decide (y0 ≤ py) && decide (py < y0 + n) &&
    (s.byteAt ((s.i.toNat + (py - y0)) % 4096)).getLsbD (7 - (px - x0))

/-- Column `px`, row `py` is past the right or bottom edge (R173). -/
abbrev offScreen (px py : Nat) : Prop := 64 ≤ px ∨ 32 ≤ py

/-! Who may write what. -/

/-- Instruction `i` may write register `r` in state `s`: the writes column of R22; LD Vx,K writes only when a key is pressed. -/
def State.mayWriteReg (s : State) (r : Reg) : Instr → Prop
  | .ldImm x _ | .addImm x _ | .ldReg x _ | .orReg x _ | .andReg x _ | .xorReg x _ | .rnd x _ | .ldVxDt x => r = x
  | .addReg x _ | .sub x _ | .subn x _ | .shr x _ | .shl x _ => r = x ∨ r = 15
  | .drw _ _ _ => r = 15
  | .ldVxK x => r = x ∧ ∃ k, k < 16 ∧ s.keys.getLsbD k = true
  | .ldLoad x => r.val ≤ x.val
  | .cls | .ret | .jp _ | .call _ | .seImm _ _ | .sneImm _ _ | .seReg _ _ | .sneReg _ _ | .ldI _ | .jpV0 _ | .skp _ | .sknp _
  | .ldDtVx _ | .ldStVx _ | .addI _ | .ldF _ | .ldB _ | .ldStore _ => False

/-- Instruction `i` stands in the raised-by column of R232. -/
def namedByFaults : Instr → Prop
  | .call _ | .ret | .skp _ | .sknp _ | .ldStore _ | .ldB _ | .ldLoad _ | .drw _ _ _ => True
  | .cls | .jp _ | .seImm _ _ | .sneImm _ _ | .seReg _ _ | .ldImm _ _ | .addImm _ _ | .ldReg _ _ | .orReg _ _ | .andReg _ _
  | .xorReg _ _ | .addReg _ _ | .sub _ _ | .shr _ _ | .subn _ _ | .shl _ _ | .sneReg _ _ | .ldI _ | .jpV0 _ | .rnd _ _ | .ldVxDt _
  | .ldVxK _ | .ldDtVx _ | .ldStVx _ | .addI _ | .ldF _ => False

/-- The number `b` is what cell `a` holds once `n` bytes, the `k`-th of value `value k`, are stored from `I` on in `s`: the stored
byte where one falls on the cell, the old byte where none does (R53, R55, R66). -/
def State.holdsAfterStore (s : State) (n : Nat) (value : Nat → Nat) (a b : Nat) : Prop :=
  (∀ k, k < n → (s.i.toNat + k) % 4096 = a → b = value k) ∧
  ((∀ k, k < n → (s.i.toNat + k) % 4096 ≠ a) → b = (s.byteAt a).toNat)

/-! Reset. -/

/-- Every row of the table of R37 but the keypad, and `invalid_opcode` 0 (log 7). -/
def State.holdsResetValues (s : State) : Prop :=
  (∀ r, s.reg r = 0) ∧
  (∀ a, a < 4096 → (a < 0x050 ∨ 0x0A0 ≤ a) → s.byteAt a = 0) ∧
  (∀ (d k : Nat) (_ : d < 16) (_ : k < 5), s.byteAt (0x050 + 5 * d + k) = s.params.font[d][k]) ∧
  s.pc = 0x200 ∧ s.i = 0 ∧ s.sp = 0 ∧ (∀ j (_ : j < 16), s.stack[j] = 0) ∧ s.dt = 0 ∧ s.st = 0 ∧
  (∀ px py, px < 64 → py < 32 → fbCell s.fb px py = false) ∧ s.currentInstruction = 0 ∧
  s.faultCause = .none ∧ s.faultPc = 0 ∧ s.faultWord = 0 ∧ s.faultInfo = 0 ∧ s.invalidOpcode = false

/-! Runs. -/

/-- The next `n` cycles from `s` run without a fault, and none of them fetches an instruction `bad` names. -/
def State.quiet (bad : Instr → Bool) : Nat → State → Prop
  | 0, s => s.running
  | n + 1, s =>
    s.running ∧ (∀ w i, s.fetch = .ok w → decodeWord s.params w = .ok i → bad i = false) ∧
    ∃ t, step s = .next t ∧ State.quiet bad n t

/-- Two states that differ at most in stack entries at or above the stack pointer. -/
def State.sameLiveStack (s t : State) : Prop :=
  t = { s with stack := t.stack } ∧ ∀ j (_ : j < 16), j < s.sp.val → t.stack[j] = s.stack[j]

end Sys2Proof.Machine
end

