-- ==== Sys2Proof/Certificates/Slice0/Obligations.lean ====
section
/-! DEFINITION. The statements for the provers. Every statement is about all states, so about every setting of the parameters of spec/00_scope.md R7 and every key level. Where a statement needs an invariant, it is a premise, and the invariant is a statement of its own. -/

open Sys2Proof Sys2Proof.Machine

/-! ## Encoding -/

/-- Decoding the word of an instruction a build has gives the instruction back, every operand at every value (R81 to R90).
The opcode numbers are the spec's reading (log 3); ignored bits are encoded as log 19 says. -/
def Obligations.DecodeOfEncodeIsIdentity : Prop :=
  ∀ (p : Params) (i : Instr), i.wellFormed p = true →
    decodeWord p (encode i) = .ok i ∧ decodeBytes p (encodeBytes i) = .ok (i, [])

/-- Words written out bit by bit from the patterns of R88 decode to their instruction. The numbers are the spec's reading (log 3). -/
def Obligations.DecodeWordsWrittenOut : Prop :=
  decodeWord Params.default 0b0000000011100000#16 = .ok .cls ∧
  decodeWord Params.default 0b0000000011101110#16 = .ok .ret ∧
  decodeWord Params.default 0b0001001000110100#16 = .ok (.jp 0x234) ∧
  decodeWord Params.default 0b0110101000101111#16 = .ok (.ldImm 10 0x2F) ∧
  decodeWord Params.default 0b1000000100100101#16 = .ok (.sub 1 2) ∧
  decodeWord Params.default 0b1100001100001111#16 = .ok (.rnd 3 0x0F) ∧
  decodeWord Params.default 0b1101000100100101#16 = .ok (.drw 1 2 5) ∧
  decodeWord Params.default 0b1110010010011110#16 = .ok (.skp 4) ∧
  decodeWord Params.default 0b1111001101010101#16 = .ok (.ldStore 3)

/-- The decode function of R90 read in unbounded arithmetic: for each row of R88, every word of the row gives the row's
instruction with the operands of R82, whatever its ignored bits hold (R84, R85, R86). Log 3. -/
def Obligations.DecodeReadsEveryRow : Prop :=
  ∀ (p : Params) (w : Word) (x y : Reg), x.val = w.toNat / 256 % 16 → y.val = w.toNat / 16 % 16 →
    let nnn : Addr12 := BitVec.ofNat 12 (w.toNat % 4096)
    let nn : Byte := BitVec.ofNat 8 (w.toNat % 256)
    let f := w.toNat / 4096
    let n := w.toNat % 16
    let lo := w.toNat % 256
    (f = 0 → n = 0 → decodeWord p w = .ok .cls) ∧
    (f = 0 → n = 14 → decodeWord p w = .ok .ret) ∧
    (f = 1 → decodeWord p w = .ok (.jp nnn)) ∧
    (f = 2 → decodeWord p w = .ok (.call nnn)) ∧
    (f = 3 → decodeWord p w = .ok (.seImm x nn)) ∧
    (f = 4 → decodeWord p w = .ok (.sneImm x nn)) ∧
    (f = 5 → decodeWord p w = .ok (.seReg x y)) ∧
    (f = 6 → decodeWord p w = .ok (.ldImm x nn)) ∧
    (f = 7 → decodeWord p w = .ok (.addImm x nn)) ∧
    (f = 8 → n = 0 → decodeWord p w = .ok (.ldReg x y)) ∧
    (f = 8 → n = 1 → decodeWord p w = .ok (.orReg x y)) ∧
    (f = 8 → n = 2 → decodeWord p w = .ok (.andReg x y)) ∧
    (f = 8 → n = 3 → decodeWord p w = .ok (.xorReg x y)) ∧
    (f = 8 → n = 4 → decodeWord p w = .ok (.addReg x y)) ∧
    (f = 8 → n = 5 → decodeWord p w = .ok (.sub x y)) ∧
    (f = 8 → n = 6 → decodeWord p w = .ok (.shr x y)) ∧
    (f = 8 → n = 7 → p.hasSubn = true → decodeWord p w = .ok (.subn x y)) ∧
    (f = 8 → n = 14 → decodeWord p w = .ok (.shl x y)) ∧
    (f = 9 → decodeWord p w = .ok (.sneReg x y)) ∧
    (f = 10 → decodeWord p w = .ok (.ldI nnn)) ∧
    (f = 11 → decodeWord p w = .ok (.jpV0 nnn)) ∧
    (f = 12 → decodeWord p w = .ok (.rnd x nn)) ∧
    (f = 13 → decodeWord p w = .ok (.drw x y (BitVec.ofNat 4 n))) ∧
    (f = 14 → n = 14 → decodeWord p w = .ok (.skp x)) ∧
    (f = 14 → n = 1 → decodeWord p w = .ok (.sknp x)) ∧
    (f = 15 → lo = 0x07 → decodeWord p w = .ok (.ldVxDt x)) ∧
    (f = 15 → lo = 0x0A → decodeWord p w = .ok (.ldVxK x)) ∧
    (f = 15 → lo = 0x15 → decodeWord p w = .ok (.ldDtVx x)) ∧
    (f = 15 → lo = 0x18 → decodeWord p w = .ok (.ldStVx x)) ∧
    (f = 15 → lo = 0x1E → decodeWord p w = .ok (.addI x)) ∧
    (f = 15 → lo = 0x29 → decodeWord p w = .ok (.ldF x)) ∧
    (f = 15 → lo = 0x33 → decodeWord p w = .ok (.ldB x)) ∧
    (f = 15 → lo = 0x55 → decodeWord p w = .ok (.ldStore x)) ∧
    (f = 15 → lo = 0x65 → decodeWord p w = .ok (.ldLoad x))

/-- The invalid words are exactly those of the table of R87, and the decoder gives only instructions the build has (log 3). -/
def Obligations.InvalidWordsAreExactlyTheTable : Prop :=
  ∀ (p : Params) (w : Word),
    let f := w.toNat / 4096
    let n := w.toNat % 16
    let lo := w.toNat % 256
    ((∃ r, decodeWord p w = .error r) ↔
      (f = 0 ∧ n ≠ 0 ∧ n ≠ 14) ∨
      (f = 8 ∧ (n ∈ [8, 9, 10, 11, 12, 13, 15] ∨ (n = 7 ∧ p.hasSubn = false))) ∨
      (f = 14 ∧ n ≠ 1 ∧ n ≠ 14) ∨
      (f = 15 ∧ lo ∉ [0x07, 0x0A, 0x15, 0x18, 0x1E, 0x29, 0x33, 0x55, 0x65])) ∧
    (∀ i, decodeWord p w = .ok i → i.wellFormed p = true)

/-! ## Control flow -/

/-- JP and JP V0 load `pc` and change nothing else (R113, R220). -/
def Obligations.JumpsLoadThePc : Prop :=
  ∀ (nnn : Addr12) (s : State),
    (∃ t, exec (.jp nnn) s = .next t ∧ t.pc.toNat = nnn.toNat ∧ framePc s t) ∧
    (∃ t, exec (.jpV0 nnn) s = .next t ∧ t.pc.toNat = (s.reg 0).toNat + nnn.toNat ∧ framePc s t)

/-- CALL with room on the stack (R114, R111): the entry at `sp` takes the pre-incremented `pc`, `sp` goes up by one (to 0 from
15 under `wrap`), `pc` is the target. The two settings of STACK_POLICY are the spec's decision D5 (log 2). -/
def Obligations.CallPushesReturnAddress : Prop :=
  ∀ (nnn : Addr12) (s : State) (h : s.sp.val < 16),
    ∃ t, exec (.call nnn) s = .next t ∧
      t.pc.toNat = nnn.toNat ∧ t.stack[s.sp.val] = s.pc ∧
      (s.params.stackPolicy = .fault → t.sp.val = s.sp.val + 1) ∧
      (s.params.stackPolicy = .wrap → t.sp.val = (s.sp.val + 1) % 16) ∧
      frameStack s.sp.val s t

/-- RET with an entry to pop (R115, R112): `pc` is the entry below `sp` (the 15th under `wrap` from 0), `sp` goes down by one,
the entry is not cleared. The two settings of STACK_POLICY are the spec's decision D5 (log 2). -/
def Obligations.RetPopsReturnAddress : Prop :=
  ∀ (s : State),
    (s.params.stackPolicy = .fault → ∀ h : s.sp.val ≠ 0,
      ∃ t, exec .ret s = .next t ∧ t.pc = s.stack[s.sp.val - 1] ∧ t.sp.val = s.sp.val - 1 ∧
        t.stack = s.stack ∧ frameStack 16 s t) ∧
    (s.params.stackPolicy = .wrap → s.sp.val < 16 →
      ∃ t, exec .ret s = .next t ∧
        (t.pc = if s.sp.val = 0 then s.stack[15] else s.stack[(s.sp.val - 1) % 16]'(Nat.mod_lt _ (by decide))) ∧
        t.sp.val = (s.sp.val + 15) % 16 ∧ t.stack = s.stack ∧ frameStack 16 s t)

/-- The stack faults of R111, R112, R234, entered as R238 says: CALL at 16 entries, RET at none. Decisions D5, D7, D8 (log 2,
log 12). -/
def Obligations.StackFaultsAreTaken : Prop :=
  ∀ (nnn : Addr12) (s : State), s.params.stackPolicy = .fault →
    (s.sp.val = 16 → exec (.call nnn) s = .next (faultEntry .stackOverflow 16 s)) ∧
    (s.sp.val = 0 → exec .ret s = .next (faultEntry .stackUnderflow 0 s))

/-- A call, then a return: `pc` is the instruction after the call and `sp` is as before, under both stack policies (R114, W8). -/
def Obligations.CallThenReturnRestoresPc : Prop :=
  ∀ (nnn : Addr12) (s : State) (u : State), s.sp.val < 16 → exec (.call nnn) s = .next u →
    ∀ (pc : Word), ∃ t, exec .ret { u with pc := pc } = .next t ∧
      t.pc = s.pc ∧ t.sp = s.sp ∧ t.v = s.v ∧ t.memory = s.memory ∧ t.i = s.i

/-- The register skips on the handler's side (R110, R116 to R119): `pc` moves by 2 exactly when the condition holds, and nothing
else changes. -/
def Obligations.RegisterSkipsMoveOnlyPc : Prop :=
  ∀ (x y : Reg) (nn : Byte) (s : State),
    (∃ t, exec (.seImm x nn) s = .next t ∧
      (t.pc = if (s.reg x).toNat = nn.toNat then s.pc + 2 else s.pc) ∧ framePc s t) ∧
    (∃ t, exec (.sneImm x nn) s = .next t ∧
      (t.pc = if (s.reg x).toNat = nn.toNat then s.pc else s.pc + 2) ∧ framePc s t) ∧
    (∃ t, exec (.seReg x y) s = .next t ∧
      (t.pc = if (s.reg x).toNat = (s.reg y).toNat then s.pc + 2 else s.pc) ∧ framePc s t) ∧
    (∃ t, exec (.sneReg x y) s = .next t ∧
      (t.pc = if (s.reg x).toNat = (s.reg y).toNat then s.pc else s.pc + 2) ∧ framePc s t)

/-- The skip rule R110 over whole cycles: for each of the six conditional skips, the cycle leaves `pc` at the instruction's
address + 4 when the condition holds and + 2 otherwise, modulo 2^16, whatever the skipped word is: apart from the latched word,
the timers, the inputs and `invalid_opcode`, nothing else changes. A key number of 16 or more is read modulo 16 under `mask` by
decision D4 (log 2); the key levels are those `takeInputs` leaves, the model's form of the inputs (log 9). -/
def Obligations.SkipAdvancesByFourOrTwo : Prop :=
  ∀ (s : State) (w : Word) (i : Instr) (holds : Bool), s.running → s.fetch = .ok w → decodeWord s.params w = .ok i →
    (∃ (x y : Reg) (nn : Byte),
      (i = .seImm x nn ∧ (holds = true ↔ s.reg x = nn)) ∨
      (i = .sneImm x nn ∧ (holds = true ↔ s.reg x ≠ nn)) ∨
      (i = .seReg x y ∧ (holds = true ↔ s.reg x = s.reg y)) ∨
      (i = .sneReg x y ∧ (holds = true ↔ s.reg x ≠ s.reg y)) ∨
      (i = .skp x ∧ ((s.reg x).toNat < 16 ∨ s.params.oobPolicy = .mask) ∧
        holds = s.takeInputs.keys.getLsbD ((s.reg x).toNat % 16)) ∨
      (i = .sknp x ∧ ((s.reg x).toNat < 16 ∨ s.params.oobPolicy = .mask) ∧
        holds = !s.takeInputs.keys.getLsbD ((s.reg x).toNat % 16))) →
    ∃ t, step s = .next t ∧
      (t.pc = if holds then s.pc + 4 else s.pc + 2) ∧
      t = { handlerState w s with pc := t.pc, dt := t.dt, st := t.st }

/-! ## Data movement -/

/-- LD Vx,byte and LD Vx,Vy (R130, R131). -/
def Obligations.RegisterLoadsWriteOneRegister : Prop :=
  ∀ (x y : Reg) (nn : Byte) (s : State),
    (∃ t, exec (.ldImm x nn) s = .next t ∧ t.reg x = nn ∧ frameRegs [x] s t) ∧
    (∃ t, exec (.ldReg x y) s = .next t ∧ t.reg x = s.reg y ∧ frameRegs [x] s t)

/-- The register file of R20: a write is read back from its register and from no other, for every register; no register is
hardwired or aliased. -/
def Obligations.RegisterFileHasNoAlias : Prop :=
  ∀ (s : State) (x y : Reg) (b : Byte),
    (s.setReg x b).reg x = b ∧ (y ≠ x → (s.setReg x b).reg y = s.reg y) ∧
    ∃ t, exec (.ldImm x b) s = .next t ∧ ∃ u, exec (.ldReg y x) t = .next u ∧ u.reg y = b ∧
      ∀ z, z ≠ x → z ≠ y → u.reg z = s.reg z

/-- LD [I],Vx where every address is reached (R132): `V0..VX` go to `I..I+X` (modulo 4096 under `mask`), every other byte is as
before, `I` is as LDST_I says (decision D15, log 2). -/
def Obligations.StoreRangeWritesExactlyItsBytes : Prop :=
  ∀ (x : Reg) (s : State), s.memoryCanonical → (∀ k, k ≤ x.val → s.reaches (s.i.toNat + k)) →
    ∃ t, exec (.ldStore x) s = .next t ∧
      (∀ r : Reg, r.val ≤ x.val → t.byteAt ((s.i.toNat + r.val) % 4096) = s.reg r) ∧
      (s.params.ldstI = .unchanged → t.i = s.i) ∧
      (s.params.ldstI = .increment → t.i.toNat = (s.i.toNat + x.val + 1) % 65536) ∧
      frameStore (fun a => ∃ k, k ≤ x.val ∧ a = (s.i.toNat + k) % 4096) s t

/-- LD Vx,[I] where every address is reached (R133): `V0..VX` are the bytes at `I..I+X` (modulo 4096 under `mask`), the other
registers are as before, `I` is as LDST_I says (decision D15, log 2). -/
def Obligations.LoadRangeReadsExactlyItsBytes : Prop :=
  ∀ (x : Reg) (s : State), (∀ k, k ≤ x.val → s.reaches (s.i.toNat + k)) →
    ∃ t, exec (.ldLoad x) s = .next t ∧
      (∀ r : Reg, r.val ≤ x.val → t.reg r = s.byteAt ((s.i.toNat + r.val) % 4096)) ∧
      (∀ r : Reg, x.val < r.val → t.reg r = s.reg r) ∧
      (s.params.ldstI = .unchanged → t.i = s.i) ∧
      (s.params.ldstI = .increment → t.i.toNat = (s.i.toNat + x.val + 1) % 65536) ∧
      (∀ a, t.byteAt a = s.byteAt a) ∧ t = { s with v := t.v, i := t.i }

/-- LD B,Vx where `I`, `I+1`, `I+2` are reached (R165): the three decimal digits of `V[X]`, every other byte as before, `I`
unchanged. -/
def Obligations.BcdStoresThreeDigits : Prop :=
  ∀ (x : Reg) (s : State), s.memoryCanonical → (∀ k, k ≤ 2 → s.reaches (s.i.toNat + k)) →
    ∃ t, exec (.ldB x) s = .next t ∧
      (t.byteAt (s.i.toNat % 4096)).toNat = (s.reg x).toNat / 100 ∧
      (t.byteAt ((s.i.toNat + 1) % 4096)).toNat = (s.reg x).toNat / 10 % 10 ∧
      (t.byteAt ((s.i.toNat + 2) % 4096)).toNat = (s.reg x).toNat % 10 ∧
      t.i = s.i ∧
      frameStore (fun a => ∃ k, k ≤ 2 ∧ a = (s.i.toNat + k) % 4096) s t

/-- The BCD law of R166 on the stored bytes: they are digits, and they rebuild the register's value. -/
def Obligations.BcdDigitsRebuildTheValue : Prop :=
  ∀ (x : Reg) (s t : State), s.memoryCanonical → (∀ k, k ≤ 2 → s.reaches (s.i.toNat + k)) →
    exec (.ldB x) s = .next t →
    let h := (t.byteAt (s.i.toNat % 4096)).toNat
    let e := (t.byteAt ((s.i.toNat + 1) % 4096)).toNat
    let o := (t.byteAt ((s.i.toNat + 2) % 4096)).toNat
    100 * h + 10 * e + o = (s.reg x).toNat ∧ h ≤ 2 ∧ e ≤ 9 ∧ o ≤ 9

/-- The memory faults of the register ranges and of LD B under OOB_POLICY = fault (R132, R133, R165, R232): taken exactly as
R238 says, with the first address out of range, nothing written. Decisions D4, D7, D8 (log 2, log 12). -/
def Obligations.DataAccessFaultsAreTaken : Prop :=
  ∀ (x : Reg) (s : State), s.params.oobPolicy = .fault →
    (4096 ≤ s.i.toNat + x.val →
      exec (.ldStore x) s = .next (faultEntry .writeOob (firstOutOfRange s.i.toNat) s) ∧
      exec (.ldLoad x) s = .next (faultEntry .readOob (firstOutOfRange s.i.toNat) s)) ∧
    (4096 ≤ s.i.toNat + 2 → exec (.ldB x) s = .next (faultEntry .writeOob (firstOutOfRange s.i.toNat) s))

/-! ## Arithmetic, logic, random -/

/-- ADD Vx,byte (R141) in unbounded arithmetic: modulo 256, no flag: VF is as before unless X = 15. -/
def Obligations.AddImmediateWrapsWithoutFlag : Prop :=
  ∀ (x : Reg) (nn : Byte) (s : State),
    ∃ t, exec (.addImm x nn) s = .next t ∧
      (t.reg x).toNat = ((s.reg x).toNat + nn.toNat) % 256 ∧ frameRegs [x] s t

/-- ADD, SUB and SUBN between registers (R142, R143, R144) in unbounded arithmetic, with the flag order of R140: for X ≠ 15 the
result and the flag; for X = 15 VF is the flag under `flag_last` and the result under `result_last`. SUBN and FLAG_ORDER are the
spec's decisions D11 and D13 (log 20, log 27). -/
def Obligations.AddSubResultAndFlag : Prop :=
  ∀ (x y : Reg) (s : State),
    let vx := (s.reg x).toNat
    let vy := (s.reg y).toNat
    let writes := fun (i : Instr) (result flag : Nat) =>
      ∃ t, exec i s = .next t ∧ frameRegs [x, 15] s t ∧
        (x ≠ 15 → (t.reg x).toNat = result ∧ (t.reg 15).toNat = flag) ∧
        (x = 15 → s.params.flagOrder = .flagLast → (t.reg 15).toNat = flag) ∧
        (x = 15 → s.params.flagOrder = .resultLast → (t.reg 15).toNat = result)
    writes (.addReg x y) ((vx + vy) % 256) (if vx + vy > 255 then 1 else 0) ∧
    writes (.sub x y) ((vx + 256 - vy) % 256) (if vx > vy then 1 else 0) ∧
    writes (.subn x y) ((vy + 256 - vx) % 256) (if vy > vx then 1 else 0)

/-- SHR and SHL (R148, R149) in unbounded arithmetic, source per SHIFT_SOURCE (decision D12, log 2), flag order as above. -/
def Obligations.ShiftResultAndFlag : Prop :=
  ∀ (x y : Reg) (s : State),
    let src := if s.params.shiftSource = .vx then (s.reg x).toNat else (s.reg y).toNat
    let writes := fun (i : Instr) (result flag : Nat) =>
      ∃ t, exec i s = .next t ∧ frameRegs [x, 15] s t ∧
        (x ≠ 15 → (t.reg x).toNat = result ∧ (t.reg 15).toNat = flag) ∧
        (x = 15 → s.params.flagOrder = .flagLast → (t.reg 15).toNat = flag) ∧
        (x = 15 → s.params.flagOrder = .resultLast → (t.reg 15).toNat = result)
    writes (.shr x y) (src / 2) (src % 2) ∧
    writes (.shl x y) (src * 2 % 256) (src / 128)

/-- OR, AND, XOR (R145 to R147) bit by bit; VF is as before unless X = 15 (decision D14, log 21). -/
def Obligations.LogicWorksBitByBit : Prop :=
  ∀ (x y : Reg) (s : State),
    (∃ t, exec (.orReg x y) s = .next t ∧ frameRegs [x] s t ∧
      ∀ k, k < 8 → ((t.reg x).getLsbD k = ((s.reg x).getLsbD k || (s.reg y).getLsbD k))) ∧
    (∃ t, exec (.andReg x y) s = .next t ∧ frameRegs [x] s t ∧
      ∀ k, k < 8 → ((t.reg x).getLsbD k = ((s.reg x).getLsbD k && (s.reg y).getLsbD k))) ∧
    (∃ t, exec (.xorReg x y) s = .next t ∧ frameRegs [x] s t ∧
      ∀ k, k < 8 → ((t.reg x).getLsbD k = ((s.reg x).getLsbD k != (s.reg y).getLsbD k)))

/-- RND (R160, R161): the register is the free draw under the mask, so bits outside the mask are 0, whatever the draw is; the next
RND takes the next draw. The form of the free value is the model's (log 8). -/
def Obligations.RandomByteIsMasked : Prop :=
  ∀ (x : Reg) (nn : Byte) (s : State),
    ∃ t, exec (.rnd x nn) s = .next t ∧
      t.reg x = Config.randomDraw s.draws &&& nn ∧
      (∀ k, nn.getLsbD k = false → (t.reg x).getLsbD k = false) ∧
      (∀ r, r ≠ x → t.reg r = s.reg r) ∧ (∀ a, t.byteAt a = s.byteAt a) ∧
      t = { s with v := t.v, draws := s.draws + 1 }

/-- VF as R21 says: each of the six flag producers, when it does not fault, leaves VF 0 or 1 (but for X = 15 under `result_last`,
where the named destination is written last); any other instruction changes VF only as its named destination or in the register
range of LD Vx,[I]. -/
def Obligations.FlagRegisterChangesOnlyAsNamed : Prop :=
  ∀ (i : Instr) (s t : State), s.running → exec i s = .next t → t.running →
    match i with
    | .addReg x _ | .sub x _ | .subn x _ | .shr x _ | .shl x _ =>
      (x ≠ 15 ∨ s.params.flagOrder = .flagLast) → t.reg 15 = 0 ∨ t.reg 15 = 1
    | .drw _ _ _ => t.reg 15 = 0 ∨ t.reg 15 = 1
    | .ldImm x _ | .addImm x _ | .ldReg x _ | .orReg x _ | .andReg x _ | .xorReg x _ | .rnd x _ | .ldVxDt x | .ldVxK x =>
      x ≠ 15 → t.reg 15 = s.reg 15
    | .ldLoad x => x ≠ 15 → t.reg 15 = s.reg 15
    | .cls | .ret | .jp _ | .call _ | .seImm _ _ | .sneImm _ _ | .seReg _ _ | .sneReg _ _ | .ldI _ | .jpV0 _ | .skp _
    | .sknp _ | .ldDtVx _ | .ldStVx _ | .addI _ | .ldF _ | .ldB _ | .ldStore _ => t.reg 15 = s.reg 15

/-! ## Graphics -/

/-- CLS (R170): every cell off, nothing else changes, VF included. -/
def Obligations.ClearTurnsEveryCellOff : Prop :=
  ∀ (s : State), ∃ t, exec .cls s = .next t ∧
    (∀ px py, px < 64 → py < 32 → fbCell t.fb px py = false) ∧
    (∀ r, t.reg r = s.reg r) ∧ (∀ a, t.byteAt a = s.byteAt a) ∧ t = { s with fb := t.fb }

/-- DRW cell by cell (R171, R172, R173) where every row is reached and, under SPRITE_EDGE = fault, no set bit is past the edge: a
cell is flipped exactly when the sprite has a set bit over it, VF is 1 exactly when a cell that was on is flipped, nothing else
changes. Bit order and clipping are the spec's decisions D18 and D6 (log 5, log 2). -/
def Obligations.DrawFlipsExactlyTheSpriteCells : Prop :=
  ∀ (x y : Reg) (n : Nibble) (s : State),
    let x0 := (s.reg x).toNat % 64
    let y0 := (s.reg y).toNat % 32
    let covers := s.spriteCovers x0 y0 n.toNat
    (∀ row, row < n.toNat → s.reaches (s.i.toNat + row)) →
    (s.params.spriteEdge = .fault → ∀ px py, offScreen px py → covers px py = false) →
    ∃ t, exec (.drw x y n) s = .next t ∧
      (∀ px py, px < 64 → py < 32 → (fbCell t.fb px py = (fbCell s.fb px py != covers px py))) ∧
      (t.reg 15 = 0 ∨ t.reg 15 = 1) ∧
      (t.reg 15 = 1 ↔ ∃ px py, px < 64 ∧ py < 32 ∧ covers px py = true ∧ fbCell s.fb px py = true) ∧
      (∀ r, r ≠ 15 → t.reg r = s.reg r) ∧ (∀ a, t.byteAt a = s.byteAt a) ∧
      t = { s with v := t.v, fb := t.fb }

/-- DRW with N = 0 draws nothing and sets VF = 0 (R171). -/
def Obligations.DrawOfNoRowsOnlyClearsFlag : Prop :=
  ∀ (x y : Reg) (s : State), ∃ t, exec (.drw x y 0) s = .next t ∧ t.fb = s.fb ∧ t.reg 15 = 0 ∧ frameRegs [15] s t

/-- The faults of DRW in the order of R171 and R240: READ_OOB for the first row not reached when no earlier set bit is past the
edge (or the bits are clipped), SPRITE_EDGE for the first set bit past the edge in row-major order when every row up to its own
is reached. Nothing is drawn. Decisions D4, D6, D7, D28, D30 (log 2, log 12, log 25). -/
def Obligations.DrawFaultsInRowMajorOrder : Prop :=
  ∀ (x y : Reg) (n : Nibble) (s : State),
    let x0 := (s.reg x).toNat % 64
    let y0 := (s.reg y).toNat % 32
    let covers := s.spriteCovers x0 y0 n.toNat
    (∀ row, row < n.toNat → s.params.oobPolicy = .fault → 4096 ≤ s.i.toNat + row →
      (∀ k, k < row → s.i.toNat + k < 4096) →
      (s.params.spriteEdge = .fault → ∀ px py, py < y0 + row → offScreen px py → covers px py = false) →
      exec (.drw x y n) s = .next (faultEntry .readOob (s.i.toNat + row) s)) ∧
    (∀ px py, s.params.spriteEdge = .fault → offScreen px py → covers px py = true →
      (∀ k, y0 + k ≤ py → s.reaches (s.i.toNat + k)) →
      (∀ qx qy, offScreen qx qy → covers qx qy = true → py < qy ∨ (qy = py ∧ px ≤ qx)) →
      exec (.drw x y n) s = .next (faultEntry .spriteEdge (256 * py + px) s))

/-- The XOR law of R174: a second DRW with the same sprite bytes, `I` and origin restores every framebuffer cell, and its VF is 1
exactly when the first turned a cell on. -/
def Obligations.DrawingTwiceRestoresTheScreen : Prop :=
  ∀ (x y x' y' : Reg) (n : Nibble) (s t s' t' : State), s.running → s'.running →
    exec (.drw x y n) s = .next t → t.running →
    s'.fb = t.fb → s'.i = s.i → s'.params = s.params →
    (∀ k, k < n.toNat → s'.byteAt ((s.i.toNat + k) % 4096) = s.byteAt ((s.i.toNat + k) % 4096)) →
    (s'.reg x').toNat % 64 = (s.reg x).toNat % 64 → (s'.reg y').toNat % 32 = (s.reg y).toNat % 32 →
    exec (.drw x' y' n) s' = .next t' →
    t'.running ∧ t'.fb = s.fb ∧
    (t'.reg 15 = 1 ↔ ∃ px py, px < 64 ∧ py < 32 ∧ fbCell s.fb px py = false ∧ fbCell t.fb px py = true)

/-! ## Input, timers, index -/

/-- SKP and SKNP (R191, R192) where the key number is in range, or OOB_POLICY is `mask` (number modulo 16), and the key fault
of R190, R235 otherwise, entered as R238 and R232 say. Decisions D4, D7, D8 (log 2, log 12). -/
def Obligations.KeySkipsReadOneKey : Prop :=
  ∀ (x : Reg) (s : State),
    let k := (s.reg x).toNat
    (k < 16 ∨ s.params.oobPolicy = .mask →
      (∃ t, exec (.skp x) s = .next t ∧ (t.pc = if s.keys.getLsbD (k % 16) then s.pc + 2 else s.pc) ∧ framePc s t) ∧
      (∃ t, exec (.sknp x) s = .next t ∧ (t.pc = if s.keys.getLsbD (k % 16) then s.pc else s.pc + 2) ∧ framePc s t)) ∧
    (16 ≤ k → s.params.oobPolicy = .fault →
      exec (.skp x) s = .next (faultEntry .keyOob k s) ∧ exec (.sknp x) s = .next (faultEntry .keyOob k s))

/-- LD Vx,K (R193): with keys pressed the register takes the lowest of them and `pc` stays; with none `pc` goes back by 2 and
nothing else changes. -/
def Obligations.KeyWaitTakesLowestKeyOrRewinds : Prop :=
  ∀ (x : Reg) (s : State),
    (∀ k, k < 16 → s.keys.getLsbD k = true → (∀ j, j < k → s.keys.getLsbD j = false) →
      ∃ t, exec (.ldVxK x) s = .next t ∧ (t.reg x).toNat = k ∧ frameRegs [x] s t) ∧
    ((∀ k, k < 16 → s.keys.getLsbD k = false) →
      ∃ t, exec (.ldVxK x) s = .next t ∧ t.pc = s.pc - 2 ∧ framePc s t)

/-- The stall of R193 and R286 over a whole cycle: a running CORE that fetches LD Vx,K with no key pressed ends the cycle at the
same `pc`, and the timers have counted. -/
def Obligations.KeyWaitStallsTheProgramNotTheTimers : Prop :=
  ∀ (s : State) (w : Word) (x : Reg), s.running → s.fetch = .ok w → decodeWord s.params w = .ok (.ldVxK x) →
    (∀ k, k < 16 → s.takeInputs.keys.getLsbD k = false) →
    ∃ t, step s = .next t ∧ t.pc = s.pc ∧ t.v = s.v ∧ t.dt.toNat = s.dt.toNat - 1 ∧ t.st.toNat = s.st.toNat - 1 ∧
      t = { handlerState w s with pc := s.pc, dt := t.dt, st := t.st }

/-- The timer transfers (R200 to R202): the handler's part, before the countdown of the same cycle. -/
def Obligations.TimerTransfersCopyWhole : Prop :=
  ∀ (x : Reg) (s : State),
    (∃ t, exec (.ldVxDt x) s = .next t ∧ t.reg x = s.dt ∧ frameRegs [x] s t) ∧
    (∃ t, exec (.ldDtVx x) s = .next t ∧ t.dt = s.reg x ∧ (∀ r, t.reg r = s.reg r) ∧
      (∀ a, t.byteAt a = s.byteAt a) ∧ t = { s with dt := t.dt }) ∧
    (∃ t, exec (.ldStVx x) s = .next t ∧ t.st = s.reg x ∧ (∀ r, t.reg r = s.reg r) ∧
      (∀ a, t.byteAt a = s.byteAt a) ∧ t = { s with st := t.st })

/-- The index register (R210, R211, R212) in unbounded arithmetic: no flag, no fault, no other change. The wrap of ADD I is the
spec's decision D22, FONT_DIGIT its D16 (log 23, log 2). -/
def Obligations.IndexWritesChangeOnlyIndex : Prop :=
  ∀ (nnn : Addr12) (x : Reg) (s : State),
    (∃ t, exec (.ldI nnn) s = .next t ∧ t.i.toNat = nnn.toNat ∧ frameIndex s t) ∧
    (∃ t, exec (.addI x) s = .next t ∧ t.i.toNat = (s.i.toNat + (s.reg x).toNat) % 65536 ∧ frameIndex s t) ∧
    (∃ t, exec (.ldF x) s = .next t ∧ frameIndex s t ∧
      (s.params.fontDigit = .full → t.i.toNat = 0x050 + 5 * (s.reg x).toNat) ∧
      (s.params.fontDigit = .lowNibble → t.i.toNat = 0x050 + 5 * ((s.reg x).toNat % 16)))

/-! ## The cycle -/

/-- A step runs the decoded instruction (R95, R96): a running CORE whose bytes at `pc` decode to `i` steps to what `exec i`
answers in the handler's state (word latched, `pc` + 2, inputs taken, `invalid_opcode` 0), with the timers counted unless the
handler faulted. -/
def Obligations.StepRunsTheDecodedInstruction : Prop :=
  ∀ (s : State) (w : Word) (i : Instr), s.running → s.fetch = .ok w → decodeWord s.params w = .ok i →
    ∃ t, exec i (handlerState w s) = .next t ∧ step s = .next t.endCycle

/-- The fetch is big-endian (R54, R56): in range, the byte at `pc` is the high one; under `mask` both addresses are taken modulo
4096. The range policy is the spec's decision D4 (log 2). -/
def Obligations.FetchIsBigEndian : Prop :=
  ∀ (s : State), s.reaches s.pc.toNat → s.reaches (s.pc.toNat + 1) →
    ∃ w, s.fetch = .ok w ∧
      w.toNat = 256 * (s.byteAt (s.pc.toNat % 4096)).toNat + (s.byteAt ((s.pc.toNat + 1) % 4096)).toNat

/-- A fetch that is out of range under OOB_POLICY = fault (R56, R232, R238): FETCH_OOB with the first address out of range,
`fault_word` 0, `pc` and `current_instruction` as before, the timers not counted. Decisions D4, D7, D8 (log 2, log 12). -/
def Obligations.FetchOutOfRangeFaults : Prop :=
  ∀ (s : State), s.running → s.params.oobPolicy = .fault → 4095 ≤ s.pc.toNat →
    step s = .next { s.takeInputs with
      invalidOpcode := false
      faultCause := .fetchOob
      faultPc := s.pc
      faultWord := 0
      faultInfo := BitVec.ofNat 17 (firstOutOfRange s.pc.toNat) }

/-- An invalid word (R237, C2): the cycle moves `pc` by 2, latches the word, counts the timers, and changes nothing else; it reports
`invalid_opcode` with the word and the address of the instruction (decision D9, log 22). -/
def Obligations.InvalidOpcodeIsANoOp : Prop :=
  ∀ (s : State) (w : Word) (r : Reject), s.running → s.fetch = .ok w → decodeWord s.params w = .error r →
    ∃ t, step s = .next t ∧ t.invalidOpcode = true ∧ t.pc = s.pc + 2 ∧ t.outputs.invalidReport = some (w, s.pc) ∧
      t.dt.toNat = s.dt.toNat - 1 ∧ t.st.toNat = s.st.toNat - 1 ∧
      t = { handlerState w s with invalidOpcode := true, dt := t.dt, st := t.st }

/-- Every fault is precise (R238): when a running CORE's cycle ends halted, all Machine State is as at the start of the cycle, and
only the fault status, `current_instruction` (for a handler's fault the fetched word), `invalid_opcode`, the inputs and the
boot phase differ. Decision D7 (log 12). -/
def Obligations.EveryFaultIsPrecise : Prop :=
  ∀ (s t : State), s.running → step s = .next t → t.faultCause ≠ .none →
    t = { s.takeInputs with
      currentInstruction := t.currentInstruction
      invalidOpcode := false
      faultCause := t.faultCause
      faultPc := s.pc
      faultWord := t.faultWord
      faultInfo := t.faultInfo } ∧
    ((t.faultCause = .fetchOob ∧ t.faultWord = 0 ∧ t.currentInstruction = s.currentInstruction) ∨
     (t.faultCause ≠ .fetchOob ∧ s.fetch = .ok t.faultWord ∧ t.currentInstruction = t.faultWord))

/-- Which cycle raises which cause (the third column of R232): the word of the faulting cycle decodes to an instruction of the
cause's row. Decision D8 (log 12). -/
def Obligations.FaultCausesComeFromTheirInstructions : Prop :=
  ∀ (s t : State) (w : Word) (i : Instr), s.running → s.fetch = .ok w → decodeWord s.params w = .ok i → step s = .next t →
    match t.faultCause with
    | .none => True
    | .fetchOob => False
    | .readOob => (∃ x y n, i = .drw x y n) ∨ ∃ x, i = .ldLoad x
    | .writeOob => (∃ x, i = .ldStore x) ∨ ∃ x, i = .ldB x
    | .stackOverflow => ∃ nnn, i = .call nnn
    | .stackUnderflow => i = .ret
    | .keyOob => (∃ x, i = .skp x) ∨ ∃ x, i = .sknp x
    | .spriteEdge => ∃ x y n, i = .drw x y n

/-- A halted CORE (R239): however many cycles are triggered, no state changes. Decision D7 (log 13). -/
def Obligations.HaltedCoreChangesNothing : Prop :=
  ∀ (n : Nat) (s : State), s.faultCause ≠ .none → s.faultStatusCoherent → Sys2Proof.core.run n s = .next s

/-- Under the settings `mask`, `wrap` and `clip` no fault exists (R231): a running CORE runs on, whatever it fetches. -/
def Obligations.PermissiveSettingsNeverFault : Prop :=
  ∀ (s : State), s.running → s.params.oobPolicy = .mask → s.params.stackPolicy = .wrap → s.params.spriteEdge = .clip →
    ∃ t, step s = .next t ∧ t.running ∧ t.params = s.params

/-- The model is total: whatever the instruction and the state, `exec` and `step` answer a next state, never a fault or a refusal of
the model. The entry of a fault (R238) and a cycle of a halted CORE (R239) are next states too (log 12, log 13). -/
def Obligations.EveryInstructionAndCycleAnswersNext : Prop :=
  (∀ (i : Instr) (s : State), ∃ t, exec i s = .next t) ∧ (∀ (s : State), ∃ t, step s = .next t)

/-- The timers (R245): in a cycle that does not fault each counts down by one and stops at 0, on its own; a cycle whose instruction
writes a timer counts the written value; after `n` cycles that do not fault and do not rewrite it a timer is `n` lower, and 0 at
the least; a halted CORE does not count. -/
def Obligations.TimersCountEveryCycle : Prop :=
  (∀ (s t : State), s.running → step s = .next t → t.running →
    (∀ w x, s.fetch = .ok w → decodeWord s.params w = .ok (.ldDtVx x) → t.dt.toNat = (s.reg x).toNat - 1) ∧
    ((∀ w x, s.fetch = .ok w → decodeWord s.params w ≠ .ok (.ldDtVx x)) → t.dt.toNat = s.dt.toNat - 1) ∧
    (∀ w x, s.fetch = .ok w → decodeWord s.params w = .ok (.ldStVx x) → t.st.toNat = (s.reg x).toNat - 1) ∧
    ((∀ w x, s.fetch = .ok w → decodeWord s.params w ≠ .ok (.ldStVx x)) → t.st.toNat = s.st.toNat - 1)) ∧
  (∀ (n : Nat) (s t : State), Sys2Proof.core.run n s = .next t →
    (s.quiet (fun i => match i with | .ldDtVx _ => true | _ => false) n → t.dt.toNat = s.dt.toNat - n) ∧
    (s.quiet (fun i => match i with | .ldStVx _ => true | _ => false) n → t.st.toNat = s.st.toNat - n)) ∧
  (∀ (s t : State), step s = .next t → t.faultCause ≠ .none → t.dt = s.dt ∧ t.st = s.st)

/-! ## Rules of the whole machine -/

/-- Who may write what (R22 to R32, R50, R96): an instruction changes a register only if the writes column of R22 has it, the
framebuffer only if it is CLS or DRW, memory only if it is LD [I],Vx or LD B,Vx, the stack and `sp` only if it is CALL or RET, a
timer only if it is the timer's load, `I` only if it is LD I, ADD I, LD F or, under LDST_I = increment, a register range, `pc` (when
it does not fault) only if it is a jump, a call, a return, a skip or the key wait. The fault status changes only by the entry of a
fault of an instruction R232 names (decisions D7, D8, log 12), as a whole. `current_instruction`, `invalid_opcode`, the key latch,
its schedule, the boot phase and the parameters never change, and the model's draw counter only by RND (log 8 to log 10). -/
def Obligations.OnlyTheNamedInstructionsWrite : Prop :=
  ∀ (i : Instr) (s t : State), exec i s = .next t →
    (∀ r, t.reg r ≠ s.reg r → s.mayWriteReg r i) ∧
    (t.fb ≠ s.fb → i = .cls ∨ ∃ x y n, i = .drw x y n) ∧
    (t.memory ≠ s.memory → ∃ x, i = .ldStore x ∨ i = .ldB x) ∧
    (t.stack ≠ s.stack → ∃ nnn, i = .call nnn) ∧
    (t.sp ≠ s.sp → i = .ret ∨ ∃ nnn, i = .call nnn) ∧
    (t.dt ≠ s.dt → ∃ x, i = .ldDtVx x) ∧ (t.st ≠ s.st → ∃ x, i = .ldStVx x) ∧
    (t.i ≠ s.i → (∃ nnn, i = .ldI nnn) ∨ (∃ x, i = .addI x ∨ i = .ldF x) ∨
      (s.params.ldstI = .increment ∧ ∃ x, i = .ldStore x ∨ i = .ldLoad x)) ∧
    (t.running → t.pc ≠ s.pc → (∃ nnn, i = .jp nnn ∨ i = .call nnn ∨ i = .jpV0 nnn) ∨ i = .ret ∨
      (∃ x nn, i = .seImm x nn ∨ i = .sneImm x nn) ∨ (∃ x y, i = .seReg x y ∨ i = .sneReg x y) ∨
      (∃ x, i = .skp x ∨ i = .sknp x ∨ i = .ldVxK x)) ∧
    (t.faultCause ≠ s.faultCause ∨ t.faultPc ≠ s.faultPc ∨ t.faultWord ≠ s.faultWord ∨ t.faultInfo ≠ s.faultInfo →
      namedByFaults i ∧ t.faultCause ≠ .none ∧ t.faultPc = s.pc - 2 ∧ t.faultWord = s.currentInstruction) ∧
    t.currentInstruction = s.currentInstruction ∧ t.invalidOpcode = s.invalidOpcode ∧
    t.keys = s.keys ∧ t.keyWrites = s.keyWrites ∧ t.started = s.started ∧ t.params = s.params ∧
    (t.draws ≠ s.draws → ∃ x nn, i = .rnd x nn)

/-- The latch (R28): no instruction writes it, and only SKP, SKNP and LD Vx,K read it: any other instruction does the same
whatever the keys are. -/
def Obligations.KeysAreReadOnlyByTheKeyInstructions : Prop :=
  ∀ (i : Instr) (s t : State) (k : Word), exec i s = .next t →
    t.keys = s.keys ∧
    ((∀ x, i ≠ .skp x ∧ i ≠ .sknp x ∧ i ≠ .ldVxK x) → exec i { s with keys := k } = .next { t with keys := k })

/-- The sound timer (R27): LD ST,Vx writes it, it counts like DT, its value is the host's to read, and nothing the program does
depends on it: two machines that differ only in ST stay equal but for ST, cycle after cycle. -/
def Obligations.SoundTimerIsNeverRead : Prop :=
  (∀ (x : Reg) (s : State), ∃ t, exec (.ldStVx x) s = .next t ∧ t.st = s.reg x) ∧
  (∀ (s t : State), s.running → step s = .next t → t.running →
    (∀ w x, s.fetch = .ok w → decodeWord s.params w ≠ .ok (.ldStVx x)) → t.st.toNat = s.st.toNat - 1) ∧
  (∀ (s : State), s.outputs.st = s.st) ∧
  (∀ (n : Nat) (s t : State) (b : Byte), Sys2Proof.core.run n s = .next t →
    ∃ c, Sys2Proof.core.run n { s with st := b } = .next { t with st := c })

/-- `current_instruction` of an earlier cycle is never seen (R30, R36): a running CORE whose fetch succeeds steps to the same
state whatever the register held. -/
def Obligations.OldInstructionWordIsInvisible : Prop :=
  ∀ (s : State) (w c : Word), s.running → s.fetch = .ok w → step { s with currentInstruction := c } = step s

/-- Stack entries at or above `sp` are never observed under STACK_POLICY = fault (R36, R25): two machines that agree but for such
entries answer alike and agree but for such entries after every number of cycles. -/
def Obligations.StaleStackEntriesAreInvisible : Prop :=
  ∀ (n : Nat) (s t s' : State), s.params.stackPolicy = .fault → s.sameLiveStack t →
    Sys2Proof.core.run n s = .next s' → ∃ t', Sys2Proof.core.run n t = .next t' ∧ s'.sameLiveStack t'

/-- A store is seen by every later fetch and not by the instruction that performs it (R66, R283): after a cycle of LD [I],Vx or
LD B,Vx whose addresses are reached, `current_instruction` is the word the cycle began with, and a fetch at any `p` that is reached
gives, byte by byte, the stored byte where the store covers the address and the old byte where it does not. The next cycle
fetches at `p = pc`; the storing instruction's own bytes are at its address. The range policy is the spec's decision D4 (log 2). -/
def Obligations.StoreIsSeenByTheNextFetch : Prop :=
  ∀ (x : Reg) (s u : State) (w p : Word), s.memoryCanonical → s.running → s.fetch = .ok w → step s = .next u →
    s.reaches p.toNat → s.reaches (p.toNat + 1) →
    let sees := fun (n : Nat) (value : Nat → Nat) =>
      u.pc = s.pc + 2 ∧ u.currentInstruction = w ∧
      ∃ v, ({ u with pc := p } : State).fetch = .ok v ∧
        s.holdsAfterStore n value (p.toNat % 4096) (v.toNat / 256) ∧
        s.holdsAfterStore n value ((p.toNat + 1) % 4096) (v.toNat % 256)
    (decodeWord s.params w = .ok (.ldStore x) → (∀ k, k ≤ x.val → s.reaches (s.i.toNat + k)) →
      sees (x.val + 1) (fun k => if h : k < 16 then (s.reg ⟨k, h⟩).toNat else 0)) ∧
    (decodeWord s.params w = .ok (.ldB x) → (∀ k, k ≤ 2 → s.reaches (s.i.toNat + k)) →
      sees 3 (fun k => (s.reg x).toNat / 10 ^ (2 - k) % 10))

/-- The next step of a running machine runs the word placed where it fetches: the load the host's interface does stands for an
instruction in memory (log 17). -/
def Obligations.PlacedInstructionIsRun : Prop :=
  ∀ (s : State) (i : Instr), s.running → s.memoryCanonical → s.pc.toNat < 4095 → i.wellFormed s.params = true →
    (s.withFetchWord 16 (encode i).toNat).fetch = .ok (encode i) ∧
    ∃ t, exec i (handlerState (encode i) (s.withFetchWord 16 (encode i).toNat)) = .next t ∧
      step (s.withFetchWord 16 (encode i).toNat) = .next t.endCycle

/-! ## Invariants -/

/-- Memory keeps its canonical form: addresses strictly rising below 4096, no cell at its reset contents. -/
def Obligations.StepKeepsMemoryCanonical : Prop :=
  ∀ (s t : State), s.memoryCanonical → step s = .next t → t.memoryCanonical

/-- The stack pointer stays in the range R25 gives it under each policy. -/
def Obligations.StepKeepsStackPointerLegal : Prop :=
  ∀ (s t : State), s.stackPointerLegal → step s = .next t → t.stackPointerLegal

/-- The fault status stays what R32, R232 and R238 say it is, cause by cause. -/
def Obligations.StepKeepsFaultStatusCoherent : Prop :=
  ∀ (s t : State), s.faultStatusCoherent → step s = .next t → t.faultStatusCoherent

/-- The three invariants hold right after reset, under every setting of the parameters, and the reset input gives them back from
any state (R270). -/
def Obligations.ResetHasTheInvariants : Prop :=
  (∀ p : Params, (State.resetWith p).memoryCanonical ∧ (State.resetWith p).stackPointerLegal ∧
    (State.resetWith p).faultStatusCoherent) ∧
  (∀ s : State, s.hostReset.memoryCanonical ∧ s.hostReset.stackPointerLegal ∧ s.hostReset.faultStatusCoherent) ∧
  State.reset.memoryCanonical ∧ State.reset.stackPointerLegal ∧ State.reset.faultStatusCoherent

/-! ## Reset and the host interface -/

/-- Reset (R37, R270, R271): every row of the table of R37 holds after reset under every setting of the parameters, and the reset
input gives all of them back from any state, without touching the key levels and the parameters. The values of `I`, `sp`, stack,
timers, framebuffer, `current_instruction` and fault status are the spec's decision D20 (log 6), the released keys its D21 (log 9),
the default parameters and font bytes its defaults (log 2, log 4); `invalid_opcode`, the schedule, the draws and the boot phase are
the model's (log 7 to log 10). -/
def Obligations.ResetLeavesTheStatedValues : Prop :=
  (∀ p : Params, (State.resetWith p).holdsResetValues ∧ (State.resetWith p).memory = [] ∧ (State.resetWith p).params = p ∧
    (State.resetWith p).keys = 0) ∧
  (State.reset.holdsResetValues ∧ State.reset.memory = [] ∧ State.reset.params = Params.default ∧ State.reset.keys = 0) ∧
  (∀ s : State, s.hostReset.holdsResetValues ∧ s.hostReset.memory = [] ∧ s.hostReset.params = s.params ∧
    s.hostReset.keys = s.keys ∧ s.hostReset.keyWrites = s.keyWrites ∧ s.hostReset.draws = s.draws ∧
    s.hostReset.started = false)

/-- The host's read ports (R237, R247, R253, R256): bit `64·py + px` of the framebuffer port is the cell, `sound_on` is ST not 0, the
word and the fault status are shown as they are, the cause by its code of R232, `halted` is a cause other than NONE, and the report
of an invalid opcode is the word and the address 2 before `pc`. The port layout, `sound_on`, the status ports and the codes are the
spec's decisions D27, D25, D9, D8 (log 16, log 22, log 12). -/
def Obligations.OutputPortsShowTheState : Prop :=
  ∀ (s : State),
    (∀ px py, px < 64 → py < 32 → s.outputs.fb.getLsbD (64 * py + px) = fbCell s.fb px py) ∧
    s.outputs.st = s.st ∧ (s.outputs.soundOn = true ↔ s.st.toNat ≠ 0) ∧
    s.outputs.invalidOpcode = s.invalidOpcode ∧ s.outputs.word = s.currentInstruction ∧
    (s.invalidOpcode = true → ∃ a, s.outputs.invalidReport = some (s.currentInstruction, a) ∧ a + 2 = s.pc) ∧
    (s.invalidOpcode = false → s.outputs.invalidReport = none) ∧
    (s.outputs.faultCause.toNat =
      match s.faultCause with
      | .none => 0
      | .fetchOob => 1
      | .readOob => 2
      | .writeOob => 3
      | .stackOverflow => 4
      | .stackUnderflow => 5
      | .keyOob => 6
      | .spriteEdge => 7) ∧
    s.outputs.faultPc = s.faultPc ∧ s.outputs.faultWord = s.faultWord ∧ s.outputs.faultInfo = s.faultInfo ∧
    (s.outputs.halted = true ↔ s.outputs.faultCause.toNat ≠ 0) ∧
    (s.outputs.faultCause.toNat = 0 ↔ s.running)

/-- The loader (R251, R272): before the first cycle an image of at most 3584 bytes is copied to `0x200`, every other byte is as
before and nothing else changes; a longer one is refused whole (decision D26, log 11); after a cycle there is no load (decision
D3, log 10). -/
def Obligations.LoaderCopiesTheImage : Prop :=
  ∀ (s : State) (image : List Byte), s.memoryCanonical →
    (s.started = false → image.length ≤ 3584 →
      ∃ t, s.loadImage image = .next t ∧ t.memoryCanonical ∧
        (∀ j (h : j < image.length), t.byteAt (0x200 + j) = image[j]) ∧
        (∀ a, (a < 0x200 ∨ 0x200 + image.length ≤ a) → t.byteAt a = s.byteAt a) ∧
        t = { s with memory := t.memory }) ∧
    (s.started = false → 3584 < image.length → s.loadImage image = .refused .imageTooLong) ∧
    (s.started = true → s.loadImage image = .fault .loadAfterFirstCycle)

/-- The inputs of a cycle (R28, R252): the adapter's next write of the 16 levels, if one is due, is the latch for the whole cycle of a
running CORE, else the latch is as before; nothing else changes but that a cycle has run, and a halted CORE takes nothing. The
schedule of writes and the boot phase are the model's form of these inputs (DESIGN CHOICE, log 9, log 10). -/
def Obligations.InputsAreTakenOncePerCycle : Prop :=
  (∀ (s : State) (k : Word) (rest : List Word), s.keyWrites = k :: rest →
    s.takeInputs = { s with keys := k, keyWrites := rest, started := true }) ∧
  (∀ (s : State), s.keyWrites = [] → s.takeInputs = { s with started := true }) ∧
  (∀ (s t : State), s.running → step s = .next t →
    t.started = true ∧
    (∀ k rest, s.keyWrites = k :: rest → t.keys = k ∧ t.keyWrites = rest) ∧
    (s.keyWrites = [] → t.keys = s.keys ∧ t.keyWrites = [])) ∧
  (∀ (s t : State), s.faultCause ≠ .none → step s = .next t →
    t.keys = s.keys ∧ t.keyWrites = s.keyWrites ∧ t.started = s.started) ∧
  (∀ (s : State) (levels : Word), s.driveKeys levels = { s with keys := levels })
end

