-- ==== Sys2Proof/Laws/Memory.lean ====
section
/-! SUPPORT. The laws of memory: a read after a write, a write elsewhere, and that every operation keeps the canonical form. -/

namespace Sys2Proof.Machine

theorem Memory.wfFrom_mono {font : Font} {lo lo' : Nat} {m : Memory} (h : Memory.wfFrom font lo m = true) (hl : lo' ≤ lo) :
    Memory.wfFrom font lo' m = true := by
  cases m with
  | nil => rfl
  | cons c rest =>
    simp only [Memory.wfFrom, Bool.and_eq_true, decide_eq_true_eq] at h ⊢
    exact ⟨⟨⟨Nat.le_trans hl h.1.1.1, h.1.1.2⟩, h.1.2⟩, h.2⟩

/-- Below the lowest listed address everything is at its reset contents. -/
theorem Memory.read_below {font : Font} {lo : Nat} {m : Memory} (h : Memory.wfFrom font lo m = true) {a : Nat} (ha : a < lo) :
    Memory.read font m a = initialByte font a := by
  cases m with
  | nil => rfl
  | cons c rest =>
    simp only [Memory.wfFrom, Bool.and_eq_true, decide_eq_true_eq] at h
    simp only [Memory.read]
    rw [if_pos (by omega)]

/-- A read of the address just written gives the byte written. -/
theorem Memory.read_write_same {font : Font} {lo : Nat} {m : Memory} (h : Memory.wfFrom font lo m = true) (a : Nat) (b : Byte) :
    Memory.read font (Memory.write font m a b) a = b := by
  induction m generalizing lo with
  | nil =>
    by_cases hb : b = initialByte font a <;> simp [Memory.write, Memory.read, hb]
  | cons c rest ih =>
    simp only [Memory.wfFrom, Bool.and_eq_true, decide_eq_true_eq] at h
    obtain ⟨⟨⟨h1, h2⟩, h3⟩, h4⟩ := h
    simp only [Memory.write]
    rcases Nat.lt_trichotomy a c.1 with hlt | heq | hgt
    · by_cases hb : b = initialByte font a <;> simp [hlt, hb, Memory.read]
    · by_cases hb : b = initialByte font a
      · rw [if_neg (by omega), if_pos heq, if_pos hb, Memory.read_below h4 (by omega), ← hb]
      · rw [if_neg (by omega), if_pos heq, if_neg hb]
        simp [Memory.read]
    · rw [if_neg (by omega), if_neg (by omega)]
      simp only [Memory.read]
      rw [if_neg (by omega), if_neg (by omega)]
      exact ih h4

/-- A read of another address gives what it gave before. -/
theorem Memory.read_write_other {font : Font} {lo : Nat} {m : Memory} (h : Memory.wfFrom font lo m = true) {a a' : Nat} (b : Byte)
    (hne : a' ≠ a) : Memory.read font (Memory.write font m a b) a' = Memory.read font m a' := by
  induction m generalizing lo with
  | nil =>
    by_cases hb : b = initialByte font a <;> simp [Memory.write, Memory.read, hb, hne]
  | cons c rest ih =>
    simp only [Memory.wfFrom, Bool.and_eq_true, decide_eq_true_eq] at h
    obtain ⟨⟨⟨h1, h2⟩, h3⟩, h4⟩ := h
    simp only [Memory.write]
    rcases Nat.lt_trichotomy a c.1 with hlt | heq | hgt
    · rw [if_pos hlt]
      by_cases hb : b = initialByte font a
      · rw [if_pos hb]
      · rw [if_neg hb]
        conv_lhs => simp only [Memory.read]
        by_cases hl : a' < a
        · rw [if_pos hl]
          simp only [Memory.read]
          rw [if_pos (by omega)]
        · rw [if_neg hl, if_neg hne]
          rfl
    · rw [if_neg (by omega), if_pos heq]
      by_cases hb : b = initialByte font a
      · rw [if_pos hb]
        simp only [Memory.read]
        by_cases hl : a' < c.1
        · rw [if_pos hl, Memory.read_below h4 (by omega)]
        · rw [if_neg hl, if_neg (by omega)]
      · rw [if_neg hb]
        simp only [Memory.read, heq]
        by_cases hl : a' < c.1
        · simp [hl]
        · simp [hl, show a' ≠ c.1 by omega]
    · rw [if_neg (by omega), if_neg (by omega)]
      simp only [Memory.read]
      rw [ih h4]

/-- A write in range keeps the canonical form. -/
theorem Memory.wfFrom_write {font : Font} {lo : Nat} {m : Memory} (h : Memory.wfFrom font lo m = true) {a : Nat} (b : Byte)
    (hlo : lo ≤ a) (ha : a < memorySize) : Memory.wfFrom font lo (Memory.write font m a b) = true := by
  induction m generalizing lo with
  | nil =>
    by_cases hb : b = initialByte font a <;> simp [Memory.write, Memory.wfFrom, hb, hlo, ha]
  | cons c rest ih =>
    have h0 := h
    simp only [Memory.wfFrom, Bool.and_eq_true, decide_eq_true_eq] at h
    obtain ⟨⟨⟨h1, h2⟩, h3⟩, h4⟩ := h
    simp only [Memory.write]
    rcases Nat.lt_trichotomy a c.1 with hlt | heq | hgt
    · rw [if_pos hlt]
      by_cases hb : b = initialByte font a
      · rw [if_pos hb]; exact h0
      · rw [if_neg hb]
        simp only [Memory.wfFrom, Bool.and_eq_true, decide_eq_true_eq]
        exact ⟨⟨⟨hlo, ha⟩, hb⟩, ⟨⟨by omega, h2⟩, h3⟩, h4⟩
    · rw [if_neg (by omega), if_pos heq]
      by_cases hb : b = initialByte font a
      · rw [if_pos hb]; exact Memory.wfFrom_mono h4 (by omega)
      · rw [if_neg hb]
        simp only [Memory.wfFrom, Bool.and_eq_true, decide_eq_true_eq]
        exact ⟨⟨⟨hlo, ha⟩, hb⟩, heq ▸ h4⟩
    · rw [if_neg (by omega), if_neg (by omega)]
      simp only [Memory.wfFrom, Bool.and_eq_true, decide_eq_true_eq]
      exact ⟨⟨⟨h1, h2⟩, h3⟩, ih h4 (by omega)⟩

theorem Memory.wf_write {font : Font} {m : Memory} (h : m.wf font = true) {a : Nat} (b : Byte) (ha : a < 4096) :
    (m.write font a b).wf font = true :=
  Memory.wfFrom_write h b (Nat.zero_le _) ha

/-- A run of writes in range keeps the canonical form. -/
theorem Memory.wf_writeBytes {font : Font} {m : Memory} (bytes : List Byte) {a : Nat} (h : m.wf font = true)
    (ha : a + bytes.length ≤ 4096) : (m.writeBytes font a bytes).wf font = true := by
  induction bytes generalizing m a with
  | nil => exact h
  | cons b rest ih =>
    simp only [List.length_cons] at ha
    exact ih (Memory.wf_write h b (by omega)) (by omega)

/-- A byte outside a run of writes is as before. -/
theorem Memory.read_writeBytes_other {font : Font} {m : Memory} (bytes : List Byte) {a a' : Nat} (h : m.wf font = true)
    (ha : a + bytes.length ≤ 4096) (hout : a' < a ∨ a + bytes.length ≤ a') :
    (m.writeBytes font a bytes).read font a' = m.read font a' := by
  induction bytes generalizing m a with
  | nil => rfl
  | cons b rest ih =>
    simp only [List.length_cons] at ha hout
    simp only [Memory.writeBytes]
    rw [ih (Memory.wf_write h b (by omega)) (by omega) (by omega)]
    exact Memory.read_write_other h b (by omega)

/-- Each byte of a run of writes is read back. -/
theorem Memory.read_writeBytes_inside {font : Font} {m : Memory} (bytes : List Byte) {a : Nat} (h : m.wf font = true)
    (ha : a + bytes.length ≤ 4096) {j : Nat} (hj : j < bytes.length) :
    (m.writeBytes font a bytes).read font (a + j) = bytes[j] := by
  induction bytes generalizing m a j with
  | nil => simp at hj
  | cons b rest ih =>
    simp only [List.length_cons] at ha hj
    simp only [Memory.writeBytes]
    have hw := Memory.wf_write (a := a) h b (by omega)
    cases j with
    | zero =>
      rw [Memory.read_writeBytes_other rest hw (by omega) (by omega)]
      exact Memory.read_write_same h a b
    | succ k =>
      rw [show a + (k + 1) = a + 1 + k by omega, ih hw (by omega) (by omega)]
      rfl

end Sys2Proof.Machine
end

