-- ==== Sys2Proof/Laws/State.lean ====
section
/-! SUPPORT. One lemma per field per update of State, each true by rfl, so that no later proof unfolds a record update; and the register-file laws. -/

namespace Sys2Proof.Machine

/-! `State.setReg` -/

@[simp] theorem State.setReg_params (s : State) (r : Reg) (b : Byte) : (s.setReg r b).params = s.params := rfl
@[simp] theorem State.setReg_v (s : State) (r : Reg) (b : Byte) : (s.setReg r b).v = s.v.set r.val b := rfl
@[simp] theorem State.setReg_i (s : State) (r : Reg) (b : Byte) : (s.setReg r b).i = s.i := rfl
@[simp] theorem State.setReg_pc (s : State) (r : Reg) (b : Byte) : (s.setReg r b).pc = s.pc := rfl
@[simp] theorem State.setReg_sp (s : State) (r : Reg) (b : Byte) : (s.setReg r b).sp = s.sp := rfl
@[simp] theorem State.setReg_stack (s : State) (r : Reg) (b : Byte) : (s.setReg r b).stack = s.stack := rfl
@[simp] theorem State.setReg_dt (s : State) (r : Reg) (b : Byte) : (s.setReg r b).dt = s.dt := rfl
@[simp] theorem State.setReg_st (s : State) (r : Reg) (b : Byte) : (s.setReg r b).st = s.st := rfl
@[simp] theorem State.setReg_keys (s : State) (r : Reg) (b : Byte) : (s.setReg r b).keys = s.keys := rfl
@[simp] theorem State.setReg_fb (s : State) (r : Reg) (b : Byte) : (s.setReg r b).fb = s.fb := rfl
@[simp] theorem State.setReg_currentInstruction (s : State) (r : Reg) (b : Byte) : (s.setReg r b).currentInstruction = s.currentInstruction := rfl
@[simp] theorem State.setReg_memory (s : State) (r : Reg) (b : Byte) : (s.setReg r b).memory = s.memory := rfl
@[simp] theorem State.setReg_invalidOpcode (s : State) (r : Reg) (b : Byte) : (s.setReg r b).invalidOpcode = s.invalidOpcode := rfl
@[simp] theorem State.setReg_faultCause (s : State) (r : Reg) (b : Byte) : (s.setReg r b).faultCause = s.faultCause := rfl
@[simp] theorem State.setReg_faultPc (s : State) (r : Reg) (b : Byte) : (s.setReg r b).faultPc = s.faultPc := rfl
@[simp] theorem State.setReg_faultWord (s : State) (r : Reg) (b : Byte) : (s.setReg r b).faultWord = s.faultWord := rfl
@[simp] theorem State.setReg_faultInfo (s : State) (r : Reg) (b : Byte) : (s.setReg r b).faultInfo = s.faultInfo := rfl
@[simp] theorem State.setReg_draws (s : State) (r : Reg) (b : Byte) : (s.setReg r b).draws = s.draws := rfl
@[simp] theorem State.setReg_keyWrites (s : State) (r : Reg) (b : Byte) : (s.setReg r b).keyWrites = s.keyWrites := rfl
@[simp] theorem State.setReg_started (s : State) (r : Reg) (b : Byte) : (s.setReg r b).started = s.started := rfl

/-! `State.setIndex` -/

@[simp] theorem State.setIndex_params (s : State) (w : Word) : (s.setIndex w).params = s.params := rfl
@[simp] theorem State.setIndex_v (s : State) (w : Word) : (s.setIndex w).v = s.v := rfl
@[simp] theorem State.setIndex_i (s : State) (w : Word) : (s.setIndex w).i = w := rfl
@[simp] theorem State.setIndex_pc (s : State) (w : Word) : (s.setIndex w).pc = s.pc := rfl
@[simp] theorem State.setIndex_sp (s : State) (w : Word) : (s.setIndex w).sp = s.sp := rfl
@[simp] theorem State.setIndex_stack (s : State) (w : Word) : (s.setIndex w).stack = s.stack := rfl
@[simp] theorem State.setIndex_dt (s : State) (w : Word) : (s.setIndex w).dt = s.dt := rfl
@[simp] theorem State.setIndex_st (s : State) (w : Word) : (s.setIndex w).st = s.st := rfl
@[simp] theorem State.setIndex_keys (s : State) (w : Word) : (s.setIndex w).keys = s.keys := rfl
@[simp] theorem State.setIndex_fb (s : State) (w : Word) : (s.setIndex w).fb = s.fb := rfl
@[simp] theorem State.setIndex_currentInstruction (s : State) (w : Word) : (s.setIndex w).currentInstruction = s.currentInstruction := rfl
@[simp] theorem State.setIndex_memory (s : State) (w : Word) : (s.setIndex w).memory = s.memory := rfl
@[simp] theorem State.setIndex_invalidOpcode (s : State) (w : Word) : (s.setIndex w).invalidOpcode = s.invalidOpcode := rfl
@[simp] theorem State.setIndex_faultCause (s : State) (w : Word) : (s.setIndex w).faultCause = s.faultCause := rfl
@[simp] theorem State.setIndex_faultPc (s : State) (w : Word) : (s.setIndex w).faultPc = s.faultPc := rfl
@[simp] theorem State.setIndex_faultWord (s : State) (w : Word) : (s.setIndex w).faultWord = s.faultWord := rfl
@[simp] theorem State.setIndex_faultInfo (s : State) (w : Word) : (s.setIndex w).faultInfo = s.faultInfo := rfl
@[simp] theorem State.setIndex_draws (s : State) (w : Word) : (s.setIndex w).draws = s.draws := rfl
@[simp] theorem State.setIndex_keyWrites (s : State) (w : Word) : (s.setIndex w).keyWrites = s.keyWrites := rfl
@[simp] theorem State.setIndex_started (s : State) (w : Word) : (s.setIndex w).started = s.started := rfl

/-! `State.setPc` -/

@[simp] theorem State.setPc_params (s : State) (w : Word) : (s.setPc w).params = s.params := rfl
@[simp] theorem State.setPc_v (s : State) (w : Word) : (s.setPc w).v = s.v := rfl
@[simp] theorem State.setPc_i (s : State) (w : Word) : (s.setPc w).i = s.i := rfl
@[simp] theorem State.setPc_pc (s : State) (w : Word) : (s.setPc w).pc = w := rfl
@[simp] theorem State.setPc_sp (s : State) (w : Word) : (s.setPc w).sp = s.sp := rfl
@[simp] theorem State.setPc_stack (s : State) (w : Word) : (s.setPc w).stack = s.stack := rfl
@[simp] theorem State.setPc_dt (s : State) (w : Word) : (s.setPc w).dt = s.dt := rfl
@[simp] theorem State.setPc_st (s : State) (w : Word) : (s.setPc w).st = s.st := rfl
@[simp] theorem State.setPc_keys (s : State) (w : Word) : (s.setPc w).keys = s.keys := rfl
@[simp] theorem State.setPc_fb (s : State) (w : Word) : (s.setPc w).fb = s.fb := rfl
@[simp] theorem State.setPc_currentInstruction (s : State) (w : Word) : (s.setPc w).currentInstruction = s.currentInstruction := rfl
@[simp] theorem State.setPc_memory (s : State) (w : Word) : (s.setPc w).memory = s.memory := rfl
@[simp] theorem State.setPc_invalidOpcode (s : State) (w : Word) : (s.setPc w).invalidOpcode = s.invalidOpcode := rfl
@[simp] theorem State.setPc_faultCause (s : State) (w : Word) : (s.setPc w).faultCause = s.faultCause := rfl
@[simp] theorem State.setPc_faultPc (s : State) (w : Word) : (s.setPc w).faultPc = s.faultPc := rfl
@[simp] theorem State.setPc_faultWord (s : State) (w : Word) : (s.setPc w).faultWord = s.faultWord := rfl
@[simp] theorem State.setPc_faultInfo (s : State) (w : Word) : (s.setPc w).faultInfo = s.faultInfo := rfl
@[simp] theorem State.setPc_draws (s : State) (w : Word) : (s.setPc w).draws = s.draws := rfl
@[simp] theorem State.setPc_keyWrites (s : State) (w : Word) : (s.setPc w).keyWrites = s.keyWrites := rfl
@[simp] theorem State.setPc_started (s : State) (w : Word) : (s.setPc w).started = s.started := rfl

/-! `State.setDt` -/

@[simp] theorem State.setDt_params (s : State) (b : Byte) : (s.setDt b).params = s.params := rfl
@[simp] theorem State.setDt_v (s : State) (b : Byte) : (s.setDt b).v = s.v := rfl
@[simp] theorem State.setDt_i (s : State) (b : Byte) : (s.setDt b).i = s.i := rfl
@[simp] theorem State.setDt_pc (s : State) (b : Byte) : (s.setDt b).pc = s.pc := rfl
@[simp] theorem State.setDt_sp (s : State) (b : Byte) : (s.setDt b).sp = s.sp := rfl
@[simp] theorem State.setDt_stack (s : State) (b : Byte) : (s.setDt b).stack = s.stack := rfl
@[simp] theorem State.setDt_dt (s : State) (b : Byte) : (s.setDt b).dt = b := rfl
@[simp] theorem State.setDt_st (s : State) (b : Byte) : (s.setDt b).st = s.st := rfl
@[simp] theorem State.setDt_keys (s : State) (b : Byte) : (s.setDt b).keys = s.keys := rfl
@[simp] theorem State.setDt_fb (s : State) (b : Byte) : (s.setDt b).fb = s.fb := rfl
@[simp] theorem State.setDt_currentInstruction (s : State) (b : Byte) : (s.setDt b).currentInstruction = s.currentInstruction := rfl
@[simp] theorem State.setDt_memory (s : State) (b : Byte) : (s.setDt b).memory = s.memory := rfl
@[simp] theorem State.setDt_invalidOpcode (s : State) (b : Byte) : (s.setDt b).invalidOpcode = s.invalidOpcode := rfl
@[simp] theorem State.setDt_faultCause (s : State) (b : Byte) : (s.setDt b).faultCause = s.faultCause := rfl
@[simp] theorem State.setDt_faultPc (s : State) (b : Byte) : (s.setDt b).faultPc = s.faultPc := rfl
@[simp] theorem State.setDt_faultWord (s : State) (b : Byte) : (s.setDt b).faultWord = s.faultWord := rfl
@[simp] theorem State.setDt_faultInfo (s : State) (b : Byte) : (s.setDt b).faultInfo = s.faultInfo := rfl
@[simp] theorem State.setDt_draws (s : State) (b : Byte) : (s.setDt b).draws = s.draws := rfl
@[simp] theorem State.setDt_keyWrites (s : State) (b : Byte) : (s.setDt b).keyWrites = s.keyWrites := rfl
@[simp] theorem State.setDt_started (s : State) (b : Byte) : (s.setDt b).started = s.started := rfl

/-! `State.setSt` -/

@[simp] theorem State.setSt_params (s : State) (b : Byte) : (s.setSt b).params = s.params := rfl
@[simp] theorem State.setSt_v (s : State) (b : Byte) : (s.setSt b).v = s.v := rfl
@[simp] theorem State.setSt_i (s : State) (b : Byte) : (s.setSt b).i = s.i := rfl
@[simp] theorem State.setSt_pc (s : State) (b : Byte) : (s.setSt b).pc = s.pc := rfl
@[simp] theorem State.setSt_sp (s : State) (b : Byte) : (s.setSt b).sp = s.sp := rfl
@[simp] theorem State.setSt_stack (s : State) (b : Byte) : (s.setSt b).stack = s.stack := rfl
@[simp] theorem State.setSt_dt (s : State) (b : Byte) : (s.setSt b).dt = s.dt := rfl
@[simp] theorem State.setSt_st (s : State) (b : Byte) : (s.setSt b).st = b := rfl
@[simp] theorem State.setSt_keys (s : State) (b : Byte) : (s.setSt b).keys = s.keys := rfl
@[simp] theorem State.setSt_fb (s : State) (b : Byte) : (s.setSt b).fb = s.fb := rfl
@[simp] theorem State.setSt_currentInstruction (s : State) (b : Byte) : (s.setSt b).currentInstruction = s.currentInstruction := rfl
@[simp] theorem State.setSt_memory (s : State) (b : Byte) : (s.setSt b).memory = s.memory := rfl
@[simp] theorem State.setSt_invalidOpcode (s : State) (b : Byte) : (s.setSt b).invalidOpcode = s.invalidOpcode := rfl
@[simp] theorem State.setSt_faultCause (s : State) (b : Byte) : (s.setSt b).faultCause = s.faultCause := rfl
@[simp] theorem State.setSt_faultPc (s : State) (b : Byte) : (s.setSt b).faultPc = s.faultPc := rfl
@[simp] theorem State.setSt_faultWord (s : State) (b : Byte) : (s.setSt b).faultWord = s.faultWord := rfl
@[simp] theorem State.setSt_faultInfo (s : State) (b : Byte) : (s.setSt b).faultInfo = s.faultInfo := rfl
@[simp] theorem State.setSt_draws (s : State) (b : Byte) : (s.setSt b).draws = s.draws := rfl
@[simp] theorem State.setSt_keyWrites (s : State) (b : Byte) : (s.setSt b).keyWrites = s.keyWrites := rfl
@[simp] theorem State.setSt_started (s : State) (b : Byte) : (s.setSt b).started = s.started := rfl

/-! `State.setFb` -/

@[simp] theorem State.setFb_params (s : State) (f : Framebuffer) : (s.setFb f).params = s.params := rfl
@[simp] theorem State.setFb_v (s : State) (f : Framebuffer) : (s.setFb f).v = s.v := rfl
@[simp] theorem State.setFb_i (s : State) (f : Framebuffer) : (s.setFb f).i = s.i := rfl
@[simp] theorem State.setFb_pc (s : State) (f : Framebuffer) : (s.setFb f).pc = s.pc := rfl
@[simp] theorem State.setFb_sp (s : State) (f : Framebuffer) : (s.setFb f).sp = s.sp := rfl
@[simp] theorem State.setFb_stack (s : State) (f : Framebuffer) : (s.setFb f).stack = s.stack := rfl
@[simp] theorem State.setFb_dt (s : State) (f : Framebuffer) : (s.setFb f).dt = s.dt := rfl
@[simp] theorem State.setFb_st (s : State) (f : Framebuffer) : (s.setFb f).st = s.st := rfl
@[simp] theorem State.setFb_keys (s : State) (f : Framebuffer) : (s.setFb f).keys = s.keys := rfl
@[simp] theorem State.setFb_fb (s : State) (f : Framebuffer) : (s.setFb f).fb = f := rfl
@[simp] theorem State.setFb_currentInstruction (s : State) (f : Framebuffer) : (s.setFb f).currentInstruction = s.currentInstruction := rfl
@[simp] theorem State.setFb_memory (s : State) (f : Framebuffer) : (s.setFb f).memory = s.memory := rfl
@[simp] theorem State.setFb_invalidOpcode (s : State) (f : Framebuffer) : (s.setFb f).invalidOpcode = s.invalidOpcode := rfl
@[simp] theorem State.setFb_faultCause (s : State) (f : Framebuffer) : (s.setFb f).faultCause = s.faultCause := rfl
@[simp] theorem State.setFb_faultPc (s : State) (f : Framebuffer) : (s.setFb f).faultPc = s.faultPc := rfl
@[simp] theorem State.setFb_faultWord (s : State) (f : Framebuffer) : (s.setFb f).faultWord = s.faultWord := rfl
@[simp] theorem State.setFb_faultInfo (s : State) (f : Framebuffer) : (s.setFb f).faultInfo = s.faultInfo := rfl
@[simp] theorem State.setFb_draws (s : State) (f : Framebuffer) : (s.setFb f).draws = s.draws := rfl
@[simp] theorem State.setFb_keyWrites (s : State) (f : Framebuffer) : (s.setFb f).keyWrites = s.keyWrites := rfl
@[simp] theorem State.setFb_started (s : State) (f : Framebuffer) : (s.setFb f).started = s.started := rfl

/-! `State.latchFault` -/

@[simp] theorem State.latchFault_params (s : State) (r : Raise) (a w : Word) : (s.latchFault r a w).params = s.params := rfl
@[simp] theorem State.latchFault_v (s : State) (r : Raise) (a w : Word) : (s.latchFault r a w).v = s.v := rfl
@[simp] theorem State.latchFault_i (s : State) (r : Raise) (a w : Word) : (s.latchFault r a w).i = s.i := rfl
@[simp] theorem State.latchFault_pc (s : State) (r : Raise) (a w : Word) : (s.latchFault r a w).pc = s.pc := rfl
@[simp] theorem State.latchFault_sp (s : State) (r : Raise) (a w : Word) : (s.latchFault r a w).sp = s.sp := rfl
@[simp] theorem State.latchFault_stack (s : State) (r : Raise) (a w : Word) : (s.latchFault r a w).stack = s.stack := rfl
@[simp] theorem State.latchFault_dt (s : State) (r : Raise) (a w : Word) : (s.latchFault r a w).dt = s.dt := rfl
@[simp] theorem State.latchFault_st (s : State) (r : Raise) (a w : Word) : (s.latchFault r a w).st = s.st := rfl
@[simp] theorem State.latchFault_keys (s : State) (r : Raise) (a w : Word) : (s.latchFault r a w).keys = s.keys := rfl
@[simp] theorem State.latchFault_fb (s : State) (r : Raise) (a w : Word) : (s.latchFault r a w).fb = s.fb := rfl
@[simp] theorem State.latchFault_currentInstruction (s : State) (r : Raise) (a w : Word) : (s.latchFault r a w).currentInstruction = s.currentInstruction := rfl
@[simp] theorem State.latchFault_memory (s : State) (r : Raise) (a w : Word) : (s.latchFault r a w).memory = s.memory := rfl
@[simp] theorem State.latchFault_invalidOpcode (s : State) (r : Raise) (a w : Word) : (s.latchFault r a w).invalidOpcode = s.invalidOpcode := rfl
@[simp] theorem State.latchFault_faultCause (s : State) (r : Raise) (a w : Word) : (s.latchFault r a w).faultCause = r.cause := rfl
@[simp] theorem State.latchFault_faultPc (s : State) (r : Raise) (a w : Word) : (s.latchFault r a w).faultPc = a := rfl
@[simp] theorem State.latchFault_faultWord (s : State) (r : Raise) (a w : Word) : (s.latchFault r a w).faultWord = w := rfl
@[simp] theorem State.latchFault_faultInfo (s : State) (r : Raise) (a w : Word) : (s.latchFault r a w).faultInfo = r.info := rfl
@[simp] theorem State.latchFault_draws (s : State) (r : Raise) (a w : Word) : (s.latchFault r a w).draws = s.draws := rfl
@[simp] theorem State.latchFault_keyWrites (s : State) (r : Raise) (a w : Word) : (s.latchFault r a w).keyWrites = s.keyWrites := rfl
@[simp] theorem State.latchFault_started (s : State) (r : Raise) (a w : Word) : (s.latchFault r a w).started = s.started := rfl

/-! `State.setByte` -/

@[simp] theorem State.setByte_params (s : State) (a : Nat) (b : Byte) : (s.setByte a b).params = s.params := rfl
@[simp] theorem State.setByte_v (s : State) (a : Nat) (b : Byte) : (s.setByte a b).v = s.v := rfl
@[simp] theorem State.setByte_i (s : State) (a : Nat) (b : Byte) : (s.setByte a b).i = s.i := rfl
@[simp] theorem State.setByte_pc (s : State) (a : Nat) (b : Byte) : (s.setByte a b).pc = s.pc := rfl
@[simp] theorem State.setByte_sp (s : State) (a : Nat) (b : Byte) : (s.setByte a b).sp = s.sp := rfl
@[simp] theorem State.setByte_stack (s : State) (a : Nat) (b : Byte) : (s.setByte a b).stack = s.stack := rfl
@[simp] theorem State.setByte_dt (s : State) (a : Nat) (b : Byte) : (s.setByte a b).dt = s.dt := rfl
@[simp] theorem State.setByte_st (s : State) (a : Nat) (b : Byte) : (s.setByte a b).st = s.st := rfl
@[simp] theorem State.setByte_keys (s : State) (a : Nat) (b : Byte) : (s.setByte a b).keys = s.keys := rfl
@[simp] theorem State.setByte_fb (s : State) (a : Nat) (b : Byte) : (s.setByte a b).fb = s.fb := rfl
@[simp] theorem State.setByte_currentInstruction (s : State) (a : Nat) (b : Byte) : (s.setByte a b).currentInstruction = s.currentInstruction := rfl
@[simp] theorem State.setByte_memory (s : State) (a : Nat) (b : Byte) : (s.setByte a b).memory = s.memory.write s.params.font a b := rfl
@[simp] theorem State.setByte_invalidOpcode (s : State) (a : Nat) (b : Byte) : (s.setByte a b).invalidOpcode = s.invalidOpcode := rfl
@[simp] theorem State.setByte_faultCause (s : State) (a : Nat) (b : Byte) : (s.setByte a b).faultCause = s.faultCause := rfl
@[simp] theorem State.setByte_faultPc (s : State) (a : Nat) (b : Byte) : (s.setByte a b).faultPc = s.faultPc := rfl
@[simp] theorem State.setByte_faultWord (s : State) (a : Nat) (b : Byte) : (s.setByte a b).faultWord = s.faultWord := rfl
@[simp] theorem State.setByte_faultInfo (s : State) (a : Nat) (b : Byte) : (s.setByte a b).faultInfo = s.faultInfo := rfl
@[simp] theorem State.setByte_draws (s : State) (a : Nat) (b : Byte) : (s.setByte a b).draws = s.draws := rfl
@[simp] theorem State.setByte_keyWrites (s : State) (a : Nat) (b : Byte) : (s.setByte a b).keyWrites = s.keyWrites := rfl
@[simp] theorem State.setByte_started (s : State) (a : Nat) (b : Byte) : (s.setByte a b).started = s.started := rfl

/-! `State.latchWord` -/

@[simp] theorem State.latchWord_params (s : State) (w : Word) : (s.latchWord w).params = s.params := rfl
@[simp] theorem State.latchWord_v (s : State) (w : Word) : (s.latchWord w).v = s.v := rfl
@[simp] theorem State.latchWord_i (s : State) (w : Word) : (s.latchWord w).i = s.i := rfl
@[simp] theorem State.latchWord_pc (s : State) (w : Word) : (s.latchWord w).pc = s.pc + 2 := rfl
@[simp] theorem State.latchWord_sp (s : State) (w : Word) : (s.latchWord w).sp = s.sp := rfl
@[simp] theorem State.latchWord_stack (s : State) (w : Word) : (s.latchWord w).stack = s.stack := rfl
@[simp] theorem State.latchWord_dt (s : State) (w : Word) : (s.latchWord w).dt = s.dt := rfl
@[simp] theorem State.latchWord_st (s : State) (w : Word) : (s.latchWord w).st = s.st := rfl
@[simp] theorem State.latchWord_keys (s : State) (w : Word) : (s.latchWord w).keys = s.keys := rfl
@[simp] theorem State.latchWord_fb (s : State) (w : Word) : (s.latchWord w).fb = s.fb := rfl
@[simp] theorem State.latchWord_currentInstruction (s : State) (w : Word) : (s.latchWord w).currentInstruction = w := rfl
@[simp] theorem State.latchWord_memory (s : State) (w : Word) : (s.latchWord w).memory = s.memory := rfl
@[simp] theorem State.latchWord_invalidOpcode (s : State) (w : Word) : (s.latchWord w).invalidOpcode = s.invalidOpcode := rfl
@[simp] theorem State.latchWord_faultCause (s : State) (w : Word) : (s.latchWord w).faultCause = s.faultCause := rfl
@[simp] theorem State.latchWord_faultPc (s : State) (w : Word) : (s.latchWord w).faultPc = s.faultPc := rfl
@[simp] theorem State.latchWord_faultWord (s : State) (w : Word) : (s.latchWord w).faultWord = s.faultWord := rfl
@[simp] theorem State.latchWord_faultInfo (s : State) (w : Word) : (s.latchWord w).faultInfo = s.faultInfo := rfl
@[simp] theorem State.latchWord_draws (s : State) (w : Word) : (s.latchWord w).draws = s.draws := rfl
@[simp] theorem State.latchWord_keyWrites (s : State) (w : Word) : (s.latchWord w).keyWrites = s.keyWrites := rfl
@[simp] theorem State.latchWord_started (s : State) (w : Word) : (s.latchWord w).started = s.started := rfl

/-! `State.setInvalid` -/

@[simp] theorem State.setInvalid_params (s : State) (b : Bool) : (s.setInvalid b).params = s.params := rfl
@[simp] theorem State.setInvalid_v (s : State) (b : Bool) : (s.setInvalid b).v = s.v := rfl
@[simp] theorem State.setInvalid_i (s : State) (b : Bool) : (s.setInvalid b).i = s.i := rfl
@[simp] theorem State.setInvalid_pc (s : State) (b : Bool) : (s.setInvalid b).pc = s.pc := rfl
@[simp] theorem State.setInvalid_sp (s : State) (b : Bool) : (s.setInvalid b).sp = s.sp := rfl
@[simp] theorem State.setInvalid_stack (s : State) (b : Bool) : (s.setInvalid b).stack = s.stack := rfl
@[simp] theorem State.setInvalid_dt (s : State) (b : Bool) : (s.setInvalid b).dt = s.dt := rfl
@[simp] theorem State.setInvalid_st (s : State) (b : Bool) : (s.setInvalid b).st = s.st := rfl
@[simp] theorem State.setInvalid_keys (s : State) (b : Bool) : (s.setInvalid b).keys = s.keys := rfl
@[simp] theorem State.setInvalid_fb (s : State) (b : Bool) : (s.setInvalid b).fb = s.fb := rfl
@[simp] theorem State.setInvalid_currentInstruction (s : State) (b : Bool) : (s.setInvalid b).currentInstruction = s.currentInstruction := rfl
@[simp] theorem State.setInvalid_memory (s : State) (b : Bool) : (s.setInvalid b).memory = s.memory := rfl
@[simp] theorem State.setInvalid_invalidOpcode (s : State) (b : Bool) : (s.setInvalid b).invalidOpcode = b := rfl
@[simp] theorem State.setInvalid_faultCause (s : State) (b : Bool) : (s.setInvalid b).faultCause = s.faultCause := rfl
@[simp] theorem State.setInvalid_faultPc (s : State) (b : Bool) : (s.setInvalid b).faultPc = s.faultPc := rfl
@[simp] theorem State.setInvalid_faultWord (s : State) (b : Bool) : (s.setInvalid b).faultWord = s.faultWord := rfl
@[simp] theorem State.setInvalid_faultInfo (s : State) (b : Bool) : (s.setInvalid b).faultInfo = s.faultInfo := rfl
@[simp] theorem State.setInvalid_draws (s : State) (b : Bool) : (s.setInvalid b).draws = s.draws := rfl
@[simp] theorem State.setInvalid_keyWrites (s : State) (b : Bool) : (s.setInvalid b).keyWrites = s.keyWrites := rfl
@[simp] theorem State.setInvalid_started (s : State) (b : Bool) : (s.setInvalid b).started = s.started := rfl

/-! `State.tick` -/

@[simp] theorem State.tick_params (s : State) : (s.tick).params = s.params := rfl
@[simp] theorem State.tick_v (s : State) : (s.tick).v = s.v := rfl
@[simp] theorem State.tick_i (s : State) : (s.tick).i = s.i := rfl
@[simp] theorem State.tick_pc (s : State) : (s.tick).pc = s.pc := rfl
@[simp] theorem State.tick_sp (s : State) : (s.tick).sp = s.sp := rfl
@[simp] theorem State.tick_stack (s : State) : (s.tick).stack = s.stack := rfl
@[simp] theorem State.tick_dt (s : State) : (s.tick).dt = countDown s.dt := rfl
@[simp] theorem State.tick_st (s : State) : (s.tick).st = countDown s.st := rfl
@[simp] theorem State.tick_keys (s : State) : (s.tick).keys = s.keys := rfl
@[simp] theorem State.tick_fb (s : State) : (s.tick).fb = s.fb := rfl
@[simp] theorem State.tick_currentInstruction (s : State) : (s.tick).currentInstruction = s.currentInstruction := rfl
@[simp] theorem State.tick_memory (s : State) : (s.tick).memory = s.memory := rfl
@[simp] theorem State.tick_invalidOpcode (s : State) : (s.tick).invalidOpcode = s.invalidOpcode := rfl
@[simp] theorem State.tick_faultCause (s : State) : (s.tick).faultCause = s.faultCause := rfl
@[simp] theorem State.tick_faultPc (s : State) : (s.tick).faultPc = s.faultPc := rfl
@[simp] theorem State.tick_faultWord (s : State) : (s.tick).faultWord = s.faultWord := rfl
@[simp] theorem State.tick_faultInfo (s : State) : (s.tick).faultInfo = s.faultInfo := rfl
@[simp] theorem State.tick_draws (s : State) : (s.tick).draws = s.draws := rfl
@[simp] theorem State.tick_keyWrites (s : State) : (s.tick).keyWrites = s.keyWrites := rfl
@[simp] theorem State.tick_started (s : State) : (s.tick).started = s.started := rfl

/-! `State.hostReset` -/

@[simp] theorem State.hostReset_params (s : State) : (s.hostReset).params = s.params := rfl
@[simp] theorem State.hostReset_v (s : State) : (s.hostReset).v = Vector.replicate 16 0 := rfl
@[simp] theorem State.hostReset_i (s : State) : (s.hostReset).i = 0 := rfl
@[simp] theorem State.hostReset_pc (s : State) : (s.hostReset).pc = 0x200 := rfl
@[simp] theorem State.hostReset_sp (s : State) : (s.hostReset).sp = 0 := rfl
@[simp] theorem State.hostReset_stack (s : State) : (s.hostReset).stack = Vector.replicate 16 0 := rfl
@[simp] theorem State.hostReset_dt (s : State) : (s.hostReset).dt = 0 := rfl
@[simp] theorem State.hostReset_st (s : State) : (s.hostReset).st = 0 := rfl
@[simp] theorem State.hostReset_keys (s : State) : (s.hostReset).keys = s.keys := rfl
@[simp] theorem State.hostReset_fb (s : State) : (s.hostReset).fb = Vector.replicate 32 0 := rfl
@[simp] theorem State.hostReset_currentInstruction (s : State) : (s.hostReset).currentInstruction = 0 := rfl
@[simp] theorem State.hostReset_memory (s : State) : (s.hostReset).memory = [] := rfl
@[simp] theorem State.hostReset_invalidOpcode (s : State) : (s.hostReset).invalidOpcode = false := rfl
@[simp] theorem State.hostReset_faultCause (s : State) : (s.hostReset).faultCause = .none := rfl
@[simp] theorem State.hostReset_faultPc (s : State) : (s.hostReset).faultPc = 0 := rfl
@[simp] theorem State.hostReset_faultWord (s : State) : (s.hostReset).faultWord = 0 := rfl
@[simp] theorem State.hostReset_faultInfo (s : State) : (s.hostReset).faultInfo = 0 := rfl
@[simp] theorem State.hostReset_draws (s : State) : (s.hostReset).draws = s.draws := rfl
@[simp] theorem State.hostReset_keyWrites (s : State) : (s.hostReset).keyWrites = s.keyWrites := rfl
@[simp] theorem State.hostReset_started (s : State) : (s.hostReset).started = false := rfl

/-! The register file: a write is read back, and reaches no other register. -/

@[simp] theorem State.reg_setReg_same (s : State) (r : Reg) (b : Byte) : (s.setReg r b).reg r = b := by
  simp [State.reg, State.setReg]

theorem State.reg_setReg_other (s : State) (r q : Reg) (b : Byte) (h : q ≠ r) : (s.setReg r b).reg q = s.reg q := by
  have : r.val ≠ q.val := fun e => h (Fin.ext e.symm)
  simp [State.reg, State.setReg, this]

theorem State.reg_setReg (s : State) (r q : Reg) (b : Byte) :
    (s.setReg r b).reg q = if q = r then b else s.reg q := by
  by_cases h : q = r
  · subst h; simp
  · simp [h, State.reg_setReg_other s r q b h]

/-- A state that differs only outside the register file reads the same registers. -/
theorem State.reg_of_v {s t : State} (h : t.v = s.v) (r : Reg) : t.reg r = s.reg r := by simp [State.reg, h]

/-- A state with the same memory and parameters reads the same bytes. -/
theorem State.byteAt_of_memory {s t : State} (h : t.memory = s.memory) (hp : t.params = s.params) (a : Nat) :
    t.byteAt a = s.byteAt a := by simp [State.byteAt, h, hp]

end Sys2Proof.Machine
end

