-- ==== Sys2Proof/Laws/Ops.lean ====
section
/-! SUPPORT. What each shared operation can do, said once: address resolution, byte accesses, key reads, the stack controller, ending a handler, the inputs and the fetch of a cycle. -/

namespace Sys2Proof.Machine

/-! Address resolution (R55). -/

theorem State.resolve_of_reaches {s : State} (c : Cause) {a : Nat} (h : s.reaches a) : s.resolve c a = .ok (a % 4096) := by
  unfold State.resolve memorySize
  rcases h with h | h
  · rw [if_pos h, Nat.mod_eq_of_lt h]
  · by_cases ha : a < 4096
    · rw [if_pos ha, Nat.mod_eq_of_lt ha]
    · rw [if_neg ha, h]

theorem State.resolve_fault {s : State} (c : Cause) {a : Nat} (hp : s.params.oobPolicy = .fault) (h : 4096 ≤ a) :
    s.resolve c a = .error (Raise.of c a) := by
  unfold State.resolve memorySize
  rw [if_neg (by omega), hp]

theorem State.not_reaches {s : State} {a : Nat} (h : ¬ s.reaches a) : s.params.oobPolicy = .fault ∧ 4096 ≤ a := by
  simp only [State.reaches, not_or, Nat.not_lt] at h
  refine ⟨?_, h.1⟩
  cases hp : s.params.oobPolicy with
  | fault => rfl
  | mask => exact absurd hp h.2

/-- An access succeeds at a cell in range, or raises its cause with its address under OOB_POLICY = fault. -/
theorem State.resolve_cases (s : State) (c : Cause) (a : Nat) :
    (s.reaches a ∧ s.resolve c a = .ok (a % 4096)) ∨
    (s.params.oobPolicy = .fault ∧ 4096 ≤ a ∧ s.resolve c a = .error (Raise.of c a)) := by
  by_cases h : s.reaches a
  · exact .inl ⟨h, s.resolve_of_reaches c h⟩
  · obtain ⟨hp, ha⟩ := State.not_reaches h
    exact .inr ⟨hp, ha, State.resolve_fault c hp ha⟩

theorem State.memRead_of_reaches {s : State} (c : Cause) {a : Nat} (h : s.reaches a) :
    s.memRead c a = .ok (s.byteAt (a % 4096)) := by
  simp [State.memRead, State.resolve_of_reaches c h]

theorem State.memRead_fault {s : State} (c : Cause) {a : Nat} (hp : s.params.oobPolicy = .fault) (h : 4096 ≤ a) :
    s.memRead c a = .error (Raise.of c a) := by
  simp [State.memRead, State.resolve_fault c hp h]

theorem State.memWrite_of_reaches {s : State} {a : Nat} (b : Byte) (h : s.reaches a) :
    s.memWrite a b = .ok (s.setByte (a % 4096) b) := by
  simp [State.memWrite, State.resolve_of_reaches .writeOob h]

theorem State.memWrite_fault {s : State} {a : Nat} (b : Byte) (hp : s.params.oobPolicy = .fault) (h : 4096 ≤ a) :
    s.memWrite a b = .error (Raise.of .writeOob a) := by
  simp [State.memWrite, State.resolve_fault .writeOob hp h]

/-! Bytes. -/

theorem State.byteAt_setByte_same {s : State} (h : s.memoryCanonical) (a : Nat) (b : Byte) : (s.setByte a b).byteAt a = b :=
  Memory.read_write_same h a b

theorem State.byteAt_setByte_other {s : State} (h : s.memoryCanonical) {a a' : Nat} (b : Byte) (hne : a' ≠ a) :
    (s.setByte a b).byteAt a' = s.byteAt a' :=
  Memory.read_write_other h b hne

theorem State.memoryCanonical_setByte {s : State} (h : s.memoryCanonical) {a : Nat} (b : Byte) (ha : a < 4096) :
    (s.setByte a b).memoryCanonical :=
  Memory.wf_write h b ha

/-! Keys (R190). -/

theorem State.keyRead_ok {s : State} {k : Byte} (h : k.toNat < 16 ∨ s.params.oobPolicy = .mask) :
    s.keyRead k = .ok (s.keys.getLsbD (k.toNat % 16)) := by
  unfold State.keyRead
  by_cases hk : k.toNat < 16
  · rw [dif_pos hk, Nat.mod_eq_of_lt hk]; rfl
  · rw [dif_neg hk, h.resolve_left hk]; rfl

theorem State.keyRead_fault {s : State} {k : Byte} (hp : s.params.oobPolicy = .fault) (h : 16 ≤ k.toNat) :
    s.keyRead k = .error (Raise.of .keyOob k.toNat) := by
  unfold State.keyRead
  rw [dif_neg (by omega), hp]

theorem State.keyRead_cases (s : State) (k : Byte) :
    s.keyRead k = .ok (s.keys.getLsbD (k.toNat % 16)) ∨
    (s.params.oobPolicy = .fault ∧ 16 ≤ k.toNat ∧ s.keyRead k = .error (Raise.of .keyOob k.toNat)) := by
  by_cases hk : k.toNat < 16
  · exact .inl (State.keyRead_ok (.inl hk))
  · cases hp : s.params.oobPolicy with
    | mask => exact .inl (State.keyRead_ok (.inr hp))
    | fault => exact .inr ⟨rfl, by omega, State.keyRead_fault hp (by omega)⟩

/-! The stack controller (R111, R112). -/

/-- All a push can do. -/
theorem State.push_cases (s : State) (w : Word) :
    (s.params.stackPolicy = .fault ∧ ∃ h : s.sp.val < 16,
      s.push w = .ok { s with stack := s.stack.set s.sp.val w, sp := ⟨s.sp.val + 1, by omega⟩ }) ∨
    (s.params.stackPolicy = .fault ∧ s.sp.val = 16 ∧ s.push w = .error (Raise.of .stackOverflow 16)) ∨
    (s.params.stackPolicy = .wrap ∧
      s.push w = .ok { s with
        stack := s.stack.set (s.sp.val % 16) w (Nat.mod_lt _ (by decide))
        sp := ⟨(s.sp.val + 1) % 16, by omega⟩ }) := by
  unfold State.push
  cases hp : s.params.stackPolicy with
  | wrap => simp
  | fault =>
    by_cases h : s.sp.val < 16
    · exact .inl ⟨rfl, h, by simp only; rw [dif_pos h]⟩
    · have h16 : s.sp.val = 16 := by omega
      exact .inr (.inl ⟨rfl, h16, by simp only; rw [dif_neg h, h16]⟩)

/-- All a pop can do. -/
theorem State.pop_cases (s : State) :
    (s.params.stackPolicy = .fault ∧ ∃ _h : s.sp.val ≠ 0,
      s.pop = .ok (s.stack[s.sp.val - 1], { s with sp := ⟨s.sp.val - 1, by omega⟩ })) ∨
    (s.params.stackPolicy = .fault ∧ s.sp.val = 0 ∧ s.pop = .error (Raise.of .stackUnderflow 0)) ∨
    (s.params.stackPolicy = .wrap ∧
      s.pop = .ok (s.stack[(s.sp.val + 15) % 16]'(Nat.mod_lt _ (by decide)), { s with sp := ⟨(s.sp.val + 15) % 16, by omega⟩ })) := by
  unfold State.pop
  cases hp : s.params.stackPolicy with
  | wrap => simp
  | fault =>
    by_cases h : s.sp.val = 0
    · simp [h]
    · refine .inl ⟨rfl, h, ?_⟩
      simp only
      rw [dif_neg h]

/-! Ending a handler. -/

theorem takeFault_eq_faultEntry (c : Cause) (n : Nat) (s : State) : takeFault (Raise.of c n) s = faultEntry c n s := rfl

@[simp] theorem finish_ok (s t : State) : finish s (.ok t) = .next t := rfl

@[simp] theorem finish_error (s : State) (r : Raise) : finish s (.error r) = .next (takeFault r s) := rfl

/-- A handler ends in its own state, or in the entry of the fault it raised. -/
theorem finish_cases {s t : State} {r : Except Raise State} (h : finish s r = .next t) :
    r = .ok t ∨ ∃ e, r = .error e ∧ t = takeFault e s := by
  cases r with
  | ok u => cases h; exact .inl rfl
  | error e => cases h; exact .inr ⟨e, rfl, rfl⟩

theorem finish_answers_next (s : State) (r : Except Raise State) : ∃ t, finish s r = .next t := by
  cases r <;> exact ⟨_, rfl⟩

@[simp] theorem Except_map_ok {α β : Type} (f : α → β) (a : α) : (Except.ok a : Except Raise α).map f = .ok (f a) := rfl

@[simp] theorem Except_map_error {α β : Type} (f : α → β) (r : Raise) : (Except.error r : Except Raise α).map f = .error r := rfl

theorem Except_map_eq_ok {α β : Type} {f : α → β} {x : Except Raise α} {b : β} (h : x.map f = .ok b) :
    ∃ a, x = .ok a ∧ f a = b := by
  cases x with
  | ok a => exact ⟨a, rfl, by simpa using h⟩
  | error r => simp at h

theorem Except_map_eq_error {α β : Type} {f : α → β} {x : Except Raise α} {r : Raise} (h : x.map f = .error r) : x = .error r := by
  cases x with
  | ok a => simp at h
  | error q => simpa using h

/-! A cycle's inputs (R252) and fetch (R56). -/

/-- Taking the inputs changes the latch, its schedule and the boot phase, and nothing else. -/
theorem State.takeInputs_eq (s : State) :
    s.takeInputs = { s with keys := s.takeInputs.keys, keyWrites := s.takeInputs.keyWrites, started := true } := by
  unfold State.takeInputs
  split <;> simp_all

theorem State.takeInputs_keys_of_nil {s : State} (h : s.keyWrites = []) :
    s.takeInputs.keys = s.keys ∧ s.takeInputs.keyWrites = [] := by
  simp [State.takeInputs, h]

theorem State.takeInputs_keys_of_cons {s : State} {k : Word} {rest : List Word} (h : s.keyWrites = k :: rest) :
    s.takeInputs.keys = k ∧ s.takeInputs.keyWrites = rest := by
  simp [State.takeInputs, h]

@[simp] theorem State.takeInputs_params (s : State) : s.takeInputs.params = s.params := by rw [State.takeInputs_eq]
@[simp] theorem State.takeInputs_v (s : State) : s.takeInputs.v = s.v := by rw [State.takeInputs_eq]
@[simp] theorem State.takeInputs_i (s : State) : s.takeInputs.i = s.i := by rw [State.takeInputs_eq]
@[simp] theorem State.takeInputs_pc (s : State) : s.takeInputs.pc = s.pc := by rw [State.takeInputs_eq]
@[simp] theorem State.takeInputs_sp (s : State) : s.takeInputs.sp = s.sp := by rw [State.takeInputs_eq]
@[simp] theorem State.takeInputs_stack (s : State) : s.takeInputs.stack = s.stack := by rw [State.takeInputs_eq]
@[simp] theorem State.takeInputs_dt (s : State) : s.takeInputs.dt = s.dt := by rw [State.takeInputs_eq]
@[simp] theorem State.takeInputs_st (s : State) : s.takeInputs.st = s.st := by rw [State.takeInputs_eq]
@[simp] theorem State.takeInputs_fb (s : State) : s.takeInputs.fb = s.fb := by rw [State.takeInputs_eq]
@[simp] theorem State.takeInputs_currentInstruction (s : State) : s.takeInputs.currentInstruction = s.currentInstruction := by
  rw [State.takeInputs_eq]
@[simp] theorem State.takeInputs_memory (s : State) : s.takeInputs.memory = s.memory := by rw [State.takeInputs_eq]
@[simp] theorem State.takeInputs_invalidOpcode (s : State) : s.takeInputs.invalidOpcode = s.invalidOpcode := by rw [State.takeInputs_eq]
@[simp] theorem State.takeInputs_faultCause (s : State) : s.takeInputs.faultCause = s.faultCause := by rw [State.takeInputs_eq]
@[simp] theorem State.takeInputs_faultPc (s : State) : s.takeInputs.faultPc = s.faultPc := by rw [State.takeInputs_eq]
@[simp] theorem State.takeInputs_faultWord (s : State) : s.takeInputs.faultWord = s.faultWord := by rw [State.takeInputs_eq]
@[simp] theorem State.takeInputs_faultInfo (s : State) : s.takeInputs.faultInfo = s.faultInfo := by rw [State.takeInputs_eq]
@[simp] theorem State.takeInputs_draws (s : State) : s.takeInputs.draws = s.draws := by rw [State.takeInputs_eq]
@[simp] theorem State.takeInputs_started (s : State) : s.takeInputs.started = true := by rw [State.takeInputs_eq]

/-- The fetch depends on `pc`, memory and the parameters alone. -/
theorem State.fetch_congr {s t : State} (hp : t.params = s.params) (hm : t.memory = s.memory) (hc : t.pc = s.pc) :
    t.fetch = s.fetch := by
  simp [State.fetch, State.memRead, State.resolve, State.byteAt, hp, hm, hc]

@[simp] theorem State.takeInputs_fetch (s : State) : s.takeInputs.fetch = s.fetch := State.fetch_congr (by simp) (by simp) (by simp)

/-- A fetch in range gives the big-endian word; one out of range raises FETCH_OOB with the first address out of range. -/
theorem State.fetch_cases (s : State) :
    (s.reaches s.pc.toNat ∧ s.reaches (s.pc.toNat + 1) ∧
      s.fetch = .ok (wordOfBytes (s.byteAt (s.pc.toNat % 4096)) (s.byteAt ((s.pc.toNat + 1) % 4096)))) ∨
    (s.params.oobPolicy = .fault ∧ 4095 ≤ s.pc.toNat ∧
      s.fetch = .error (Raise.of .fetchOob (firstOutOfRange s.pc.toNat))) := by
  by_cases h0 : s.reaches s.pc.toNat
  · by_cases h1 : s.reaches (s.pc.toNat + 1)
    · exact .inl ⟨h0, h1, by simp [State.fetch, State.memRead_of_reaches _ h0, State.memRead_of_reaches _ h1]⟩
    · obtain ⟨hp, ha⟩ := State.not_reaches h1
      have hlt : s.pc.toNat < 4096 := h0.resolve_right (by simp [hp])
      refine .inr ⟨hp, by omega, ?_⟩
      have hf := State.memRead_fault (s := s) .fetchOob hp ha
      rw [show s.pc.toNat + 1 = 4096 by omega] at hf
      simp [State.fetch, State.memRead_of_reaches _ h0, firstOutOfRange, hlt, hf, show s.pc.toNat + 1 = 4096 by omega]
  · obtain ⟨hp, ha⟩ := State.not_reaches h0
    refine .inr ⟨hp, by omega, ?_⟩
    simp [State.fetch, State.memRead_fault _ hp ha, firstOutOfRange, show ¬ s.pc.toNat < 4096 by omega]

theorem wordOfBytes_toNat (b0 b1 : Byte) : (wordOfBytes b0 b1).toNat = 256 * b0.toNat + b1.toNat := by
  have := b1.isLt
  simp only [wordOfBytes, BitVec.toNat_append]
  rw [Nat.shiftLeft_eq, Nat.mul_comm, ← Nat.two_pow_add_eq_or_of_lt (by simpa using this)]

/-! The status outputs (R237, R256). -/

theorem State.invalidReport_of_invalid {s : State} (h : s.invalidOpcode = true) :
    s.outputs.invalidReport = some (s.currentInstruction, s.pc - 2) := by
  simp [State.outputs, State.invalidReport, h]

theorem State.invalidReport_of_valid {s : State} (h : s.invalidOpcode = false) : s.outputs.invalidReport = none := by
  simp [State.outputs, State.invalidReport, h]

/-! Timers (R245). -/

theorem countDown_toNat (t : Byte) : (countDown t).toNat = t.toNat - 1 := by
  unfold countDown
  split
  · have := t.isLt; bv_omega
  · simp_all

theorem State.halted_iff (s : State) : s.halted = true ↔ s.faultCause ≠ .none := by simp [State.halted]

theorem State.endCycle_of_running {s : State} (h : s.running) : s.endCycle = s.tick := by
  simp [State.endCycle, State.halted, h]

theorem State.endCycle_of_halted {s : State} (h : s.faultCause ≠ .none) : s.endCycle = s := by
  simp [State.endCycle, State.halted, h]

end Sys2Proof.Machine
end

