-- ==== Sys2Proof/Laws/Exec.lean ====
section
/-! SUPPORT. How each meaning that can raise a fault ends, given what the shared operation it calls answers. -/

namespace Sys2Proof.Machine

theorem exec_call_ok {nnn : Addr12} {s t : State} (e : s.push s.pc = .ok t) :
    exec (.call nnn) s = .next (t.setPc (zext16 nnn)) := by simp [exec, execCall, e]

theorem exec_call_error {nnn : Addr12} {s : State} {c : Cause} {n : Nat} (e : s.push s.pc = .error (Raise.of c n)) :
    exec (.call nnn) s = .next (faultEntry c n s) := by simp [exec, execCall, e, takeFault_eq_faultEntry]

theorem exec_ret_ok {s : State} {wt : Word × State} (e : s.pop = .ok wt) :
    exec .ret s = .next (wt.2.setPc wt.1) := by simp [exec, execRet, e]

theorem exec_ret_error {s : State} {c : Cause} {n : Nat} (e : s.pop = .error (Raise.of c n)) :
    exec .ret s = .next (faultEntry c n s) := by simp [exec, execRet, e, takeFault_eq_faultEntry]

theorem exec_skp_ok {x : Reg} {s : State} {b : Bool} (e : s.keyRead (s.reg x) = .ok b) :
    exec (.skp x) s = .next (s.skipIf b) := by simp [exec, execSkp, e]

theorem exec_skp_error {x : Reg} {s : State} {c : Cause} {n : Nat} (e : s.keyRead (s.reg x) = .error (Raise.of c n)) :
    exec (.skp x) s = .next (faultEntry c n s) := by simp [exec, execSkp, e, takeFault_eq_faultEntry]

theorem exec_sknp_ok {x : Reg} {s : State} {b : Bool} (e : s.keyRead (s.reg x) = .ok b) :
    exec (.sknp x) s = .next (s.skipIf (!b)) := by simp [exec, execSknp, e]

theorem exec_sknp_error {x : Reg} {s : State} {c : Cause} {n : Nat} (e : s.keyRead (s.reg x) = .error (Raise.of c n)) :
    exec (.sknp x) s = .next (faultEntry c n s) := by simp [exec, execSknp, e, takeFault_eq_faultEntry]

theorem exec_ldVxK_pressed {x : Reg} {s : State} {k : Reg} (e : s.lowestKey = some k) :
    exec (.ldVxK x) s = .next (s.setReg x (byteOfReg k)) := by simp [exec, execLdVxK, e]

theorem exec_ldVxK_none {x : Reg} {s : State} (e : s.lowestKey = none) :
    exec (.ldVxK x) s = .next (s.setPc (s.pc - 2)) := by simp [exec, execLdVxK, e]

theorem exec_ldStore_ok {x : Reg} {s t : State} (e : s.storeAt ((regsUpTo x).map fun r => (r.val, s.reg r)) = .ok t) :
    exec (.ldStore x) s = .next (t.setIndex (indexAfterRange s.params.ldstI s.i x)) := by simp [exec, execLdStore, e]

theorem exec_ldStore_error {x : Reg} {s : State} {c : Cause} {n : Nat}
    (e : s.storeAt ((regsUpTo x).map fun r => (r.val, s.reg r)) = .error (Raise.of c n)) :
    exec (.ldStore x) s = .next (faultEntry c n s) := by simp [exec, execLdStore, e, takeFault_eq_faultEntry]

theorem exec_ldLoad_ok {x : Reg} {s t : State} (e : s.loadFrom (regsUpTo x) = .ok t) :
    exec (.ldLoad x) s = .next (t.setIndex (indexAfterRange s.params.ldstI s.i x)) := by simp [exec, execLdLoad, e]

theorem exec_ldLoad_error {x : Reg} {s : State} {c : Cause} {n : Nat}
    (e : s.loadFrom (regsUpTo x) = .error (Raise.of c n)) :
    exec (.ldLoad x) s = .next (faultEntry c n s) := by simp [exec, execLdLoad, e, takeFault_eq_faultEntry]

theorem exec_ldB_ok {x : Reg} {s t : State} (e : s.storeAt (bcdDigits (s.reg x)) = .ok t) :
    exec (.ldB x) s = .next t := by simp [exec, execLdB, e]

theorem exec_ldB_error {x : Reg} {s : State} {c : Cause} {n : Nat}
    (e : s.storeAt (bcdDigits (s.reg x)) = .error (Raise.of c n)) :
    exec (.ldB x) s = .next (faultEntry c n s) := by simp [exec, execLdB, e, takeFault_eq_faultEntry]

theorem exec_drw_ok {x y : Reg} {n : Nibble} {s : State} {fh : Framebuffer × Bool}
    (e : s.drawSprite (spriteColumn (s.reg x)) (spriteRow (s.reg y)) n = .ok fh) :
    exec (.drw x y n) s = .next ((s.setFb fh.1).setReg vf (flagByte fh.2)) := by simp [exec, execDrw, e]

theorem exec_drw_error {x y : Reg} {n : Nibble} {s : State} {c : Cause} {m : Nat}
    (e : s.drawSprite (spriteColumn (s.reg x)) (spriteRow (s.reg y)) n = .error (Raise.of c m)) :
    exec (.drw x y n) s = .next (faultEntry c m s) := by simp [exec, execDrw, e, takeFault_eq_faultEntry]

theorem framePc_skipIf (s : State) (c : Bool) : framePc s (s.skipIf c) := by
  cases c <;> exact ⟨fun _ => rfl, fun _ => rfl, rfl⟩

theorem skipIf_pc (s : State) (c : Bool) : (s.skipIf c).pc = if c then s.pc + 2 else s.pc := by cases c <;> rfl

theorem frameRegs_setReg (s : State) (x : Reg) (b : Byte) : frameRegs [x] s (s.setReg x b) :=
  ⟨fun r hr => State.reg_setReg_other s x r b (by simpa using hr), fun _ => rfl, rfl⟩

/-- What `WriteResultAndFlag` leaves (R140): the result and the flag, VF by the flag order when it is the destination too. -/
theorem writeResultAndFlag_spec (s : State) (x : Reg) (rf : Byte × Bool) :
    frameRegs [x, 15] s (s.writeResultAndFlag x rf) ∧
    (x ≠ 15 → (s.writeResultAndFlag x rf).reg x = rf.1 ∧ (s.writeResultAndFlag x rf).reg 15 = flagByte rf.2) ∧
    (x = 15 → s.params.flagOrder = .flagLast → (s.writeResultAndFlag x rf).reg 15 = flagByte rf.2) ∧
    (x = 15 → s.params.flagOrder = .resultLast → (s.writeResultAndFlag x rf).reg 15 = rf.1) := by
  unfold State.writeResultAndFlag vf
  cases s.params.flagOrder <;> simp only
  · refine ⟨⟨fun r hr => ?_, fun _ => rfl, rfl⟩, fun hx => ⟨?_, by simp⟩, fun _ _ => by simp, by simp⟩
    · simp only [List.mem_cons, List.not_mem_nil, or_false, not_or] at hr
      rw [State.reg_setReg_other _ _ _ _ hr.2, State.reg_setReg_other _ _ _ _ hr.1]
    · rw [State.reg_setReg_other _ _ _ _ hx]; simp
  · refine ⟨⟨fun r hr => ?_, fun _ => rfl, rfl⟩, fun hx => ⟨by simp, ?_⟩, by simp, fun h _ => by subst h; simp⟩
    · simp only [List.mem_cons, List.not_mem_nil, or_false, not_or] at hr
      rw [State.reg_setReg_other _ _ _ _ hr.1, State.reg_setReg_other _ _ _ _ hr.2]
    · rw [State.reg_setReg_other _ _ _ _ (Ne.symm hx)]; simp

end Sys2Proof.Machine
end

