-- ==== Sys2Proof/Laws/Graphics.lean ====
section
/-! SUPPORT. The framebuffer and the blit engine: cells after a flip, and what a row and a whole sprite do, cell by cell, and where they fault. -/

namespace Sys2Proof.Machine

/-! Cells. -/

theorem fbCell_of_lt (f : Framebuffer) {px py : Nat} (h : py < 32) : fbCell f px py = f[py].getLsbD px := by
  rw [fbCell, dif_pos h]

theorem fbCell_fbFlip (f : Framebuffer) {px py qx qy : Nat} (h1 : px < 64) (h2 : py < 32) (_h3 : qx < 64) (h4 : qy < 32) :
    fbCell (fbFlip f px py) qx qy = (fbCell f qx qy != decide (qx = px ∧ qy = py)) := by
  have one : ((1 : FbRow) <<< px).getLsbD qx = decide (qx = px) := by
    rw [BitVec.getLsbD_shiftLeft, show (1 : FbRow) = 1#64 from rfl, BitVec.getLsbD_one]
    by_cases h : qx = px
    · simp [h, h1]
    · by_cases hl : qx < px
      · simp [hl, h]
      · simp [h]; omega
  rw [fbCell_of_lt _ h4, fbCell_of_lt _ h4, fbFlip, dif_pos h2, Vector.getElem_set]
  by_cases hy : py = qy
  · subst hy; rw [if_pos rfl, BitVec.getLsbD_xor, one]; simp
  · rw [if_neg hy]; simp [Ne.symm hy]

/-- Two framebuffers with the same cells are the same. -/
theorem fb_ext {f g : Framebuffer} (h : ∀ px py, px < 64 → py < 32 → fbCell f px py = fbCell g px py) : f = g := by
  apply Vector.ext
  intro py hy
  apply BitVec.eq_of_getLsbD_eq
  intro px hx
  have := h px py hx hy
  rwa [fbCell_of_lt _ hy, fbCell_of_lt _ hy] at this

@[simp] theorem fbCell_fbClear (px py : Nat) : fbCell fbClear px py = false := by
  unfold fbCell fbClear; split <;> simp

/-- The read port shows the cells (R253). -/
theorem fbPort_getLsbD (f : Framebuffer) {px py : Nat} (h1 : px < 64) (h2 : py < 32) :
    (fbPort f).getLsbD (py * 64 + px) = fbCell f px py := by
  unfold fbPort
  rw [BitVec.getLsbD_ofFnLE, dif_pos (by omega)]
  rw [show (py * 64 + px) % 64 = px by omega, show (py * 64 + px) / 64 = py by omega]

/-! A pixel. -/

theorem plotPixel_on {edge : SpriteEdge} {px py : Nat} {acc : Framebuffer × Bool} (h : ¬ offScreen px py) :
    plotPixel edge px py acc = .ok (fbFlip acc.1 px py, acc.2 || fbCell acc.1 px py) := by
  unfold plotPixel
  rw [if_neg h]

theorem plotPixel_clip {px py : Nat} {acc : Framebuffer × Bool} (h : offScreen px py) :
    plotPixel .clip px py acc = .ok acc := by
  unfold plotPixel
  rw [if_pos h]

theorem plotPixel_fault {px py : Nat} {acc : Framebuffer × Bool} (h : offScreen px py) (hx : px < 256) :
    plotPixel .fault px py acc = .error (Raise.of .spriteEdge (256 * py + px)) := by
  unfold plotPixel
  rw [if_pos h]
  have : (py <<< 8) ||| px = 256 * py + px := by
    rw [← Nat.shiftLeft_add_eq_or_of_lt (show px < 2 ^ 8 by omega), Nat.shiftLeft_eq]; omega
  simp only [this]

/-! A row. -/

/-- Some column of `cols` has a set bit over column `qx`. -/
def rowCovers (bits : Byte) (x0 : Nat) (cols : List Nat) (qx : Nat) : Prop := ∃ c ∈ cols, qx = x0 + c ∧ spriteBit bits c = true

/-- A row where no bit faults: the cells under its set bits are flipped, and `hit` tells whether one of them was on. -/
theorem drawCols_ok (edge : SpriteEdge) (x0 py : Nat) (bits : Byte) (cols : List Nat) (acc : Framebuffer × Bool)
    (hd : cols.Nodup) (he : edge = .fault → ∀ c ∈ cols, spriteBit bits c = true → ¬ offScreen (x0 + c) py) :
    ∃ r, cols.foldlM (fun a col => if spriteBit bits col then plotPixel edge (x0 + col) py a else .ok a) acc = Except.ok r ∧
      (∀ qx qy, qx < 64 → qy < 32 →
        (fbCell r.1 qx qy = true ↔ (fbCell acc.1 qx qy = true ↔ ¬ (qy = py ∧ rowCovers bits x0 cols qx)))) ∧
      (r.2 = true ↔ acc.2 = true ∨
        ∃ qx, qx < 64 ∧ py < 32 ∧ rowCovers bits x0 cols qx ∧ fbCell acc.1 qx py = true) := by
  induction cols generalizing acc with
  | nil => exact ⟨acc, rfl, by simp [rowCovers], by simp [rowCovers]⟩
  | cons c rest ih =>
    rw [List.nodup_cons] at hd
    have hrest : edge = .fault → ∀ d ∈ rest, spriteBit bits d = true → ¬ offScreen (x0 + d) py :=
      fun h d hd' => he h d (by simp [hd'])
    -- a column whose bit is clear, or is past the edge under `clip`, leaves the accumulator as it is
    have skip : (if spriteBit bits c then plotPixel edge (x0 + c) py acc else Except.ok acc) = Except.ok acc →
        (∀ qx, qx < 64 → py < 32 → (rowCovers bits x0 (c :: rest) qx ↔ rowCovers bits x0 rest qx)) →
        ∃ r, (c :: rest).foldlM (fun a col => if spriteBit bits col then plotPixel edge (x0 + col) py a else .ok a) acc
            = Except.ok r ∧
          (∀ qx qy, qx < 64 → qy < 32 →
            (fbCell r.1 qx qy = true ↔ (fbCell acc.1 qx qy = true ↔ ¬ (qy = py ∧ rowCovers bits x0 (c :: rest) qx)))) ∧
          (r.2 = true ↔ acc.2 = true ∨
            ∃ qx, qx < 64 ∧ py < 32 ∧ rowCovers bits x0 (c :: rest) qx ∧ fbCell acc.1 qx py = true) := by
      intro h1 h2
      obtain ⟨r, e, e1, e2⟩ := ih acc hd.2 hrest
      refine ⟨r, ?_, fun qx qy hx hy => ?_, ?_⟩
      · rw [List.foldlM_cons, h1]; exact e
      · rw [e1 qx qy hx hy]
        by_cases hq : qy = py
        · subst hq; simp only [h2 qx hx hy]
        · simp [hq]
      · rw [e2]
        constructor
        · rintro (h | ⟨qx, a, b, c', d⟩)
          · exact .inl h
          · exact .inr ⟨qx, a, b, (h2 qx a b).mpr c', d⟩
        · rintro (h | ⟨qx, a, b, c', d⟩)
          · exact .inl h
          · exact .inr ⟨qx, a, b, (h2 qx a b).mp c', d⟩
    by_cases hb : spriteBit bits c = true
    · by_cases ho : offScreen (x0 + c) py
      · cases edge with
        | fault => exact absurd ho (he rfl c (by simp) hb)
        | clip =>
          refine skip (by rw [if_pos hb, plotPixel_clip ho]) (fun qx hx hy => ?_)
          constructor
          · rintro ⟨d, hd', h1, h2⟩
            rcases List.mem_cons.mp hd' with rfl | hd'
            · exact absurd ho (by simp only [offScreen]; omega)
            · exact ⟨d, hd', h1, h2⟩
          · rintro ⟨d, hd', h1, h2⟩; exact ⟨d, by simp [hd'], h1, h2⟩
      · have hin : x0 + c < 64 ∧ py < 32 := by simp only [offScreen] at ho; omega
        obtain ⟨r, e, e1, e2⟩ := ih (fbFlip acc.1 (x0 + c) py, acc.2 || fbCell acc.1 (x0 + c) py) hd.2 hrest
        have hnot : ¬ rowCovers bits x0 rest (x0 + c) := by
          rintro ⟨d, hd', h1, h2⟩
          exact hd.1 (by rwa [show c = d by omega])
        have hcons : ∀ qx, rowCovers bits x0 (c :: rest) qx ↔ qx = x0 + c ∨ rowCovers bits x0 rest qx := by
          intro qx
          constructor
          · rintro ⟨d, hd', h1, h2⟩
            rcases List.mem_cons.mp hd' with rfl | hd'
            · exact .inl h1
            · exact .inr ⟨d, hd', h1, h2⟩
          · rintro (rfl | ⟨d, hd', h1, h2⟩)
            · exact ⟨c, by simp, rfl, hb⟩
            · exact ⟨d, by simp [hd'], h1, h2⟩
        refine ⟨r, ?_, fun qx qy hx hy => ?_, ?_⟩
        · rw [List.foldlM_cons, if_pos hb, plotPixel_on ho]; exact e
        · rw [e1 qx qy hx hy, fbCell_fbFlip _ hin.1 hin.2 hx hy, hcons]
          by_cases hq : qx = x0 + c
          · subst hq
            by_cases hy' : qy = py
            · subst hy'; simp [hnot]
            · simp [hy']
          · by_cases hy' : qy = py <;> simp [hq, hy']
        · rw [e2]
          simp only [Bool.or_eq_true]
          constructor
          · rintro ((h | h) | ⟨qx, a, b, c', d⟩)
            · exact .inl h
            · exact .inr ⟨x0 + c, hin.1, hin.2, (hcons _).mpr (.inl rfl), h⟩
            · have hne : qx ≠ x0 + c := fun h => hnot (h ▸ c')
              rw [fbCell_fbFlip _ hin.1 hin.2 a b] at d
              simp only [hne, false_and, decide_false, Bool.bne_false] at d
              exact .inr ⟨qx, a, b, (hcons _).mpr (.inr c'), d⟩
          · rintro (h | ⟨qx, a, b, c', d⟩)
            · exact .inl (.inl h)
            · rcases (hcons qx).mp c' with rfl | c'
              · exact .inl (.inr d)
              · have hne : qx ≠ x0 + c := fun h => hnot (h ▸ c')
                refine .inr ⟨qx, a, b, c', ?_⟩
                rw [fbCell_fbFlip _ hin.1 hin.2 a b]
                simp only [hne, false_and, decide_false, Bool.bne_false]
                exact d
    · refine skip (by rw [if_neg hb]) (fun qx _ _ => ?_)
      constructor
      · rintro ⟨d, hd', h1, h2⟩
        rcases List.mem_cons.mp hd' with rfl | hd'
        · exact absurd h2 hb
        · exact ⟨d, hd', h1, h2⟩
      · rintro ⟨d, hd', h1, h2⟩; exact ⟨d, by simp [hd'], h1, h2⟩

/-- The first set bit of a row past the edge raises SPRITE_EDGE (R236, R240). -/
theorem drawCols_fault (x0 py : Nat) (bits : Byte) (pre : List Nat) (c : Nat) (post : List Nat) (acc : Framebuffer × Bool)
    (hb : spriteBit bits c = true) (ho : offScreen (x0 + c) py) (hx : x0 + c < 256)
    (he : ∀ d ∈ pre, spriteBit bits d = true → ¬ offScreen (x0 + d) py) :
    (pre ++ c :: post).foldlM (fun a col => if spriteBit bits col then plotPixel .fault (x0 + col) py a else .ok a) acc =
      Except.error (Raise.of .spriteEdge (256 * py + (x0 + c))) := by
  induction pre generalizing acc with
  | nil =>
    rw [List.nil_append, List.foldlM_cons, if_pos hb, plotPixel_fault ho hx]
    rfl
  | cons d rest ih =>
    have hrest := fun k hk => he k (List.mem_cons_of_mem d hk)
    by_cases hd : spriteBit bits d = true
    · rw [List.cons_append, List.foldlM_cons, if_pos hd, plotPixel_on (he d (by simp) hd)]
      exact ih _ hrest
    · rw [List.cons_append, List.foldlM_cons, if_neg hd]
      exact ih _ hrest

theorem mem_spriteCols (c : Nat) : c ∈ spriteCols ↔ c < 8 := by
  simp only [spriteCols, List.mem_cons, List.not_mem_nil, or_false]; omega

/-- The columns split at any of them into the lower ones and the rest. -/
theorem spriteCols_split (c : Nat) (h : c < 8) : ∃ pre post, spriteCols = pre ++ c :: post ∧ ∀ d ∈ pre, d < c :=
  ⟨spriteCols.take c, spriteCols.drop (c + 1), by interval_cases c <;> rfl, by interval_cases c <;> decide⟩

/-! The sprite. -/

/-- The byte of row `row` (R171). -/
def State.spriteByte (s : State) (row : Nat) : Byte := s.byteAt ((s.i.toNat + row) % 4096)

/-- `spriteCovers` row by row. -/
theorem State.spriteCovers_iff (s : State) (x0 y0 n px py : Nat) :
    s.spriteCovers x0 y0 n px py = true ↔ ∃ row, row < n ∧ py = y0 + row ∧ rowCovers (s.spriteByte row) x0 spriteCols px := by
  simp only [State.spriteCovers, Bool.and_eq_true, decide_eq_true_eq, State.spriteByte, rowCovers]
  constructor
  · rintro ⟨⟨⟨⟨h1, h2⟩, h3⟩, h4⟩, h5⟩
    refine ⟨py - y0, by omega, by omega, px - x0, (mem_spriteCols _).mpr (by omega), by omega, ?_⟩
    exact h5
  · rintro ⟨row, h1, rfl, c, hc, rfl, h2⟩
    have := (mem_spriteCols c).mp hc
    refine ⟨⟨⟨⟨by omega, by omega⟩, by omega⟩, by omega⟩, ?_⟩
    rw [show y0 + row - y0 = row by omega, show x0 + c - x0 = c by omega]
    exact h2

theorem State.drawRow_of_reaches {s : State} {x0 y0 row : Nat} {acc : Framebuffer × Bool} (h : s.reaches (s.i.toNat + row)) :
    s.drawRow x0 y0 acc row = drawBits s.params.spriteEdge x0 (y0 + row) (s.spriteByte row) acc := by
  simp only [State.drawRow, State.dataAddr, State.memRead_of_reaches _ h, State.spriteByte]

/-- The first `n` rows, none of which faults. -/
theorem State.drawRows_ok (s : State) (x0 y0 n : Nat) (acc : Framebuffer × Bool)
    (hr : ∀ row, row < n → s.reaches (s.i.toNat + row))
    (he : s.params.spriteEdge = .fault → ∀ px py, offScreen px py → s.spriteCovers x0 y0 n px py = false) :
    ∃ r, (List.range n).foldlM (s.drawRow x0 y0) acc = Except.ok r ∧
      (∀ qx qy, qx < 64 → qy < 32 →
        (fbCell r.1 qx qy = true ↔ (fbCell acc.1 qx qy = true ↔ ¬ s.spriteCovers x0 y0 n qx qy = true))) ∧
      (r.2 = true ↔ acc.2 = true ∨
        ∃ qx qy, qx < 64 ∧ qy < 32 ∧ s.spriteCovers x0 y0 n qx qy = true ∧ fbCell acc.1 qx qy = true) := by
  induction n with
  | zero =>
    have h0 : ∀ px py, ¬ s.spriteCovers x0 y0 0 px py = true := by
      intro px py; rw [State.spriteCovers_iff]; rintro ⟨row, h, _⟩; omega
    exact ⟨acc, rfl, fun _ _ _ _ => by simp [h0], by simp [h0]⟩
  | succ n ih =>
    have hsucc : ∀ px py, s.spriteCovers x0 y0 (n + 1) px py = true ↔
        s.spriteCovers x0 y0 n px py = true ∨ (py = y0 + n ∧ rowCovers (s.spriteByte n) x0 spriteCols px) := by
      intro px py
      rw [State.spriteCovers_iff, State.spriteCovers_iff]
      constructor
      · rintro ⟨row, h1, h2, h3⟩
        by_cases hn : row = n
        · exact .inr ⟨hn ▸ h2, hn ▸ h3⟩
        · exact .inl ⟨row, by omega, h2, h3⟩
      · rintro (⟨row, h1, h2, h3⟩ | ⟨h1, h2⟩)
        · exact ⟨row, by omega, h2, h3⟩
        · exact ⟨n, by omega, h1, h2⟩
    have hrow : ∀ px, ¬ s.spriteCovers x0 y0 n px (y0 + n) = true := by
      intro px; rw [State.spriteCovers_iff]; rintro ⟨row, h1, h2, _⟩; omega
    obtain ⟨r, e, e1, e2⟩ := ih (fun row h => hr row (by omega)) (fun h px py ho => by
      have := he h px py ho
      by_contra hc
      rw [Bool.not_eq_false] at hc
      exact absurd ((hsucc px py).mpr (.inl hc)) (by rw [this]; simp))
    obtain ⟨q, g, g1, g2⟩ := drawCols_ok s.params.spriteEdge x0 (y0 + n) (s.spriteByte n) spriteCols r (by decide)
      (fun h c hc hb ho => by
        have := he h (x0 + c) (y0 + n) ho
        exact absurd ((hsucc _ _).mpr (.inr ⟨rfl, c, hc, rfl, hb⟩)) (by rw [this]; simp))
    refine ⟨q, ?_, fun qx qy hx hy => ?_, ?_⟩
    · rw [List.range_succ, List.foldlM_append, e]
      show (List.foldlM (s.drawRow x0 y0) r [n]) = _
      rw [List.foldlM_cons, State.drawRow_of_reaches (hr n (by omega))]
      show (drawBits _ _ _ _ r >>= _) = _
      unfold drawBits
      rw [g]; rfl
    · rw [g1 qx qy hx hy, e1 qx qy hx hy, hsucc]
      by_cases hy' : qy = y0 + n
      · subst hy'; simp [hrow]
      · simp [hy']
    · rw [g2, e2]
      constructor
      · rintro ((h | ⟨qx, qy, a, b, c, d⟩) | ⟨qx, a, b, c, d⟩)
        · exact .inl h
        · exact .inr ⟨qx, qy, a, b, (hsucc _ _).mpr (.inl c), d⟩
        · refine .inr ⟨qx, y0 + n, a, b, (hsucc _ _).mpr (.inr ⟨rfl, c⟩), ?_⟩
          have := (e1 qx (y0 + n) a b).mp d
          exact this.mpr (hrow qx)
      · rintro (h | ⟨qx, qy, a, b, c, d⟩)
        · exact .inl (.inl h)
        · rcases (hsucc _ _).mp c with c' | ⟨rfl, c'⟩
          · exact .inl (.inr ⟨qx, qy, a, b, c', d⟩)
          · refine .inr ⟨qx, a, b, c', (e1 qx (y0 + n) a b).mpr ?_⟩
            exact ⟨fun _ => hrow qx, fun _ => d⟩

/-- A row that faults ends the drawing with its fault, when no row before it faults (R240). -/
theorem State.drawRows_error (s : State) (x0 y0 n row : Nat) (acc : Framebuffer × Bool) (f : Raise) (hn : row < n)
    (hr : ∀ k, k < row → s.reaches (s.i.toNat + k))
    (he : s.params.spriteEdge = .fault → ∀ px py, offScreen px py → s.spriteCovers x0 y0 row px py = false)
    (hf : ∀ a, s.drawRow x0 y0 a row = .error f) :
    (List.range n).foldlM (s.drawRow x0 y0) acc = Except.error f := by
  obtain ⟨r, e, _, _⟩ := s.drawRows_ok x0 y0 row acc hr he
  rw [show n = row + (1 + (n - row - 1)) by omega, List.range_add, List.foldlM_append, e]
  show List.foldlM (s.drawRow x0 y0) r _ = _
  rw [Nat.add_comm 1, List.range_succ_eq_map]
  simp only [List.map_cons, List.foldlM_cons, Nat.add_zero, hf]
  rfl

/-! What a drawing that ends well says of its rows and bits. -/

theorem drawCols_conditions (edge : SpriteEdge) (x0 py : Nat) (bits : Byte) (cols : List Nat) (acc r : Framebuffer × Bool)
    (hc : ∀ c ∈ cols, c < 8) (hx : x0 < 64)
    (h : cols.foldlM (fun a col => if spriteBit bits col then plotPixel edge (x0 + col) py a else .ok a) acc = Except.ok r) :
    edge = .fault → ∀ c ∈ cols, spriteBit bits c = true → ¬ offScreen (x0 + c) py := by
  induction cols generalizing acc with
  | nil => simp
  | cons d rest ih =>
    intro he c hmem hb ho
    subst he
    have hd := hc d (by simp)
    have hrest := fun k hk => hc k (List.mem_cons_of_mem d hk)
    rw [List.foldlM_cons] at h
    by_cases hbd : spriteBit bits d = true
    · rw [if_pos hbd] at h
      by_cases hod : offScreen (x0 + d) py
      · rw [plotPixel_fault hod (by omega)] at h; cases h
      · rw [plotPixel_on hod] at h
        rcases List.mem_cons.mp hmem with rfl | hmem
        · exact hod ho
        · exact ih _ hrest h rfl c hmem hb ho
    · rw [if_neg hbd] at h
      rcases List.mem_cons.mp hmem with rfl | hmem
      · exact hbd hb
      · exact ih _ hrest h rfl c hmem hb ho

/-- A drawing that ends well reached every row and, under SPRITE_EDGE = fault, had no set bit past the edge. -/
theorem State.drawRows_conditions (s : State) (x0 y0 n : Nat) (acc r : Framebuffer × Bool) (hx : x0 < 64)
    (h : (List.range n).foldlM (s.drawRow x0 y0) acc = Except.ok r) :
    (∀ row, row < n → s.reaches (s.i.toNat + row)) ∧
    (s.params.spriteEdge = .fault → ∀ px py, offScreen px py → s.spriteCovers x0 y0 n px py = false) := by
  induction n generalizing r with
  | zero =>
    refine ⟨fun row h => absurd h (Nat.not_lt_zero _), fun _ px py _ => ?_⟩
    by_contra hc
    rw [Bool.not_eq_false, State.spriteCovers_iff] at hc
    obtain ⟨row, h, _⟩ := hc
    omega
  | succ n ih =>
    rw [List.range_succ, List.foldlM_append] at h
    cases hq : (List.range n).foldlM (s.drawRow x0 y0) acc with
    | error e => rw [hq] at h; cases h
    | ok q =>
      rw [hq] at h
      replace h : (s.drawRow x0 y0 q n >>= fun a => Except.ok a) = Except.ok r := h
      obtain ⟨h1, h2⟩ := ih q hq
      have hreach : s.reaches (s.i.toNat + n) := by
        by_contra hc
        obtain ⟨hp, ha⟩ := State.not_reaches hc
        rw [State.drawRow, State.dataAddr, State.memRead_fault _ hp ha] at h
        cases h
      refine ⟨fun row hrow => ?_, fun he px py ho => ?_⟩
      · by_cases hn : row = n
        · exact hn ▸ hreach
        · exact h1 row (by omega)
      · by_contra hc
        rw [Bool.not_eq_false, State.spriteCovers_iff] at hc
        obtain ⟨row, g1, g2, c, g3, g4, g5⟩ := hc
        by_cases hn : row = n
        · rw [State.drawRow_of_reaches hreach] at h
          cases hd : drawBits s.params.spriteEdge x0 (y0 + n) (s.spriteByte n) q with
          | error e => rw [hd] at h; cases h
          | ok w =>
            have := drawCols_conditions _ _ _ _ _ _ _ (fun c hc => (mem_spriteCols c).mp hc) hx hd he c g3 (hn ▸ g5)
            exact this (by rw [← g4, ← hn, ← g2]; exact ho)
        · have := h2 he px py ho
          have g : s.spriteCovers x0 y0 n px py = true :=
            (s.spriteCovers_iff _ _ _ _ _).mpr ⟨row, by omega, g2, c, g3, g4, g5⟩
          rw [this] at g; cases g

end Sys2Proof.Machine
end

