-- ==== Sys2Proof/Laws/Ranges.lean ====
section
/-! SUPPORT. The register-range and digit stores and loads: what a run of byte accesses does when every address is reached, and the fault of the first that is not. -/

namespace Sys2Proof.Machine

/-! A run of stores. -/

/-- Every address reached: only memory changes, it stays canonical, bytes off the run are as before, and where no two cells of the
run are the same each holds its byte. -/
theorem storeFold_ok (base : Nat) (cells : List (Nat × Byte)) (t : State) (hc : t.memoryCanonical)
    (hr : ∀ c ∈ cells, t.reaches (base + c.1)) :
    ∃ u, cells.foldlM (fun (t : State) c => t.memWrite (base + c.1) c.2) t = Except.ok u ∧
      u = { t with memory := u.memory } ∧ u.memoryCanonical ∧
      (∀ a, (∀ c ∈ cells, a ≠ (base + c.1) % 4096) → u.byteAt a = t.byteAt a) ∧
      (cells.Pairwise (fun c d => (base + c.1) % 4096 ≠ (base + d.1) % 4096) →
        ∀ c ∈ cells, u.byteAt ((base + c.1) % 4096) = c.2) := by
  induction cells generalizing t with
  | nil => exact ⟨t, rfl, rfl, hc, fun _ _ => rfl, fun _ c h => by simp at h⟩
  | cons c rest ih =>
    have h0 := hr c (by simp)
    have hw := State.memWrite_of_reaches c.2 h0
    obtain ⟨u, e, e1, e2, e3, e4⟩ := ih (t.setByte ((base + c.1) % 4096) c.2)
      (State.memoryCanonical_setByte hc _ (Nat.mod_lt _ (by decide))) (fun d hd => hr d (by simp [hd]))
    refine ⟨u, ?_, ?_, e2, fun a ha => ?_, fun hp d hd => ?_⟩
    · simp only [List.foldlM_cons, hw]; exact e
    · rw [e1]; rfl
    · rw [e3 a (fun d hd => ha d (by simp [hd]))]
      exact State.byteAt_setByte_other hc _ (ha c (by simp))
    · rw [List.pairwise_cons] at hp
      rcases List.mem_cons.mp hd with rfl | hd
      · rw [e3 _ (fun k hk => hp.1 k hk)]
        exact State.byteAt_setByte_same hc _ _
      · exact e4 hp.2 d hd

/-- The first address not reached raises WRITE_OOB, whatever comes after it (R12). -/
theorem storeFold_error (base : Nat) (pre : List (Nat × Byte)) (c : Nat × Byte) (post : List (Nat × Byte)) (t : State)
    (hp : t.params.oobPolicy = .fault) (hr : ∀ d ∈ pre, base + d.1 < 4096) (hf : 4096 ≤ base + c.1) :
    (pre ++ c :: post).foldlM (fun (t : State) c => t.memWrite (base + c.1) c.2) t =
      Except.error (Raise.of .writeOob (base + c.1)) := by
  induction pre generalizing t with
  | nil =>
    simp only [List.nil_append, List.foldlM_cons, State.memWrite_fault _ hp hf]
    rfl
  | cons d rest ih =>
    have hw := State.memWrite_of_reaches (s := t) d.2 (.inl (hr d (by simp)))
    simp only [List.cons_append, List.foldlM_cons, hw]
    exact ih (t.setByte _ _) hp (fun k hk => hr k (by simp [hk]))

/-! A run of loads. -/

/-- Every address reached: each register of the run holds its byte, the others are as before, and nothing else changes. -/
theorem loadFold_ok (s : State) (base : Nat) (regs : List Reg) (t : State) (hr : ∀ r ∈ regs, s.reaches (base + r.val))
    (hd : regs.Nodup) :
    ∃ u, regs.foldlM (fun (t : State) r => (s.memRead .readOob (base + r.val)).map fun b => t.setReg r b) t = Except.ok u ∧
      u = { t with v := u.v } ∧ (∀ r, r ∉ regs → u.reg r = t.reg r) ∧
      (∀ r ∈ regs, u.reg r = s.byteAt ((base + r.val) % 4096)) := by
  induction regs generalizing t with
  | nil => exact ⟨t, rfl, rfl, fun _ _ => rfl, fun r h => by simp at h⟩
  | cons r rest ih =>
    have h0 := State.memRead_of_reaches .readOob (hr r (by simp))
    rw [List.nodup_cons] at hd
    obtain ⟨u, e, e1, e2, e3⟩ := ih (t.setReg r (s.byteAt ((base + r.val) % 4096))) (fun q hq => hr q (by simp [hq])) hd.2
    refine ⟨u, ?_, ?_, fun q hq => ?_, fun q hq => ?_⟩
    · simp only [List.foldlM_cons, h0, Except_map_ok]; exact e
    · rw [e1]; rfl
    · simp only [List.mem_cons, not_or] at hq
      rw [e2 q hq.2, State.reg_setReg_other _ _ _ _ hq.1]
    · rcases List.mem_cons.mp hq with rfl | hq
      · rw [e2 q hd.1]; simp
      · exact e3 q hq

/-- The first address not reached raises READ_OOB (R12). -/
theorem loadFold_error (s : State) (base : Nat) (pre : List Reg) (r : Reg) (post : List Reg) (t : State)
    (hp : s.params.oobPolicy = .fault) (hr : ∀ q ∈ pre, base + q.val < 4096) (hf : 4096 ≤ base + r.val) :
    (pre ++ r :: post).foldlM (fun (t : State) r => (s.memRead .readOob (base + r.val)).map fun b => t.setReg r b) t =
      Except.error (Raise.of .readOob (base + r.val)) := by
  induction pre generalizing t with
  | nil =>
    simp only [List.nil_append, List.foldlM_cons, State.memRead_fault _ hp hf, Except_map_error]
    rfl
  | cons d rest ih =>
    have hw := State.memRead_of_reaches (s := s) .readOob (.inl (hr d (by simp)))
    simp only [List.cons_append, List.foldlM_cons, hw, Except_map_ok]
    exact ih _ (fun k hk => hr k (by simp [hk]))

/-! The registers V0..VX. -/

theorem mem_regsUpTo (x r : Reg) : r ∈ regsUpTo x ↔ r.val ≤ x.val := by revert x r; decide

theorem regsUpTo_nodup (x : Reg) : (regsUpTo x).Nodup := by revert x; decide

/-- The range is ascending: it splits at any of its registers into the lower ones and the rest (R12). -/
theorem regsUpTo_split (x r : Reg) (h : r.val ≤ x.val) :
    ∃ pre post, regsUpTo x = pre ++ r :: post ∧ ∀ q ∈ pre, q.val < r.val := by
  have key : ∀ x r : Reg, r.val ≤ x.val →
      regsUpTo x = (allRegs.take r.val) ++ r :: ((regsUpTo x).drop (r.val + 1)) ∧ ∀ q ∈ allRegs.take r.val, q.val < r.val := by
    decide
  obtain ⟨h1, h2⟩ := key x r h
  exact ⟨_, _, h1, h2⟩

end Sys2Proof.Machine
end

