-- ==== Sys2Proof/Laws/Inversion.lean ====
section
/-! SUPPORT. What a meaning can do, said once: it ends well and touches only the program's own state, or it takes a fault that its instruction, its operands and the parameters allow. And what a cycle can do, said once. -/

namespace Sys2Proof.Machine

/-! The faults of the runs of accesses. -/

theorem storeFold_raise (base : Nat) (cells : List (Nat × Byte)) (t : State) (e : Raise)
    (h : cells.foldlM (fun (t : State) c => t.memWrite (base + c.1) c.2) t = Except.error e) :
    t.params.oobPolicy = .fault ∧ ∃ c ∈ cells, 4096 ≤ base + c.1 ∧ e = Raise.of .writeOob (base + c.1) := by
  induction cells generalizing t with
  | nil => cases h
  | cons c rest ih =>
    rw [List.foldlM_cons] at h
    by_cases hr : t.reaches (base + c.1)
    · rw [State.memWrite_of_reaches _ hr] at h
      obtain ⟨h1, d, h2, h3⟩ := ih (t.setByte _ _) h
      exact ⟨h1, d, by simp [h2], h3⟩
    · obtain ⟨hp, ha⟩ := State.not_reaches hr
      rw [State.memWrite_fault _ hp ha] at h
      cases h
      exact ⟨hp, c, by simp, ha, rfl⟩

theorem loadFold_raise (s : State) (base : Nat) (regs : List Reg) (t : State) (e : Raise)
    (h : regs.foldlM (fun (t : State) r => (s.memRead .readOob (base + r.val)).map fun b => t.setReg r b) t = Except.error e) :
    s.params.oobPolicy = .fault ∧ ∃ r ∈ regs, 4096 ≤ base + r.val ∧ e = Raise.of .readOob (base + r.val) := by
  induction regs generalizing t with
  | nil => cases h
  | cons r rest ih =>
    rw [List.foldlM_cons] at h
    by_cases hr : s.reaches (base + r.val)
    · rw [State.memRead_of_reaches _ hr] at h
      obtain ⟨h1, d, h2, h3⟩ := ih _ h
      exact ⟨h1, d, by simp [h2], h3⟩
    · obtain ⟨hp, ha⟩ := State.not_reaches hr
      rw [State.memRead_fault _ hp ha] at h
      cases h
      exact ⟨hp, r, by simp, ha, rfl⟩

theorem drawCols_raise (edge : SpriteEdge) (x0 py : Nat) (bits : Byte) (cols : List Nat) (acc : Framebuffer × Bool) (e : Raise)
    (hc : ∀ c ∈ cols, c < 8) (hx : x0 < 64)
    (h : cols.foldlM (fun a col => if spriteBit bits col then plotPixel edge (x0 + col) py a else .ok a) acc = Except.error e) :
    edge = .fault ∧ ∃ px, offScreen px py ∧ px < 256 ∧ e = Raise.of .spriteEdge (256 * py + px) := by
  induction cols generalizing acc with
  | nil => cases h
  | cons d rest ih =>
    have hd := hc d (by simp)
    have hrest := fun k hk => hc k (List.mem_cons_of_mem d hk)
    rw [List.foldlM_cons] at h
    by_cases hb : spriteBit bits d = true
    · rw [if_pos hb] at h
      by_cases ho : offScreen (x0 + d) py
      · cases edge with
        | clip => rw [plotPixel_clip ho] at h; exact ih _ hrest h
        | fault =>
          rw [plotPixel_fault ho (by omega)] at h
          cases h
          exact ⟨rfl, x0 + d, ho, by omega, rfl⟩
      · rw [plotPixel_on ho] at h; exact ih _ hrest h
    · rw [if_neg hb] at h; exact ih _ hrest h

theorem drawRows_raise (s : State) (x0 y0 : Nat) (rows : List Nat) (acc : Framebuffer × Bool) (e : Raise) (hx : x0 < 64)
    (h : rows.foldlM (s.drawRow x0 y0) acc = Except.error e) :
    (s.params.oobPolicy = .fault ∧ ∃ row ∈ rows, 4096 ≤ s.i.toNat + row ∧ e = Raise.of .readOob (s.i.toNat + row)) ∨
    (s.params.spriteEdge = .fault ∧ ∃ px, ∃ row ∈ rows, offScreen px (y0 + row) ∧ px < 256 ∧
      e = Raise.of .spriteEdge (256 * (y0 + row) + px)) := by
  induction rows generalizing acc with
  | nil => cases h
  | cons row rest ih =>
    rw [List.foldlM_cons] at h
    by_cases hr : s.reaches (s.i.toNat + row)
    · rw [State.drawRow_of_reaches hr] at h
      cases hd : drawBits s.params.spriteEdge x0 (y0 + row) (s.spriteByte row) acc with
      | ok a =>
        rw [hd] at h
        rcases ih a h with ⟨h1, r, h2, h3⟩ | ⟨h1, px, r, h2, h3⟩
        · exact .inl ⟨h1, r, by simp [h2], h3⟩
        · exact .inr ⟨h1, px, r, by simp [h2], h3⟩
      | error f =>
        rw [hd] at h
        cases h
        obtain ⟨h1, px, h2, h3, h4⟩ := drawCols_raise _ _ _ _ _ _ _ (fun c hc => (mem_spriteCols c).mp hc) hx hd
        exact .inr ⟨h1, px, row, by simp, h2, h3, h4⟩
    · obtain ⟨hp, ha⟩ := State.not_reaches hr
      rw [State.drawRow, State.dataAddr, State.memRead_fault _ hp ha] at h
      cases h
      exact .inl ⟨hp, row, by simp, ha, rfl⟩

/-! The faults of an instruction. -/

/-- Instruction `i` may raise cause `c` with the number `n` in state `s`: the rows of R232. -/
def mayRaise (s : State) (c : Cause) (n : Nat) : Instr → Prop
  | .call _ => c = .stackOverflow ∧ s.params.stackPolicy = .fault ∧ n = 16 ∧ s.sp.val = 16
  | .ret => c = .stackUnderflow ∧ s.params.stackPolicy = .fault ∧ n = 0 ∧ s.sp.val = 0
  | .skp x | .sknp x => c = .keyOob ∧ s.params.oobPolicy = .fault ∧ n = (s.reg x).toNat ∧ 16 ≤ n ∧ n < 256
  | .ldStore _ | .ldB _ => c = .writeOob ∧ s.params.oobPolicy = .fault ∧ 4096 ≤ n ∧ n ≤ 0x1000E
  | .ldLoad _ => c = .readOob ∧ s.params.oobPolicy = .fault ∧ 4096 ≤ n ∧ n ≤ 0x1000E
  | .drw _ _ _ =>
    (c = .readOob ∧ s.params.oobPolicy = .fault ∧ 4096 ≤ n ∧ n ≤ 0x1000E) ∨
    (c = .spriteEdge ∧ s.params.spriteEdge = .fault ∧ ∃ px py, offScreen px py ∧ px < 256 ∧ py < 64 ∧ n = 256 * py + px)
  | .cls | .jp _ | .seImm _ _ | .sneImm _ _ | .seReg _ _ | .ldImm _ _ | .addImm _ _ | .ldReg _ _ | .orReg _ _
  | .andReg _ _ | .xorReg _ _ | .addReg _ _ | .sub _ _ | .shr _ _ | .subn _ _ | .shl _ _ | .sneReg _ _ | .ldI _
  | .jpV0 _ | .rnd _ _ | .ldVxDt _ | .ldVxK _ | .ldDtVx _ | .ldStVx _ | .addI _ | .ldF _ => False

/-- The program's own state may differ from `s` to `t`, and nothing else. -/
def endsWell (s t : State) : Prop :=
  t = { s with
    v := t.v, i := t.i, pc := t.pc, sp := t.sp, stack := t.stack, dt := t.dt, st := t.st, fb := t.fb, memory := t.memory
    draws := t.draws }

/-- What instruction `i` may change when it raises nothing: the fields its rule writes, and no other. -/
def ownFrame (s t : State) : Instr → Prop
  | .cls => t = { s with fb := t.fb }
  | .ret => t = { s with pc := t.pc, sp := t.sp }
  | .call _ => t = { s with pc := t.pc, sp := t.sp, stack := t.stack }
  | .jp _ | .jpV0 _ | .seImm _ _ | .sneImm _ _ | .seReg _ _ | .sneReg _ _ | .skp _ | .sknp _ => t = { s with pc := t.pc }
  | .ldImm x _ | .addImm x _ | .ldReg x _ | .orReg x _ | .andReg x _ | .xorReg x _ | .ldVxDt x =>
    t = { s with v := t.v } ∧ ∀ r, r ≠ x → t.reg r = s.reg r
  | .addReg x _ | .sub x _ | .subn x _ | .shr x _ | .shl x _ =>
    t = { s with v := t.v } ∧ ∀ r, r ≠ x → r ≠ 15 → t.reg r = s.reg r
  | .rnd x _ => t = { s with v := t.v, draws := t.draws } ∧ ∀ r, r ≠ x → t.reg r = s.reg r
  | .drw _ _ _ => t = { s with v := t.v, fb := t.fb } ∧ ∀ r, r ≠ 15 → t.reg r = s.reg r
  | .ldVxK x => t = { s with v := t.v, pc := t.pc } ∧ ∀ r, r ≠ x → t.reg r = s.reg r
  | .ldDtVx _ => t = { s with dt := t.dt }
  | .ldStVx _ => t = { s with st := t.st }
  | .ldI _ | .addI _ | .ldF _ => t = { s with i := t.i }
  | .ldB _ => t = { s with memory := t.memory }
  | .ldStore _ => t = { s with memory := t.memory, i := t.i }
  | .ldLoad x => t = { s with v := t.v, i := t.i } ∧ ∀ r : Reg, x.val < r.val → t.reg r = s.reg r

theorem ownFrame_endsWell {i : Instr} {s t : State} (h : ownFrame s t i) : endsWell s t := by
  unfold endsWell
  cases i <;> simp only [ownFrame] at h <;> first | rw [h] | rw [h.1]

theorem skipIf_frame (s : State) (c : Bool) : s.skipIf c = { s with pc := (s.skipIf c).pc } := by cases c <;> rfl

theorem setReg_frame (s : State) (x : Reg) (b : Byte) :
    s.setReg x b = { s with v := (s.setReg x b).v } ∧ ∀ r, r ≠ x → (s.setReg x b).reg r = s.reg r :=
  ⟨rfl, fun r hr => State.reg_setReg_other s x r b hr⟩

theorem writeResultAndFlag_frame (s : State) (x : Reg) (rf : Byte × Bool) :
    s.writeResultAndFlag x rf = { s with v := (s.writeResultAndFlag x rf).v } ∧
    ∀ r, r ≠ x → r ≠ 15 → (s.writeResultAndFlag x rf).reg r = s.reg r :=
  ⟨(writeResultAndFlag_spec s x rf).1.2.2, fun r h1 h2 => (writeResultAndFlag_spec s x rf).1.1 r (by simp [h1, h2])⟩

theorem storeFold_frame (base : Nat) (cells : List (Nat × Byte)) (t u : State)
    (h : cells.foldlM (fun (t : State) c => t.memWrite (base + c.1) c.2) t = Except.ok u) : u = { t with memory := u.memory } := by
  induction cells generalizing t with
  | nil => cases h; rfl
  | cons c rest ih =>
    rw [List.foldlM_cons] at h
    by_cases hr : t.reaches (base + c.1)
    · rw [State.memWrite_of_reaches _ hr] at h
      exact (ih _ h).trans rfl
    · obtain ⟨hp, ha⟩ := State.not_reaches hr
      rw [State.memWrite_fault _ hp ha] at h
      cases h

theorem loadFold_frame (s : State) (base : Nat) (regs : List Reg) (t u : State)
    (h : regs.foldlM (fun (t : State) r => (s.memRead .readOob (base + r.val)).map fun b => t.setReg r b) t = Except.ok u) :
    u = { t with v := u.v } ∧ ∀ r, r ∉ regs → u.reg r = t.reg r := by
  induction regs generalizing t with
  | nil => cases h; exact ⟨rfl, fun _ _ => rfl⟩
  | cons r rest ih =>
    rw [List.foldlM_cons] at h
    by_cases hr : s.reaches (base + r.val)
    · rw [State.memRead_of_reaches _ hr] at h
      obtain ⟨h1, h2⟩ := ih _ h
      refine ⟨h1.trans rfl, fun q hq => ?_⟩
      simp only [List.mem_cons, not_or] at hq
      rw [h2 q hq.2, State.reg_setReg_other _ _ _ _ hq.1]
    · obtain ⟨hp, ha⟩ := State.not_reaches hr
      rw [State.memRead_fault _ hp ha] at h
      cases h

/-- What a meaning can do: it answers a next state, in which it ended well or took a fault its instruction may raise. -/
theorem exec_cases (i : Instr) (s : State) :
    ∃ t, exec i s = .next t ∧ (ownFrame s t i ∨ ∃ c n, mayRaise s c n i ∧ t = faultEntry c n s) := by
  have hi := s.i.isLt
  cases i with
  | call nnn =>
    rcases s.push_cases s.pc with ⟨_, _, e⟩ | ⟨hp, h, e⟩ | ⟨_, e⟩
    · exact ⟨_, exec_call_ok e, .inl rfl⟩
    · exact ⟨_, exec_call_error e, .inr ⟨_, _, ⟨rfl, hp, rfl, h⟩, rfl⟩⟩
    · exact ⟨_, exec_call_ok e, .inl rfl⟩
  | ret =>
    rcases s.pop_cases with ⟨_, _, e⟩ | ⟨hp, h, e⟩ | ⟨_, e⟩
    · exact ⟨_, exec_ret_ok e, .inl rfl⟩
    · exact ⟨_, exec_ret_error e, .inr ⟨_, _, ⟨rfl, hp, rfl, h⟩, rfl⟩⟩
    · exact ⟨_, exec_ret_ok e, .inl rfl⟩
  | skp x =>
    rcases s.keyRead_cases (s.reg x) with e | ⟨hp, h, e⟩
    · exact ⟨_, exec_skp_ok e, .inl (skipIf_frame _ _)⟩
    · exact ⟨_, exec_skp_error e, .inr ⟨_, _, ⟨rfl, hp, rfl, h, (s.reg x).isLt⟩, rfl⟩⟩
  | sknp x =>
    rcases s.keyRead_cases (s.reg x) with e | ⟨hp, h, e⟩
    · exact ⟨_, exec_sknp_ok e, .inl (skipIf_frame _ _)⟩
    · exact ⟨_, exec_sknp_error e, .inr ⟨_, _, ⟨rfl, hp, rfl, h, (s.reg x).isLt⟩, rfl⟩⟩
  | ldVxK x =>
    cases e : s.lowestKey with
    | none => exact ⟨_, exec_ldVxK_none e, .inl ⟨rfl, fun _ _ => rfl⟩⟩
    | some k => exact ⟨_, exec_ldVxK_pressed e, .inl ⟨rfl, (setReg_frame _ _ _).2⟩⟩
  | ldStore x =>
    cases e : s.storeAt ((regsUpTo x).map fun r => (r.val, s.reg r)) with
    | ok t => exact ⟨_, exec_ldStore_ok e, .inl (by rw [storeFold_frame _ _ _ _ e]; rfl)⟩
    | error r =>
      obtain ⟨hp, c, hc, h, rfl⟩ := storeFold_raise _ _ _ _ e
      obtain ⟨q, _, rfl⟩ := List.mem_map.mp hc
      have := q.isLt
      simp only at h
      exact ⟨_, exec_ldStore_error e, .inr ⟨_, _, ⟨rfl, hp, h, by omega⟩, rfl⟩⟩
  | ldB x =>
    cases e : s.storeAt (bcdDigits (s.reg x)) with
    | ok t => exact ⟨_, exec_ldB_ok e, .inl (by rw [storeFold_frame _ _ _ _ e]; rfl)⟩
    | error r =>
      obtain ⟨hp, c, hc, h, rfl⟩ := storeFold_raise _ _ _ _ e
      have hc3 : c.1 < 3 := by
        simp only [bcdDigits, List.mem_cons, List.not_mem_nil, or_false] at hc
        rcases hc with rfl | rfl | rfl <;> simp
      exact ⟨_, exec_ldB_error e, .inr ⟨_, _, ⟨rfl, hp, h, by omega⟩, rfl⟩⟩
  | ldLoad x =>
    cases e : s.loadFrom (regsUpTo x) with
    | ok t => exact ⟨_, exec_ldLoad_ok e, .inl ⟨by rw [(loadFold_frame _ _ _ _ _ e).1]; rfl,
        fun r hr => (loadFold_frame _ _ _ _ _ e).2 r (by rw [mem_regsUpTo]; omega)⟩⟩
    | error r =>
      obtain ⟨hp, q, _, h, rfl⟩ := loadFold_raise _ _ _ _ _ e
      have := q.isLt
      exact ⟨_, exec_ldLoad_error e, .inr ⟨_, _, ⟨rfl, hp, h, by omega⟩, rfl⟩⟩
  | drw x y n =>
    cases e : s.drawSprite (spriteColumn (s.reg x)) (spriteRow (s.reg y)) n with
    | ok fh => exact ⟨_, exec_drw_ok e, .inl ⟨rfl, fun r hr => State.reg_setReg_other _ _ r _ hr⟩⟩
    | error r =>
      have hn := n.isLt
      have hy : spriteRow (s.reg y) < 32 := Nat.mod_lt _ (by decide)
      rcases drawRows_raise _ _ _ _ _ _ (Nat.mod_lt _ (by decide)) e with ⟨hp, row, hr, h, rfl⟩ | ⟨hp, px, row, hr, ho, hx, rfl⟩
      · rw [List.mem_range] at hr
        exact ⟨_, exec_drw_error e, .inr ⟨_, _, .inl ⟨rfl, hp, h, by omega⟩, rfl⟩⟩
      · rw [List.mem_range] at hr
        exact ⟨_, exec_drw_error e, .inr ⟨_, _, .inr ⟨rfl, hp, px, _, ho, hx, by omega, rfl⟩, rfl⟩⟩
  | seImm x nn => exact ⟨_, rfl, .inl (skipIf_frame _ _)⟩
  | sneImm x nn => exact ⟨_, rfl, .inl (skipIf_frame _ _)⟩
  | seReg x y => exact ⟨_, rfl, .inl (skipIf_frame _ _)⟩
  | sneReg x y => exact ⟨_, rfl, .inl (skipIf_frame _ _)⟩
  | addReg x y => exact ⟨_, rfl, .inl (writeResultAndFlag_frame _ _ _)⟩
  | sub x y => exact ⟨_, rfl, .inl (writeResultAndFlag_frame _ _ _)⟩
  | subn x y => exact ⟨_, rfl, .inl (writeResultAndFlag_frame _ _ _)⟩
  | shr x y => exact ⟨_, rfl, .inl (writeResultAndFlag_frame _ _ _)⟩
  | shl x y => exact ⟨_, rfl, .inl (writeResultAndFlag_frame _ _ _)⟩
  | cls => exact ⟨_, rfl, .inl rfl⟩
  | jp nnn => exact ⟨_, rfl, .inl rfl⟩
  | ldImm x nn => exact ⟨_, rfl, .inl (setReg_frame _ _ _)⟩
  | addImm x nn => exact ⟨_, rfl, .inl (setReg_frame _ _ _)⟩
  | ldReg x y => exact ⟨_, rfl, .inl (setReg_frame _ _ _)⟩
  | orReg x y => exact ⟨_, rfl, .inl (setReg_frame _ _ _)⟩
  | andReg x y => exact ⟨_, rfl, .inl (setReg_frame _ _ _)⟩
  | xorReg x y => exact ⟨_, rfl, .inl (setReg_frame _ _ _)⟩
  | ldI nnn => exact ⟨_, rfl, .inl rfl⟩
  | jpV0 nnn => exact ⟨_, rfl, .inl rfl⟩
  | rnd x nn => exact ⟨_, rfl, .inl ⟨rfl, fun r hr => State.reg_setReg_other s x r _ hr⟩⟩
  | ldVxDt x => exact ⟨_, rfl, .inl (setReg_frame _ _ _)⟩
  | ldDtVx x => exact ⟨_, rfl, .inl rfl⟩
  | ldStVx x => exact ⟨_, rfl, .inl rfl⟩
  | addI x => exact ⟨_, rfl, .inl rfl⟩
  | ldF x => exact ⟨_, rfl, .inl rfl⟩

/-- No instruction raises NONE. -/
theorem mayRaise_ne_none {s : State} {c : Cause} {n : Nat} {i : Instr} (h : mayRaise s c n i) : c ≠ .none := by
  cases i <;> simp only [mayRaise] at h
  all_goals first
    | exact h.elim
    | (rintro rfl; simp at h)

/-- Inversion: a next state of a meaning is one of the two. -/
theorem exec_next_cases {i : Instr} {s t : State} (h : exec i s = .next t) :
    ownFrame s t i ∨ ∃ c n, mayRaise s c n i ∧ t = faultEntry c n s := by
  obtain ⟨u, hu, hc⟩ := exec_cases i s
  rw [h] at hu; cases hu
  exact hc

/-- A meaning that ends running raised nothing. -/
theorem exec_ownFrame {i : Instr} {s t : State} (h : exec i s = .next t) (ht : t.running) : ownFrame s t i := by
  rcases exec_next_cases h with h' | ⟨c, n, hc, rfl⟩
  · exact h'
  · exact absurd ht (mayRaise_ne_none hc)

theorem endsWell_running {s t : State} (h : endsWell s t) (hs : s.running) : t.running := by
  unfold endsWell at h; rw [h]; exact hs

/-- A DRW that ends running drew its whole sprite. -/
theorem exec_drw_running {x y : Reg} {n : Nibble} {s t : State} (h : exec (.drw x y n) s = .next t) (ht : t.running) :
    ∃ r, s.drawSprite (spriteColumn (s.reg x)) (spriteRow (s.reg y)) n = .ok r ∧
      t = (s.setFb r.1).setReg vf (flagByte r.2) := by
  cases hd : s.drawSprite (spriteColumn (s.reg x)) (spriteRow (s.reg y)) n with
  | ok r => rw [exec_drw_ok hd] at h; cases h; exact ⟨r, rfl, rfl⟩
  | error e =>
    exfalso
    rcases drawRows_raise _ _ _ _ _ _ (Nat.mod_lt _ (by decide)) hd with ⟨_, row, _, _, rfl⟩ | ⟨_, px, row, _, _, _, rfl⟩
    all_goals rw [exec_drw_error hd] at h; cases h; cases ht

/-! What a cycle can do. -/

/-- The state before the handler, field by field. -/
theorem handlerState_eq (w : Word) (s : State) : (s.takeInputs.latchWord w).setInvalid false = handlerState w s := by
  unfold handlerState State.latchWord State.setInvalid; simp

/-- A halted CORE (R239). -/
theorem step_halted {s : State} (h : s.faultCause ≠ .none) : step s = .next (s.setInvalid false) := by
  unfold step cycle
  rw [if_pos (by rw [State.halted_iff]; exact h)]

/-- A running CORE whose fetch is out of range. -/
theorem step_fetch_error {s : State} {r : Raise} (hs : s.running) (h : s.fetch = .error r) :
    step s = .next (takeFetchFault r (s.takeInputs.setInvalid false)) := by
  unfold step cycle runningCycle
  rw [if_neg (by rw [State.halted_iff]; exact fun h => h hs)]
  simp only [State.takeInputs_fetch, h]

/-- A running CORE that fetched an invalid word. -/
theorem step_invalid {s : State} {w : Word} {r : Reject} (hs : s.running) (h : s.fetch = .ok w)
    (hd : decodeWord s.params w = .error r) : step s = .next ((handlerState w s).setInvalid true).tick := by
  unfold step cycle runningCycle executeWord
  rw [if_neg (by rw [State.halted_iff]; exact fun h => h hs)]
  simp only [State.takeInputs_fetch, h, State.takeInputs_params, hd, handlerState_eq, invalidHandler]
  rw [State.endCycle_of_running]
  simp [State.running, handlerState, hs]

/-- A running CORE that fetched an instruction. -/
theorem step_instr {s t : State} {w : Word} {i : Instr} (hs : s.running) (h : s.fetch = .ok w)
    (hd : decodeWord s.params w = .ok i) (he : exec i (handlerState w s) = .next t) : step s = .next t.endCycle := by
  unfold step cycle runningCycle executeWord
  rw [if_neg (by rw [State.halted_iff]; exact fun h => h hs)]
  simp only [State.takeInputs_fetch, h, State.takeInputs_params, hd, handlerState_eq, he]

/-- The four ways of a cycle. -/
theorem step_cases (s : State) :
    (s.faultCause ≠ .none ∧ step s = .next (s.setInvalid false)) ∨
    (s.running ∧ s.params.oobPolicy = .fault ∧ 4095 ≤ s.pc.toNat ∧
      s.fetch = .error (Raise.of .fetchOob (firstOutOfRange s.pc.toNat)) ∧
      step s = .next (takeFetchFault (Raise.of .fetchOob (firstOutOfRange s.pc.toNat)) (s.takeInputs.setInvalid false))) ∨
    (s.running ∧ ∃ w r, s.fetch = .ok w ∧ decodeWord s.params w = .error r ∧
      step s = .next ((handlerState w s).setInvalid true).tick) ∨
    (s.running ∧ ∃ w i t, s.fetch = .ok w ∧ decodeWord s.params w = .ok i ∧ exec i (handlerState w s) = .next t ∧
      step s = .next t.endCycle ∧
      ((ownFrame (handlerState w s) t i ∧ t.running) ∨ ∃ c n, mayRaise (handlerState w s) c n i ∧ t = faultEntry c n (handlerState w s))) := by
  by_cases hs : s.running
  · rcases s.fetch_cases with ⟨_, _, h⟩ | ⟨hp, ha, h⟩
    · cases hd : decodeWord s.params (wordOfBytes (s.byteAt (s.pc.toNat % 4096)) (s.byteAt ((s.pc.toNat + 1) % 4096))) with
      | error r => exact .inr (.inr (.inl ⟨hs, _, r, h, hd, step_invalid hs h hd⟩))
      | ok i =>
        obtain ⟨t, he, hc⟩ := exec_cases i (handlerState (wordOfBytes (s.byteAt (s.pc.toNat % 4096)) (s.byteAt ((s.pc.toNat + 1) % 4096))) s)
        refine .inr (.inr (.inr ⟨hs, _, i, t, h, hd, he, step_instr hs h hd he, ?_⟩))
        rcases hc with hc | hc
        · exact .inl ⟨hc, endsWell_running (ownFrame_endsWell hc) (by simp [State.running, handlerState, hs])⟩
        · exact .inr hc
    · exact .inr (.inl ⟨hs, hp, ha, h, step_fetch_error hs h⟩)
  · exact .inl ⟨hs, step_halted hs⟩

/-! Runs of cycles. -/

/-- Every cycle answers a next state. -/
theorem step_answers_next (s : State) : ∃ t, step s = .next t := by
  rcases step_cases s with ⟨_, h⟩ | ⟨_, _, _, _, h⟩ | ⟨_, _, _, _, _, h⟩ | ⟨_, _, _, _, _, _, _, h, _⟩ <;> exact ⟨_, h⟩

theorem run_of_step {n : Nat} {s t : State} (h : step s = .next t) : Sys2Proof.core.run (n + 1) s = Sys2Proof.core.run n t := by
  have h' : Sys2Proof.core.step s = .next t := h
  simp only [Host.Core.run]
  rw [h']

/-- A run of `n + 1` cycles is a cycle and a run of `n`. -/
theorem run_succ_cases {n : Nat} {s u : State} (h : Sys2Proof.core.run (n + 1) s = .next u) :
    ∃ t, step s = .next t ∧ Sys2Proof.core.run n t = .next u := by
  obtain ⟨t, ht⟩ := step_answers_next s
  exact ⟨t, ht, by rw [← run_of_step ht]; exact h⟩

end Sys2Proof.Machine
end

