-- ==== Sys2Proof/Laws/Congruence.lean ====
section
/-! SUPPORT. What the meanings keep, whatever the instruction: the canonical form of memory and the range of the stack pointer; and how a run of accesses behaves on two states that differ in a field it does not look at. -/

namespace Sys2Proof.Machine

/-! Kept by every meaning. -/

theorem storeFold_canonical (base : Nat) (cells : List (Nat × Byte)) (t u : State) (hc : t.memoryCanonical)
    (h : cells.foldlM (fun (t : State) c => t.memWrite (base + c.1) c.2) t = Except.ok u) : u.memoryCanonical := by
  induction cells generalizing t with
  | nil => cases h; exact hc
  | cons c rest ih =>
    rw [List.foldlM_cons] at h
    by_cases hr : t.reaches (base + c.1)
    · rw [State.memWrite_of_reaches _ hr] at h
      exact ih _ (State.memoryCanonical_setByte hc _ (Nat.mod_lt _ (by decide))) h
    · obtain ⟨hp, ha⟩ := State.not_reaches hr
      rw [State.memWrite_fault _ hp ha] at h
      cases h

/-- Every meaning keeps memory in its canonical form. -/
theorem exec_memoryCanonical {i : Instr} {s t : State} (hc : s.memoryCanonical) (h : exec i s = .next t) :
    t.memoryCanonical := by
  have same : ∀ u : State, u.memory = s.memory → u.params = s.params → u.memoryCanonical := by
    intro u h1 h2; unfold State.memoryCanonical; rw [h1, h2]; exact hc
  have run : ∀ cells u, s.storeAt cells = .ok u → u.memoryCanonical :=
    fun cells u hu => storeFold_canonical s.i.toNat cells s u hc hu
  rcases exec_next_cases h with hw | ⟨c, n, _, rfl⟩
  · cases i
    case ldStore x =>
      rcases finish_cases h with h1 | ⟨e, _, rfl⟩
      · obtain ⟨u, hu, rfl⟩ := Except_map_eq_ok h1
        exact run _ u hu
      · exact same _ rfl rfl
    case ldB x =>
      rcases finish_cases h with h1 | ⟨e, _, rfl⟩
      · exact run _ t h1
      · exact same _ rfl rfl
    all_goals
      simp only [ownFrame] at hw
      first
      | exact same _ (by rw [hw]) (by rw [hw])
      | exact same _ (by rw [hw.1]) (by rw [hw.1])
  · exact same _ rfl rfl

/-- Every meaning keeps the stack pointer in the range of its policy. -/
theorem exec_stackPointerLegal {i : Instr} {s t : State} (hl : s.stackPointerLegal) (h : exec i s = .next t) :
    t.stackPointerLegal := by
  have same : ∀ u : State, u.sp = s.sp → u.params = s.params → u.stackPointerLegal := by
    intro u h1 h2; unfold State.stackPointerLegal; rw [h1, h2]; exact hl
  rcases exec_next_cases h with hw | ⟨c, n, _, rfl⟩
  · cases i
    case call nnn =>
      rcases s.push_cases s.pc with ⟨hp, _, e⟩ | ⟨hp, _, e⟩ | ⟨hp, e⟩
      · rw [exec_call_ok e] at h; cases h; intro hq; simp [hp] at hq
      · rw [exec_call_error e] at h; cases h; exact same _ rfl rfl
      · rw [exec_call_ok e] at h; cases h; intro _; exact Nat.mod_lt _ (by decide)
    case ret =>
      rcases s.pop_cases with ⟨hp, _, e⟩ | ⟨hp, _, e⟩ | ⟨hp, e⟩
      · rw [exec_ret_ok e] at h; cases h; intro hq; simp [hp] at hq
      · rw [exec_ret_error e] at h; cases h; exact same _ rfl rfl
      · rw [exec_ret_ok e] at h; cases h; intro _; exact Nat.mod_lt _ (by decide)
    all_goals
      simp only [ownFrame] at hw
      first
      | exact same _ (by rw [hw]) (by rw [hw])
      | exact same _ (by rw [hw.1]) (by rw [hw.1])
  · exact same _ rfl rfl

/-! Two states that differ in a field a run of accesses does not look at. -/

theorem storeFold_map (f : State → State) (hf : ∀ t a b, (f t).memWrite a b = (t.memWrite a b).map f) (base : Nat)
    (cells : List (Nat × Byte)) (t : State) :
    cells.foldlM (fun (t : State) c => t.memWrite (base + c.1) c.2) (f t) =
      (cells.foldlM (fun (t : State) c => t.memWrite (base + c.1) c.2) t).map f := by
  induction cells generalizing t with
  | nil => rfl
  | cons c rest ih =>
    rw [List.foldlM_cons, List.foldlM_cons, hf]
    cases t.memWrite (base + c.1) c.2 with
    | ok u => exact ih u
    | error r => rfl

theorem loadFold_map (f : State → State) (hf : ∀ t r b, (f t).setReg r b = f (t.setReg r b)) (s s' : State)
    (hs : ∀ a, s'.memRead .readOob a = s.memRead .readOob a) (base : Nat) (regs : List Reg) (t : State) :
    regs.foldlM (fun (t : State) r => (s'.memRead .readOob (base + r.val)).map fun b => t.setReg r b) (f t) =
      (regs.foldlM (fun (t : State) r => (s.memRead .readOob (base + r.val)).map fun b => t.setReg r b) t).map f := by
  induction regs generalizing t with
  | nil => rfl
  | cons r rest ih =>
    rw [List.foldlM_cons, List.foldlM_cons, hs]
    cases s.memRead .readOob (base + r.val) with
    | ok b =>
      simp only [Except_map_ok, hf]
      exact ih (t.setReg r b)
    | error e => rfl

/-- What a byte read gives depends on memory and the parameters alone. -/
theorem State.memRead_congr {s s' : State} (hm : s'.memory = s.memory) (hp : s'.params = s.params) (c : Cause) (a : Nat) :
    s'.memRead c a = s.memRead c a := by
  simp [State.memRead, State.resolve, State.byteAt, hm, hp]

/-- What a sprite draws depends on memory, `I`, the framebuffer and the parameters alone. -/
theorem State.drawSprite_congr {s s' : State} (hm : s'.memory = s.memory) (hp : s'.params = s.params) (hi : s'.i = s.i)
    (hf : s'.fb = s.fb) (x0 y0 : Nat) (n : Nibble) : s'.drawSprite x0 y0 n = s.drawSprite x0 y0 n := by
  have h : s'.drawRow x0 y0 = s.drawRow x0 y0 := by
    funext acc row
    simp [State.drawRow, State.dataAddr, State.memRead_congr hm hp, hi, hp]
  simp [State.drawSprite, h, hf]

/-- How a handler ends when its run was transported along `f`. -/
theorem finish_map (f : State → State) (hf : ∀ r s, takeFault r (f s) = f (takeFault r s)) (s : State) (r : Except Raise State) :
    finish (f s) (r.map f) = (match finish s r with | .next t => .next (f t) | .fault a => .fault a | .refused a => .refused a) := by
  cases r with
  | ok t => rfl
  | error e => simp [hf]

end Sys2Proof.Machine
end

