-- ==== Sys2Proof/Laws/Decode.lean ====
section
/-! SUPPORT. The fields of a word and the formats of the encoder as numbers, and what the fields of an encoded word are. -/

namespace Sys2Proof

theorem append_toNat {m n : Nat} (x : BitVec m) (y : BitVec n) : (x ++ y).toNat = x.toNat * 2 ^ n + y.toNat := by
  rw [BitVec.toNat_append, Nat.shiftLeft_eq, Nat.mul_comm, ← Nat.two_pow_add_eq_or_of_lt y.isLt]

/-! The fields of R82 as numbers. -/

theorem familyOf_toNat (w : Word) : (familyOf w).toNat = w.toNat / 4096 := by
  have := w.isLt
  simp only [familyOf, BitVec.extractLsb'_toNat, Nat.shiftRight_eq_div_pow]
  omega

theorem fieldX_val (w : Word) : (fieldX w).val = w.toNat / 256 % 16 := by
  show (w.extractLsb' 8 4).toNat = _
  simp only [BitVec.extractLsb'_toNat, Nat.shiftRight_eq_div_pow]

theorem fieldY_val (w : Word) : (fieldY w).val = w.toNat / 16 % 16 := by
  show (w.extractLsb' 4 4).toNat = _
  simp only [BitVec.extractLsb'_toNat, Nat.shiftRight_eq_div_pow]

theorem fieldN_toNat (w : Word) : (fieldN w).toNat = w.toNat % 16 := by
  simp only [fieldN, BitVec.extractLsb'_toNat, Nat.shiftRight_zero]

theorem fieldNN_toNat (w : Word) : (fieldNN w).toNat = w.toNat % 256 := by
  simp only [fieldNN, BitVec.extractLsb'_toNat, Nat.shiftRight_zero]

theorem fieldNNN_toNat (w : Word) : (fieldNNN w).toNat = w.toNat % 4096 := by
  simp only [fieldNNN, BitVec.extractLsb'_toNat, Nat.shiftRight_zero]

/-! The formats of R81 as numbers. -/

theorem regBits_toNat (r : Reg) : (regBits r).toNat = r.val := rfl

theorem formatA_toNat (f : Nibble) (a : Addr12) : (formatA f a).toNat = 4096 * f.toNat + a.toNat := by
  show (f ++ a).toNat = _
  rw [append_toNat]; omega

theorem formatR_toNat (f : Nibble) (x : Reg) (nn : Byte) :
    (formatR f x nn).toNat = 4096 * f.toNat + 256 * x.val + nn.toNat := by
  show ((f ++ regBits x) ++ nn).toNat = _
  rw [append_toNat, append_toNat, regBits_toNat]; omega

theorem formatRR_toNat (f : Nibble) (x y : Reg) (n : Nibble) :
    (formatRR f x y n).toNat = 4096 * f.toNat + 256 * x.val + 16 * y.val + n.toNat := by
  show ((f ++ regBits x) ++ (regBits y ++ n)).toNat = _
  rw [append_toNat, append_toNat, append_toNat, regBits_toNat, regBits_toNat]; omega

/-! The fields of an encoded word. -/

@[simp] theorem familyOf_formatA (f : Nibble) (a : Addr12) : familyOf (formatA f a) = f := by
  apply BitVec.eq_of_toNat_eq; rw [familyOf_toNat, formatA_toNat]; omega

@[simp] theorem fieldNNN_formatA (f : Nibble) (a : Addr12) : fieldNNN (formatA f a) = a := by
  apply BitVec.eq_of_toNat_eq; rw [fieldNNN_toNat, formatA_toNat]; omega

@[simp] theorem familyOf_formatR (f : Nibble) (x : Reg) (nn : Byte) : familyOf (formatR f x nn) = f := by
  apply BitVec.eq_of_toNat_eq; rw [familyOf_toNat, formatR_toNat]; omega

@[simp] theorem fieldX_formatR (f : Nibble) (x : Reg) (nn : Byte) : fieldX (formatR f x nn) = x := by
  apply Fin.ext; rw [fieldX_val, formatR_toNat]; omega

@[simp] theorem fieldNN_formatR (f : Nibble) (x : Reg) (nn : Byte) : fieldNN (formatR f x nn) = nn := by
  apply BitVec.eq_of_toNat_eq; rw [fieldNN_toNat, formatR_toNat]; omega

@[simp] theorem fieldN_formatR (f : Nibble) (x : Reg) (nn : Byte) : fieldN (formatR f x nn) = nn.extractLsb' 0 4 := by
  apply BitVec.eq_of_toNat_eq
  rw [fieldN_toNat, formatR_toNat, BitVec.extractLsb'_toNat, Nat.shiftRight_zero]; omega

@[simp] theorem familyOf_formatRR (f : Nibble) (x y : Reg) (n : Nibble) : familyOf (formatRR f x y n) = f := by
  apply BitVec.eq_of_toNat_eq; rw [familyOf_toNat, formatRR_toNat]; omega

@[simp] theorem fieldX_formatRR (f : Nibble) (x y : Reg) (n : Nibble) : fieldX (formatRR f x y n) = x := by
  apply Fin.ext; rw [fieldX_val, formatRR_toNat]; omega

@[simp] theorem fieldY_formatRR (f : Nibble) (x y : Reg) (n : Nibble) : fieldY (formatRR f x y n) = y := by
  apply Fin.ext; rw [fieldY_val, formatRR_toNat]; omega

@[simp] theorem fieldN_formatRR (f : Nibble) (x y : Reg) (n : Nibble) : fieldN (formatRR f x y n) = n := by
  apply BitVec.eq_of_toNat_eq; rw [fieldN_toNat, formatRR_toNat]; omega

/-- A word is put together again from its bytes. -/
@[simp] theorem wordOfBytes_bytesOfWord (w : Word) : wordOfBytes (bytesOfWord w).1 (bytesOfWord w).2 = w := by
  apply BitVec.eq_of_toNat_eq
  show ((w.extractLsb' 8 8) ++ (w.extractLsb' 0 8)).toNat = _
  rw [append_toNat, BitVec.extractLsb'_toNat, BitVec.extractLsb'_toNat, Nat.shiftRight_eq_div_pow, Nat.shiftRight_zero]
  have := w.isLt
  omega

end Sys2Proof
end

