-- ==== Sys2Proof/Laws/PerInstr.lean ====
section
/-! SUPPORT. The families of statements made per instruction (LAWS.json). EncodesRow: the word of an instruction lies in its row of spec/opcode_table.json, that is (w & mask) = match (R88). -/

namespace Sys2Proof.Laws.EncodesRow

/-- The mask and the match of the instruction's row (R88). -/
def row : Instr → Word × Word
  | .cls => (0xF00F#16, 0x0000#16)
  | .ret => (0xF00F#16, 0x000E#16)
  | .jp _ => (0xF000#16, 0x1000#16)
  | .call _ => (0xF000#16, 0x2000#16)
  | .seImm _ _ => (0xF000#16, 0x3000#16)
  | .sneImm _ _ => (0xF000#16, 0x4000#16)
  | .seReg _ _ => (0xF000#16, 0x5000#16)
  | .ldImm _ _ => (0xF000#16, 0x6000#16)
  | .addImm _ _ => (0xF000#16, 0x7000#16)
  | .ldReg _ _ => (0xF00F#16, 0x8000#16)
  | .orReg _ _ => (0xF00F#16, 0x8001#16)
  | .andReg _ _ => (0xF00F#16, 0x8002#16)
  | .xorReg _ _ => (0xF00F#16, 0x8003#16)
  | .addReg _ _ => (0xF00F#16, 0x8004#16)
  | .sub _ _ => (0xF00F#16, 0x8005#16)
  | .shr _ _ => (0xF00F#16, 0x8006#16)
  | .subn _ _ => (0xF00F#16, 0x8007#16)
  | .shl _ _ => (0xF00F#16, 0x800E#16)
  | .sneReg _ _ => (0xF000#16, 0x9000#16)
  | .ldI _ => (0xF000#16, 0xA000#16)
  | .jpV0 _ => (0xF000#16, 0xB000#16)
  | .rnd _ _ => (0xF000#16, 0xC000#16)
  | .drw _ _ _ => (0xF000#16, 0xD000#16)
  | .skp _ => (0xF00F#16, 0xE00E#16)
  | .sknp _ => (0xF00F#16, 0xE001#16)
  | .ldVxDt _ => (0xF0FF#16, 0xF007#16)
  | .ldVxK _ => (0xF0FF#16, 0xF00A#16)
  | .ldDtVx _ => (0xF0FF#16, 0xF015#16)
  | .ldStVx _ => (0xF0FF#16, 0xF018#16)
  | .addI _ => (0xF0FF#16, 0xF01E#16)
  | .ldF _ => (0xF0FF#16, 0xF029#16)
  | .ldB _ => (0xF0FF#16, 0xF033#16)
  | .ldStore _ => (0xF0FF#16, 0xF055#16)
  | .ldLoad _ => (0xF0FF#16, 0xF065#16)

/-- `(w & mask) = match` for the word of `i` and the row of `i`. -/
def Statement (i : Instr) : Prop := encode i &&& (row i).1 = (row i).2

theorem formatA_mask_F000 (f : Nibble) (a : Addr12) : formatA f a &&& 0xF000#16 = formatA f 0 := by
  show (f ++ a) &&& (0xF#4 ++ 0x000#12) = f ++ 0#12
  rw [BitVec.and_append, BitVec.and_zero]
  congr 1; revert f; decide

theorem formatR_mask_F000 (f : Nibble) (x : Reg) (nn : Byte) : formatR f x nn &&& 0xF000#16 = formatR f 0 0 := by
  show ((f ++ regBits x) ++ nn) &&& ((0xF#4 ++ 0x0#4) ++ 0x00#8) = (f ++ 0#4) ++ 0#8
  rw [BitVec.and_append, BitVec.and_append, BitVec.and_zero, BitVec.and_zero]
  congr 2; revert f; decide

theorem formatR_mask_F00F (f : Nibble) (x : Reg) (nn : Byte) : formatR f x nn &&& 0xF00F#16 = formatR f 0 (nn &&& 0x0F) := by
  show ((f ++ regBits x) ++ nn) &&& ((0xF#4 ++ 0x0#4) ++ 0x0F#8) = (f ++ 0#4) ++ (nn &&& 0x0F#8)
  rw [BitVec.and_append, BitVec.and_append, BitVec.and_zero]
  congr 2; revert f; decide

theorem formatR_mask_F0FF (f : Nibble) (x : Reg) (nn : Byte) : formatR f x nn &&& 0xF0FF#16 = formatR f 0 nn := by
  show ((f ++ regBits x) ++ nn) &&& ((0xF#4 ++ 0x0#4) ++ 0xFF#8) = (f ++ 0#4) ++ nn
  rw [BitVec.and_append, BitVec.and_append, BitVec.and_zero]
  congr 2
  · revert f; decide
  · revert nn; decide

theorem formatRR_mask_F000 (f : Nibble) (x y : Reg) (n : Nibble) : formatRR f x y n &&& 0xF000#16 = formatRR f 0 0 0 := by
  show ((f ++ regBits x) ++ (regBits y ++ n)) &&& ((0xF#4 ++ 0x0#4) ++ (0x0#4 ++ 0x0#4)) = (f ++ 0#4) ++ (0#4 ++ 0#4)
  simp only [BitVec.and_append, BitVec.and_zero]
  congr 2; revert f; decide

theorem formatRR_mask_F00F (f : Nibble) (x y : Reg) (n : Nibble) : formatRR f x y n &&& 0xF00F#16 = formatRR f 0 0 n := by
  show ((f ++ regBits x) ++ (regBits y ++ n)) &&& ((0xF#4 ++ 0x0#4) ++ (0x0#4 ++ 0xF#4)) = (f ++ 0#4) ++ (0#4 ++ n)
  simp only [BitVec.and_append, BitVec.and_zero]
  congr 2
  · revert f; decide
  · revert n; decide

theorem cls : Statement (.cls) := rfl
theorem ret : Statement (.ret) := rfl
theorem jp (nnn : Addr12) : Statement (.jp nnn) := (formatA_mask_F000 _ _).trans rfl
theorem call (nnn : Addr12) : Statement (.call nnn) := (formatA_mask_F000 _ _).trans rfl
theorem seImm (x : Reg) (nn : Byte) : Statement (.seImm x nn) := (formatR_mask_F000 _ _ _).trans rfl
theorem sneImm (x : Reg) (nn : Byte) : Statement (.sneImm x nn) := (formatR_mask_F000 _ _ _).trans rfl
theorem seReg (x : Reg) (y : Reg) : Statement (.seReg x y) := (formatRR_mask_F000 _ _ _ _).trans rfl
theorem ldImm (x : Reg) (nn : Byte) : Statement (.ldImm x nn) := (formatR_mask_F000 _ _ _).trans rfl
theorem addImm (x : Reg) (nn : Byte) : Statement (.addImm x nn) := (formatR_mask_F000 _ _ _).trans rfl
theorem ldReg (x : Reg) (y : Reg) : Statement (.ldReg x y) := (formatRR_mask_F00F _ _ _ _).trans rfl
theorem orReg (x : Reg) (y : Reg) : Statement (.orReg x y) := (formatRR_mask_F00F _ _ _ _).trans rfl
theorem andReg (x : Reg) (y : Reg) : Statement (.andReg x y) := (formatRR_mask_F00F _ _ _ _).trans rfl
theorem xorReg (x : Reg) (y : Reg) : Statement (.xorReg x y) := (formatRR_mask_F00F _ _ _ _).trans rfl
theorem addReg (x : Reg) (y : Reg) : Statement (.addReg x y) := (formatRR_mask_F00F _ _ _ _).trans rfl
theorem sub (x : Reg) (y : Reg) : Statement (.sub x y) := (formatRR_mask_F00F _ _ _ _).trans rfl
theorem shr (x : Reg) (y : Reg) : Statement (.shr x y) := (formatRR_mask_F00F _ _ _ _).trans rfl
theorem subn (x : Reg) (y : Reg) : Statement (.subn x y) := (formatRR_mask_F00F _ _ _ _).trans rfl
theorem shl (x : Reg) (y : Reg) : Statement (.shl x y) := (formatRR_mask_F00F _ _ _ _).trans rfl
theorem sneReg (x : Reg) (y : Reg) : Statement (.sneReg x y) := (formatRR_mask_F000 _ _ _ _).trans rfl
theorem ldI (nnn : Addr12) : Statement (.ldI nnn) := (formatA_mask_F000 _ _).trans rfl
theorem jpV0 (nnn : Addr12) : Statement (.jpV0 nnn) := (formatA_mask_F000 _ _).trans rfl
theorem rnd (x : Reg) (nn : Byte) : Statement (.rnd x nn) := (formatR_mask_F000 _ _ _).trans rfl
theorem drw (x : Reg) (y : Reg) (n : Nibble) : Statement (.drw x y n) := (formatRR_mask_F000 _ _ _ _).trans rfl
theorem skp (x : Reg) : Statement (.skp x) := (formatR_mask_F00F _ _ _).trans rfl
theorem sknp (x : Reg) : Statement (.sknp x) := (formatR_mask_F00F _ _ _).trans rfl
theorem ldVxDt (x : Reg) : Statement (.ldVxDt x) := (formatR_mask_F0FF _ _ _).trans rfl
theorem ldVxK (x : Reg) : Statement (.ldVxK x) := (formatR_mask_F0FF _ _ _).trans rfl
theorem ldDtVx (x : Reg) : Statement (.ldDtVx x) := (formatR_mask_F0FF _ _ _).trans rfl
theorem ldStVx (x : Reg) : Statement (.ldStVx x) := (formatR_mask_F0FF _ _ _).trans rfl
theorem addI (x : Reg) : Statement (.addI x) := (formatR_mask_F0FF _ _ _).trans rfl
theorem ldF (x : Reg) : Statement (.ldF x) := (formatR_mask_F0FF _ _ _).trans rfl
theorem ldB (x : Reg) : Statement (.ldB x) := (formatR_mask_F0FF _ _ _).trans rfl
theorem ldStore (x : Reg) : Statement (.ldStore x) := (formatR_mask_F0FF _ _ _).trans rfl
theorem ldLoad (x : Reg) : Statement (.ldLoad x) := (formatR_mask_F0FF _ _ _).trans rfl

end Sys2Proof.Laws.EncodesRow
end

