-- ==== Sys2Proof/Tests/Slice0.lean ====
section
/-! SUPPORT. The model's own tests. Expected results are the spec's: the worked examples and vectors of spec/95_test_vectors.md, named in each comment, and words written out from the patterns of spec/30_encoding.md R88. The last part gives, for every statement with hypotheses, states and operands that meet them. -/

namespace Sys2Proof.Tests

open Sys2Proof.Machine

/-! Helpers: parameters, a state with some registers, one step on a placed word. -/

/-- Default parameters with the range policy `mask`. -/
def maskParams : Params := { Params.default with oobPolicy := .mask }

/-- Default parameters with the stack policy `wrap`. -/
def wrapParams : Params := { Params.default with stackPolicy := .wrap }

/-- Default parameters with the sprite edge `fault`. -/
def edgeParams : Params := { Params.default with spriteEdge := .fault }

/-- Reset under `p` with the registers of `vs` set. -/
def withRegs (p : Params) (vs : List (Reg × Byte)) : State :=
  vs.foldl (fun s v => s.setReg v.1 v.2) (State.resetWith p)

/-- Default parameters, registers `vs`. -/
def regs (vs : List (Reg × Byte)) : State := withRegs Params.default vs

/-- One step with the word `w` placed where it fetches. -/
def ran (w : Nat) (s : State) : Option State :=
  match step (s.withFetchWord 16 w) with
  | .next t => some t
  | .fault _ => none
  | .refused _ => none

/-- What `f` reads after that step. -/
def after {α : Type} (w : Nat) (s : State) (f : State → α) : Option α := (ran w s).map f

/-- The fault status as the ports give it. -/
def faultOf (s : State) : Cause × Nat × Nat × Nat := (s.faultCause, s.faultPc.toNat, s.faultWord.toNat, s.faultInfo.toNat)

/-! Well-formedness: the one check (R144). -/

theorem test_subn_ill_formed_without_it :
    (Instr.subn 1 2).wellFormed { Params.default with hasSubn := false } = false ∧
    (Instr.subn 1 2).wellFormed Params.default = true ∧
    decodeWord { Params.default with hasSubn := false } 0x8127 = .error .subnAbsent := by decide

/-! Decoding: every row of R88, its word written bit by bit. -/

theorem test_decode_rows_1_to_9 :
    decodeWord Params.default 0b0000_0000_1110_0000#16 = .ok .cls ∧
    decodeWord Params.default 0b0000_0000_1110_1110#16 = .ok .ret ∧
    decodeWord Params.default 0b0001_1010_1011_1100#16 = .ok (.jp 0xABC) ∧
    decodeWord Params.default 0b0010_0011_0000_0000#16 = .ok (.call 0x300) ∧
    decodeWord Params.default 0b0011_0011_0100_0010#16 = .ok (.seImm 3 0x42) ∧
    decodeWord Params.default 0b0100_0011_0100_0010#16 = .ok (.sneImm 3 0x42) ∧
    decodeWord Params.default 0b0101_0011_0100_0000#16 = .ok (.seReg 3 4) ∧
    decodeWord Params.default 0b0110_1010_0010_1111#16 = .ok (.ldImm 10 0x2F) ∧
    decodeWord Params.default 0b0111_0101_0000_0011#16 = .ok (.addImm 5 0x03) := by decide

theorem test_decode_rows_10_to_18 :
    decodeWord Params.default 0b1000_0001_0010_0000#16 = .ok (.ldReg 1 2) ∧
    decodeWord Params.default 0b1000_0001_0010_0001#16 = .ok (.orReg 1 2) ∧
    decodeWord Params.default 0b1000_0001_0010_0010#16 = .ok (.andReg 1 2) ∧
    decodeWord Params.default 0b1000_0001_0010_0011#16 = .ok (.xorReg 1 2) ∧
    decodeWord Params.default 0b1000_0001_0010_0100#16 = .ok (.addReg 1 2) ∧
    decodeWord Params.default 0b1000_0001_0010_0101#16 = .ok (.sub 1 2) ∧
    decodeWord Params.default 0b1000_0001_0010_0110#16 = .ok (.shr 1 2) ∧
    decodeWord Params.default 0b1000_0001_0010_0111#16 = .ok (.subn 1 2) ∧
    decodeWord Params.default 0b1000_0001_0010_1110#16 = .ok (.shl 1 2) := by decide

theorem test_decode_rows_19_to_25 :
    decodeWord Params.default 0b1001_0011_0100_0000#16 = .ok (.sneReg 3 4) ∧
    decodeWord Params.default 0b1010_0011_0000_0001#16 = .ok (.ldI 0x301) ∧
    decodeWord Params.default 0b1011_0011_0000_0001#16 = .ok (.jpV0 0x301) ∧
    decodeWord Params.default 0b1100_0011_0000_1111#16 = .ok (.rnd 3 0x0F) ∧
    decodeWord Params.default 0b1101_0001_0010_0101#16 = .ok (.drw 1 2 5) ∧
    decodeWord Params.default 0b1110_0100_1001_1110#16 = .ok (.skp 4) ∧
    decodeWord Params.default 0b1110_0100_1010_0001#16 = .ok (.sknp 4) := by decide

theorem test_decode_rows_26_to_34 :
    decodeWord Params.default 0b1111_0011_0000_0111#16 = .ok (.ldVxDt 3) ∧
    decodeWord Params.default 0b1111_0011_0000_1010#16 = .ok (.ldVxK 3) ∧
    decodeWord Params.default 0b1111_0011_0001_0101#16 = .ok (.ldDtVx 3) ∧
    decodeWord Params.default 0b1111_0011_0001_1000#16 = .ok (.ldStVx 3) ∧
    decodeWord Params.default 0b1111_0011_0001_1110#16 = .ok (.addI 3) ∧
    decodeWord Params.default 0b1111_0011_0010_1001#16 = .ok (.ldF 3) ∧
    decodeWord Params.default 0b1111_0011_0011_0011#16 = .ok (.ldB 3) ∧
    decodeWord Params.default 0b1111_0011_0101_0101#16 = .ok (.ldStore 3) ∧
    decodeWord Params.default 0b1111_0011_0110_0101#16 = .ok (.ldLoad 3) := by decide

/-- Ignored bits (T1.7, T1.8, T1.9, T1.10, T1.11, W9) and invalid words (T1.2, T1.4, T1.5). -/
theorem test_decode_ignored_bits_and_invalid_words :
    decodeWord Params.default 0x5121 = .ok (.seReg 1 2) ∧ decodeWord Params.default 0x912F = .ok (.sneReg 1 2) ∧
    decodeWord Params.default 0xE10E = .ok (.skp 1) ∧ decodeWord Params.default 0x0FF0 = .ok .cls ∧
    decodeWord Params.default 0x0ABE = .ok .ret ∧ decodeWord Params.default 0x0000 = .ok .cls ∧
    decodeWord Params.default 0x0001 = .error (.family0 1) ∧ decodeWord Params.default 0xF0FF = .error (.familyF 0xFF) ∧
    decodeWord Params.default 0x8AB8 = .error (.family8 8) ∧ decodeWord Params.default 0xE100 = .error (.familyE 0) := by decide

/-- The table's numbering: one word of 16 bits. -/
theorem test_decode_table_word :
    decodeTableWord 16 0xD125 = some (.drw 1 2 5) ∧ decodeTableWord 16 0x8AB8 = none := by decide

/-! The cycle. -/

/-- T1.1: big-endian fetch. -/
theorem test_fetch_big_endian :
    after 0x1234 State.reset (fun t => (t.currentInstruction, t.pc)) = some (0x1234, 0x234) ∧
    (State.reset.withFetchWord 16 0x1234).byteAt 0x200 = 0x12 := by decide

/-- T1.3, T1.6: an invalid word. -/
theorem test_invalid_word :
    after 0x0001 (State.reset.setDt 5) (fun t => (t.pc, t.dt, t.outputs.invalidReport)) = some (0x202, 4, some (0x0001, 0x200)) ∧
    after 0x8127 (withRegs { Params.default with hasSubn := false } []) (fun t => (t.pc, t.invalidOpcode)) = some (0x202, true) := by
  decide

/-- T1.14: the second byte of the fetch is out of range. -/
theorem test_fetch_fault :
    after 0x6000 (State.reset.setPc 0xFFF) (fun t => (faultOf t, t.pc)) = some ((.fetchOob, 0xFFF, 0, 0x1000), 0xFFF) := by decide

/-- T1.15: a masked fetch wraps. -/
theorem test_fetch_masked :
    after 0x6000 ((withRegs maskParams []).setPc 0xFFF) (fun t => (t.currentInstruction, t.pc)) = some (0x6000, 0x1001) := by decide

/-- P6, T1.17: a halted CORE. -/
theorem test_halted :
    ((ran 0x00EE State.reset).bind fun t => after 0x6A01 (t.setDt 3) (fun u => (faultOf u, u.pc, u.dt, u.reg 10))) =
      some ((.stackUnderflow, 0x200, 0x00EE, 0), 0x200, 3, 0) := by decide

/-! Control flow. -/

/-- T2.1. -/
theorem test_jp : after 0x1ABC State.reset (·.pc) = some 0xABC := by decide

/-- T2.6. -/
theorem test_call_wrap :
    after 0x2300 { withRegs wrapParams [] with sp := 15 } (fun t => (t.stack[15], t.sp, t.pc)) = some (0x202, 0, 0x300) := by decide

/-- T2.4. -/
theorem test_call_overflow :
    after 0x2300 { State.reset with sp := 16 } (fun t => (faultOf t, t.sp, t.pc)) =
      some ((.stackOverflow, 0x200, 0x2300, 16), 16, 0x200) := by decide

/-- T1.11. -/
theorem test_ret :
    after 0x0ABE { State.reset with sp := 1, stack := State.reset.stack.set 0 0x250 } (fun t => (t.pc, t.sp)) = some (0x250, 0) := by
  decide

/-- T2.8. -/
theorem test_ret_wrap :
    after 0x00EE { withRegs wrapParams [] with stack := State.reset.stack.set 15 0x246 } (fun t => (t.pc, t.sp)) = some (0x246, 15) := by
  decide

/-- T2.10, T2.11. -/
theorem test_se_imm : after 0x3342 (regs [(3, 0x42)]) (·.pc) = some 0x204 ∧ after 0x3343 (regs [(3, 0x42)]) (·.pc) = some 0x202 := by decide

/-- T2.12, T2.13. -/
theorem test_sne_imm : after 0x4342 (regs [(3, 0x42)]) (·.pc) = some 0x202 ∧ after 0x4300 (regs [(3, 0x42)]) (·.pc) = some 0x204 := by decide

/-- T2.14, T2.17. -/
theorem test_se_sne_reg :
    after 0x5340 (regs [(3, 7), (4, 7)]) (·.pc) = some 0x204 ∧ after 0x9340 (regs [(3, 1), (4, 2)]) (·.pc) = some 0x204 ∧
    after 0x9330 State.reset (·.pc) = some 0x202 := by decide

/-- T2.18: the skip wraps modulo 2^16. -/
theorem test_skip_wraps : after 0x3000 ((withRegs maskParams []).setPc 0xFFFC) (·.pc) = some 0x0000 := by decide

/-- T11.3, T11.4. -/
theorem test_jp_v0 : after 0xBFFF (regs [(0, 0xFF)]) (·.pc) = some 0x10FE ∧ after 0xB300 (regs [(3, 0x40)]) (·.pc) = some 0x300 := by decide

/-! Data movement. -/

/-- T3.2, T3.3. -/
theorem test_ld_imm_and_reg : after 0x6FAA State.reset (·.reg 15) = some 0xAA ∧ after 0x8120 (regs [(2, 0x44)]) (·.reg 1) = some 0x44 := by decide

/-- T3.8: a masked store wraps. -/
theorem test_store_masked :
    after 0xF255 ((withRegs maskParams [(0, 0x11), (1, 0x22), (2, 0x33)]).setIndex 0xFFE)
      (fun t => (t.byteAt 0xFFE, t.byteAt 0xFFF, t.byteAt 0, t.byteAt 1, t.i)) = some (0x11, 0x22, 0x33, 0, 0xFFE) := by decide

/-- T3.7: a store that faults writes nothing. -/
theorem test_store_fault :
    after 0xF255 ((regs [(0, 0x11), (1, 0x22)]).setIndex 0xFFE) (fun t => (faultOf t, t.byteAt 0xFFE, t.pc)) =
      some ((.writeOob, 0x200, 0xF255, 0x1000), 0, 0x200) := by decide

/-- T3.9: glyph 0 (the bytes are the spec's general knowledge, log 4). -/
theorem test_load_glyph :
    after 0xF465 (State.reset.setIndex 0x050) (fun t => [t.reg 0, t.reg 1, t.reg 2, t.reg 3, t.reg 4, t.reg 5]) =
      some [0xF0, 0x90, 0x90, 0x90, 0xF0, 0] := by decide

/-- T3.10. -/
theorem test_load_fault :
    after 0xFF65 ((regs [(3, 9)]).setIndex 0xFF1) (fun t => (faultOf t, t.reg 3)) = some ((.readOob, 0x200, 0xFF65, 0x1000), 9) := by decide

/-- T6.1. -/
theorem test_bcd :
    after 0xF033 ((regs [(0, 0xFE)]).setIndex 0x300) (fun t => (t.byteAt 0x300, t.byteAt 0x301, t.byteAt 0x302, t.i)) =
      some (2, 5, 4, 0x300) := by decide

/-- T6.4. -/
theorem test_bcd_fault :
    after 0xF033 ((regs [(0, 0xFF)]).setIndex 0xFFE) (fun t => (faultOf t, t.byteAt 0xFFE)) =
      some ((.writeOob, 0x200, 0xF033, 0x1000), 0) := by decide

/-! Arithmetic, logic, random. -/

/-- T4.1, T4.2. -/
theorem test_add_imm :
    after 0x7503 (regs [(5, 0xFE), (15, 0x10)]) (fun t => (t.reg 5, t.reg 15)) = some (0x01, 0x10) ∧
    after 0x7F01 (regs [(15, 0x10)]) (·.reg 15) = some 0x11 := by decide

/-- T4.3, T4.4. -/
theorem test_add_reg :
    after 0x8124 (regs [(1, 0xFF), (2, 0x01)]) (fun t => (t.reg 1, t.reg 15)) = some (0x00, 1) ∧
    after 0x8124 (regs [(1, 0x10), (2, 0x20), (15, 7)]) (fun t => (t.reg 1, t.reg 15)) = some (0x30, 0) := by decide

/-- T4.6: VF as the destination, under both flag orders. -/
theorem test_add_into_vf :
    after 0x8F14 (regs [(15, 0xFF), (1, 0x01)]) (·.reg 15) = some 1 ∧
    after 0x8F14 (withRegs { Params.default with flagOrder := .resultLast } [(15, 0xFF), (1, 0x01)]) (·.reg 15) = some 0 := by decide

/-- T4.7, T4.8, T4.9: the not-borrow is strict. -/
theorem test_sub :
    after 0x8125 (regs [(1, 5), (2, 5)]) (fun t => (t.reg 1, t.reg 15)) = some (0, 0) ∧
    after 0x8125 (regs [(1, 5), (2, 6)]) (fun t => (t.reg 1, t.reg 15)) = some (0xFF, 0) ∧
    after 0x8125 (regs [(1, 6), (2, 5)]) (fun t => (t.reg 1, t.reg 15)) = some (1, 1) := by decide

/-- T4.10, T4.12. -/
theorem test_subn :
    after 0x8127 (regs [(1, 5), (2, 6)]) (fun t => (t.reg 1, t.reg 15)) = some (1, 1) ∧
    after 0x8127 (regs [(1, 6), (2, 5)]) (fun t => (t.reg 1, t.reg 15)) = some (0xFF, 0) := by decide

/-- T4.18, T4.19. -/
theorem test_shr :
    after 0x8126 (regs [(1, 0x05), (2, 0x80)]) (fun t => (t.reg 1, t.reg 15)) = some (2, 1) ∧
    after 0x8126 (withRegs { Params.default with shiftSource := .vy } [(1, 0x05), (2, 0x80)])
      (fun t => (t.reg 1, t.reg 15, t.reg 2)) = some (0x40, 0, 0x80) := by decide

/-- T4.20. -/
theorem test_shl : after 0x811E (regs [(1, 0x81)]) (fun t => (t.reg 1, t.reg 15)) = some (2, 1) := by decide

/-- T4.13 to T4.16. -/
theorem test_logic :
    after 0x8121 (regs [(1, 0x0F), (2, 0xF0), (15, 0x55)]) (fun t => (t.reg 1, t.reg 15)) = some (0xFF, 0x55) ∧
    after 0x8122 (regs [(1, 0x3C), (2, 0x0F)]) (·.reg 1) = some 0x0C ∧
    after 0x8123 (regs [(1, 0x3C), (2, 0x0F)]) (·.reg 1) = some 0x33 ∧
    after 0x8113 (regs [(1, 0x3C)]) (·.reg 1) = some 0 := by decide

/-- T5.1, T5.2, for a draw of 0xB7. -/
theorem test_rnd_masks_the_draw :
    (State.reset.withDraw 3 0x0F 0xB7).reg 3 = 0x07 ∧ (State.reset.withDraw 3 0xFF 0xB7).reg 3 = 0xB7 := by decide

/-! Graphics. -/

/-- P4 after 5 cycles: the glyph 7 at (5, 3), exactly (5..8, 3), (8, 4), (7, 5), (6, 6), (6, 7) on, no collision. -/
theorem test_draw_glyph_seven :
    after 0xD125 ((regs [(1, 5), (2, 3), (15, 9)]).setIndex 0x073) (fun t => (t.fb.toList, t.reg 15)) =
      some ([0, 0, 0, 0x1E0, 0x100, 0x080, 0x040, 0x040] ++ List.replicate 24 0, 0) := by decide

/-- T7.5: a clipped row is still read. -/
theorem test_draw_reads_clipped_row :
    after 0xD012 ((regs [(0, 0), (1, 31)]).setIndex 0xFFF) (fun t => (faultOf t, t.fb)) =
      some ((.readOob, 0x200, 0xD012, 0x1000), fbClear) := by decide

/-- T7.4: a set bit past the edge faults under SPRITE_EDGE = fault. -/
theorem test_draw_edge_fault :
    after 0xD011 (((withRegs edgeParams [(0, 60)]).setIndex 0x20A).setByte 0x20A 0xFF) (fun t => (faultOf t, t.fb)) =
      some ((.spriteEdge, 0x200, 0xD011, 0x40), fbClear) := by decide

/-- T7.9. -/
theorem test_cls : after 0x00E0 ((regs [(15, 0x33)]).setFb (Vector.replicate 32 5)) (fun t => (t.fb, t.reg 15)) = some (fbClear, 0x33) := by decide

/-! Input, timers, index. -/

/-- T8.1, T8.2. -/
theorem test_skp :
    after 0xE49E { regs [(4, 0x0A)] with keys := 0x0400 } (·.pc) = some 0x204 ∧ after 0xE49E (regs [(4, 0x0A)]) (·.pc) = some 0x202 := by
  decide

/-- T8.4, T8.5. -/
theorem test_skp_out_of_range :
    after 0xE59E (regs [(5, 0x10)]) faultOf = some (.keyOob, 0x200, 0xE59E, 0x10) ∧
    after 0xE59E { withRegs maskParams [(5, 0x1A)] with keys := 0x0400 } (·.pc) = some 0x204 := by decide

/-- T8.3. -/
theorem test_sknp : after 0xE4A1 (regs [(4, 0x0A)]) (·.pc) = some 0x204 := by decide

/-- T8.7, T8.6: the lowest key, taken from the schedule of the input adapter; and the stall, with the timers counting. -/
theorem test_key_wait :
    after 0xF30A { State.reset with keyWrites := [0x0210, 0] } (fun t => (t.reg 3, t.pc, t.keyWrites)) = some (4, 0x202, [0]) ∧
    after 0xF30A (State.reset.setDt 7) (fun t => (t.reg 3, t.pc, t.dt)) = some (0, 0x200, 6) := by decide

/-- T9.1, T9.3, T9.5. -/
theorem test_timers :
    after 0xF307 (State.reset.setDt 0x10) (fun t => (t.reg 3, t.dt)) = some (0x10, 0x0F) ∧
    after 0xF315 (regs [(3, 5)]) (·.dt) = some 4 ∧
    after 0xF318 (regs [(3, 1)]) (fun t => (t.st, t.outputs.soundOn)) = some (0, false) := by decide

/-- T10.1, T10.4. -/
theorem test_index : after 0xA300 State.reset (·.i) = some 0x300 ∧ after 0xF21E ((regs [(2, 2)]).setIndex 0xFFFF) (·.i) = some 1 := by decide

/-- T10.5, T10.7. -/
theorem test_glyph_address :
    after 0xF029 (regs [(0, 7)]) (·.i) = some 0x073 ∧ after 0xF029 (regs [(0, 0xFF)]) (·.i) = some 0x54B ∧
    after 0xF029 (withRegs { Params.default with fontDigit := .lowNibble } [(0, 0xFF)]) (·.i) = some 0x09B := by decide

/-! Witnesses: for each statement with hypotheses, states and operands that meet them, every clause at a boundary value. -/

theorem witness_DecodeOfEncodeIsIdentity : (Instr.subn 15 0).wellFormed Params.default = true ∧ (Instr.jp 0xFFF).wellFormed Params.default = true := by decide

/-- A word with the fields its row asks for: family, X, Y, N and low byte. -/
def hasFields (w : Word) (f : Nat) (x y : Reg) (n lo : Nat) : Bool :=
  decide (w.toNat / 4096 = f) && decide (x.val = w.toNat / 256 % 16) && decide (y.val = w.toNat / 16 % 16) &&
    decide (w.toNat % 16 = n) && decide (w.toNat % 256 = lo)

theorem witness_DecodeReadsEveryRow_families_0_to_9 :
    hasFields 0x0FF0 0 15 15 0 0xF0 ∧ hasFields 0x000E 0 0 0 14 0x0E ∧ hasFields 0x1FFF 1 15 15 15 0xFF ∧
    hasFields 0x2000 2 0 0 0 0 ∧ hasFields 0x3F00 3 15 0 0 0 ∧ hasFields 0x40FF 4 0 15 15 0xFF ∧ hasFields 0x5F0F 5 15 0 15 0x0F ∧
    hasFields 0x6FFF 6 15 15 15 0xFF ∧ hasFields 0x7F01 7 15 0 1 1 ∧ hasFields 0x8F00 8 15 0 0 0 ∧ hasFields 0x80F1 8 0 15 1 0xF1 ∧
    hasFields 0x8F02 8 15 0 2 2 ∧ hasFields 0x80F3 8 0 15 3 0xF3 ∧ hasFields 0x8F04 8 15 0 4 4 ∧ hasFields 0x80F5 8 0 15 5 0xF5 ∧
    hasFields 0x8F06 8 15 0 6 6 ∧ hasFields 0x80F7 8 0 15 7 0xF7 ∧ Params.default.hasSubn = true ∧
    hasFields 0x8FFE 8 15 15 14 0xFE ∧ hasFields 0x9FFF 9 15 15 15 0xFF := by decide

theorem witness_DecodeReadsEveryRow_families_A_to_F :
    hasFields 0xAFFF 10 15 15 15 0xFF ∧ hasFields 0xB000 11 0 0 0 0 ∧ hasFields 0xCFFF 12 15 15 15 0xFF ∧
    hasFields 0xDF0F 13 15 0 15 0x0F ∧ hasFields 0xEFFE 14 15 15 14 0xFE ∧ hasFields 0xE001 14 0 0 1 1 ∧
    hasFields 0xFF07 15 15 0 7 0x07 ∧ hasFields 0xFF0A 15 15 0 10 0x0A ∧ hasFields 0xFF15 15 15 1 5 0x15 ∧
    hasFields 0xFF18 15 15 1 8 0x18 ∧ hasFields 0xFF1E 15 15 1 14 0x1E ∧ hasFields 0xFF29 15 15 2 9 0x29 ∧
    hasFields 0xFF33 15 15 3 3 0x33 ∧ hasFields 0xFF55 15 15 5 5 0x55 ∧ hasFields 0xFF65 15 15 6 5 0x65 := by decide

theorem witness_InvalidWordsAreExactlyTheTable : decodeWord Params.default 0x8FF7 = .ok (.subn 15 15) := by decide

/-- The first and the last stack pointer with room, under both policies. -/
theorem witness_CallPushesReturnAddress :
    State.reset.sp.val < 16 ∧ State.reset.params.stackPolicy = .fault ∧ ({ State.reset with sp := 15 } : State).sp.val < 16 ∧
    ({ withRegs wrapParams [] with sp := 15 } : State).sp.val < 16 ∧ wrapParams.stackPolicy = .wrap := by decide

theorem witness_RetPopsReturnAddress :
    State.reset.params.stackPolicy = .fault ∧ ({ State.reset with sp := 1 } : State).sp.val ≠ 0 ∧
    ({ State.reset with sp := 16 } : State).sp.val ≠ 0 ∧ wrapParams.stackPolicy = .wrap ∧
    (withRegs wrapParams []).sp.val < 16 ∧ ({ withRegs wrapParams [] with sp := 15 } : State).sp.val < 16 := by decide

theorem witness_StackFaultsAreTaken :
    State.reset.params.stackPolicy = .fault ∧ ({ State.reset with sp := 16 } : State).sp.val = 16 ∧ State.reset.sp.val = 0 := by decide

theorem witness_CallThenReturnRestoresPc :
    ∃ u, ({ State.reset with sp := 15 } : State).sp.val < 16 ∧ exec (.call 0x300) { State.reset with sp := 15 } = .next u :=
  ⟨_, by decide, rfl⟩

/-- A state with the word `w` where it fetches. -/
def placed (w : Nat) (s : State) : State := s.withFetchWord 16 w

/-- It is running, and its fetched word decodes to `i`. -/
def fetches (s : State) (w : Word) (i : Instr) : Bool :=
  decide (s.faultCause = .none) && decide (s.fetch = .ok w) && decide (decodeWord s.params w = .ok i)

/-- The six skips, with a condition that holds or not; the key skips at key 15, and at key value 255 under `mask`. -/
theorem witness_SkipAdvancesByFourOrTwo :
    (fetches (placed 0x3F00 State.reset) 0x3F00 (.seImm 15 0) ∧ State.reset.reg 15 = 0) ∧
    (fetches (placed 0x4000 State.reset) 0x4000 (.sneImm 0 0) ∧ ¬ State.reset.reg 0 ≠ 0) ∧
    (fetches (placed 0x5FF0 State.reset) 0x5FF0 (.seReg 15 15) ∧ State.reset.reg 15 = State.reset.reg 15) ∧
    (fetches (placed 0x9340 (regs [(3, 1)])) 0x9340 (.sneReg 3 4) ∧ (regs [(3, 1)]).reg 3 ≠ (regs [(3, 1)]).reg 4) ∧
    (fetches (placed 0xE49E { regs [(4, 15)] with keyWrites := [0x8000] }) 0xE49E (.skp 4) ∧ ((regs [(4, 15)]).reg 4).toNat < 16 ∧
      true = (placed 0xE49E { regs [(4, 15)] with keyWrites := [0x8000] }).takeInputs.keys.getLsbD 15) ∧
    (fetches (placed 0xE4A1 (withRegs maskParams [(4, 255)])) 0xE4A1 (.sknp 4) ∧ maskParams.oobPolicy = .mask ∧
      true = !(placed 0xE4A1 (withRegs maskParams [(4, 255)])).takeInputs.keys.getLsbD (255 % 16)) := by decide

theorem witness_RegisterFileHasNoAlias : (0 : Reg) ≠ 15 ∧ (7 : Reg) ≠ 15 ∧ (7 : Reg) ≠ 0 := by decide

/-- The last range that fits, and one that wraps under `mask`. -/
theorem witness_StoreRangeWritesExactlyItsBytes :
    ((State.reset.setIndex 0xFF0).memoryCanonical ∧ ∀ k, k ≤ (15 : Reg).val → (State.reset.setIndex 0xFF0).reaches (0xFF0 + k)) ∧
    (((withRegs maskParams []).setIndex 0xFFFF).memoryCanonical ∧
      ∀ k, k ≤ (15 : Reg).val → ((withRegs maskParams []).setIndex 0xFFFF).reaches (0xFFFF + k)) ∧
    State.reset.params.ldstI = .unchanged ∧ (withRegs { Params.default with ldstI := .increment } []).params.ldstI = .increment := by decide

theorem witness_LoadRangeReadsExactlyItsBytes :
    (∀ k, k ≤ (0 : Reg).val → (State.reset.setIndex 0xFFF).reaches (0xFFF + k)) ∧ (0 : Reg).val < (15 : Reg).val ∧
    (∀ k, k ≤ (15 : Reg).val → ((withRegs maskParams []).setIndex 0xFFF).reaches (0xFFF + k)) := by decide

theorem witness_BcdStoresThreeDigits :
    ((State.reset.setIndex 0xFFD).memoryCanonical ∧ ∀ k, k ≤ 2 → (State.reset.setIndex 0xFFD).reaches (0xFFD + k)) ∧
    (((withRegs maskParams []).setIndex 0xFFE).memoryCanonical ∧
      ∀ k, k ≤ 2 → ((withRegs maskParams []).setIndex 0xFFE).reaches (0xFFE + k)) := by decide

theorem witness_BcdDigitsRebuildTheValue :
    ∃ t, ((regs [(0, 0xFF)]).setIndex 0xFFD).memoryCanonical ∧ (∀ k, k ≤ 2 → ((regs [(0, 0xFF)]).setIndex 0xFFD).reaches (0xFFD + k)) ∧
      exec (.ldB 0) ((regs [(0, 0xFF)]).setIndex 0xFFD) = .next t :=
  ⟨_, by decide, by decide, rfl⟩

theorem witness_DataAccessFaultsAreTaken :
    State.reset.params.oobPolicy = .fault ∧ 4096 ≤ (State.reset.setIndex 0xFF1).i.toNat + (15 : Reg).val ∧
    4096 ≤ (State.reset.setIndex 0x1000).i.toNat + (0 : Reg).val ∧ 4096 ≤ (State.reset.setIndex 0xFFE).i.toNat + 2 := by decide

theorem witness_AddSubResultAndFlag :
    (14 : Reg) ≠ 15 ∧ State.reset.params.flagOrder = .flagLast ∧
    (withRegs { Params.default with flagOrder := .resultLast } []).params.flagOrder = .resultLast := by decide

theorem witness_ShiftResultAndFlag :
    (0 : Reg) ≠ 15 ∧ State.reset.params.flagOrder = .flagLast ∧
    (withRegs { Params.default with flagOrder := .resultLast, shiftSource := .vy } []).params.flagOrder = .resultLast := by decide

theorem witness_RandomByteIsMasked : (0x7F : Byte).getLsbD 7 = false ∧ (0 : Reg) ≠ 3 := by decide

/-- A flag producer on VF, a drawing, a destination other than VF, a range below VF, and one of the rest. -/
theorem witness_FlagRegisterChangesOnlyAsNamed :
    State.reset.running ∧ State.reset.params.flagOrder = .flagLast ∧
    (∃ t, exec (.addReg 15 1) State.reset = .next t ∧ t.running) ∧ (∃ t, exec (.drw 0 0 1) State.reset = .next t ∧ t.running) ∧
    (∃ t, exec (.ldImm 14 0xFF) State.reset = .next t ∧ t.running) ∧ (∃ t, exec (.ldLoad 14) State.reset = .next t ∧ t.running) ∧
    (∃ t, exec .cls State.reset = .next t ∧ t.running) ∧ (14 : Reg) ≠ 15 :=
  ⟨rfl, rfl, ⟨_, rfl, rfl⟩, ⟨_, rfl, rfl⟩, ⟨_, rfl, rfl⟩, ⟨_, rfl, rfl⟩, ⟨_, rfl, rfl⟩, by decide⟩

/-- A set bit lies in the sprite's own columns and rows. -/
theorem spriteCovers_bounds {s : State} {x0 y0 n px py : Nat} (h : s.spriteCovers x0 y0 n px py = true) :
    x0 ≤ px ∧ px < x0 + 8 ∧ y0 ≤ py ∧ py < y0 + n := by
  simp only [State.spriteCovers, Bool.and_eq_true, decide_eq_true_eq] at h
  omega

/-- A sprite of 15 rows under `clip`, and one that just fits into the last columns and rows under `fault`. -/
theorem witness_DrawFlipsExactlyTheSpriteCells :
    ((∀ row, row < (15 : Nibble).toNat → State.reset.reaches (State.reset.i.toNat + row)) ∧
      (State.reset.params.spriteEdge = .fault → ∀ px py, offScreen px py → State.reset.spriteCovers 0 0 15 px py = false)) ∧
    ((∀ row, row < (1 : Nibble).toNat → (withRegs edgeParams [(0, 56), (1, 31)]).reaches
        ((withRegs edgeParams [(0, 56), (1, 31)]).i.toNat + row)) ∧
      ((withRegs edgeParams [(0, 56), (1, 31)]).params.spriteEdge = .fault →
        ∀ px py, offScreen px py → (withRegs edgeParams [(0, 56), (1, 31)]).spriteCovers 56 31 1 px py = false)) := by
  refine ⟨⟨by decide, fun h => by cases h⟩, by decide, fun _ px py ho => ?_⟩
  by_contra hc
  have := spriteCovers_bounds (by simpa using hc)
  unfold offScreen at ho
  omega

/-- T7.5, where the second row is the first not reached; under `fault` the first row has no set bit. -/
theorem witness_DrawFaultsInRowMajorOrder_read :
    1 < (2 : Nibble).toNat ∧ edgeParams.oobPolicy = .fault ∧ 4096 ≤ ((withRegs edgeParams [(1, 31)]).setIndex 0xFFF).i.toNat + 1 ∧
    (∀ k, k < 1 → ((withRegs edgeParams [(1, 31)]).setIndex 0xFFF).i.toNat + k < 4096) ∧
    (∀ px py, py < 31 + 1 → offScreen px py → ((withRegs edgeParams [(1, 31)]).setIndex 0xFFF).spriteCovers 0 31 2 px py = false) := by
  refine ⟨by decide, by decide, by decide, by decide, fun px py hpy ho => ?_⟩
  by_contra hc
  have := spriteCovers_bounds (by simpa using hc)
  unfold offScreen at ho
  omega

/-- T7.4: the sprite byte 0xFF at column 60, whose first bit past the edge is in column 64. -/
theorem witness_DrawFaultsInRowMajorOrder_edge :
    let s := ((withRegs edgeParams [(0, 60)]).setIndex 0x20A).setByte 0x20A 0xFF
    s.params.spriteEdge = .fault ∧ offScreen 64 0 ∧ s.spriteCovers 60 0 1 64 0 = true ∧
    (∀ k, 0 + k ≤ 0 → s.reaches (s.i.toNat + k)) ∧
    (∀ qx qy, offScreen qx qy → s.spriteCovers 60 0 1 qx qy = true → 0 < qy ∨ (qy = 0 ∧ 64 ≤ qx)) := by
  refine ⟨by decide, by decide, by decide, fun k hk => ?_, fun qx qy ho hc => ?_⟩
  · have : k = 0 := by omega
    subst this; decide
  · have := spriteCovers_bounds hc
    unfold offScreen at ho
    omega

/-- Glyph 0 drawn and drawn again. -/
theorem witness_DrawingTwiceRestoresTheScreen :
    let s := State.reset.setIndex 0x050
    ∃ t t', s.running ∧ t.running ∧ exec (.drw 0 1 5) s = .next t ∧ t.fb = t.fb ∧ t.i = s.i ∧ t.params = s.params ∧
      (∀ k, k < (5 : Nibble).toNat → t.byteAt ((s.i.toNat + k) % 4096) = s.byteAt ((s.i.toNat + k) % 4096)) ∧
      (t.reg 0).toNat % 64 = (s.reg 0).toNat % 64 ∧ (t.reg 1).toNat % 32 = (s.reg 1).toNat % 32 ∧
      exec (.drw 0 1 5) t = .next t' :=
  ⟨_, _, rfl, rfl, rfl, rfl, rfl, rfl, fun _ _ => rfl, rfl, rfl, rfl⟩

theorem witness_KeySkipsReadOneKey :
    ((regs [(0, 15)]).reg 0).toNat < 16 ∧ (withRegs maskParams [(0, 255)]).params.oobPolicy = .mask ∧
    16 ≤ ((regs [(0, 16)]).reg 0).toNat ∧ 16 ≤ ((regs [(0, 255)]).reg 0).toNat ∧ (regs [(0, 16)]).params.oobPolicy = .fault := by decide

theorem witness_KeyWaitTakesLowestKeyOrRewinds :
    ((0x8001 : Word).getLsbD 0 = true ∧ ∀ j, j < 0 → (0x8001 : Word).getLsbD j = false) ∧
    ((0x8000 : Word).getLsbD 15 = true ∧ ∀ j, j < 15 → (0x8000 : Word).getLsbD j = false) ∧
    (∀ k, k < 16 → State.reset.keys.getLsbD k = false) := by decide

theorem witness_KeyWaitStallsTheProgramNotTheTimers :
    fetches (placed 0xF30A { State.reset with keys := 0xFFFF, keyWrites := [0], dt := 1 }) 0xF30A (.ldVxK 3) ∧
    ∀ k, k < 16 → (placed 0xF30A { State.reset with keys := 0xFFFF, keyWrites := [0], dt := 1 }).takeInputs.keys.getLsbD k = false := by
  decide

theorem witness_IndexWritesChangeOnlyIndex :
    State.reset.params.fontDigit = .full ∧ (withRegs { Params.default with fontDigit := .lowNibble } []).params.fontDigit = .lowNibble := by
  decide

theorem witness_StepRunsTheDecodedInstruction :
    fetches (placed 0xD12F (State.reset.setPc 0xFFE)) 0xD12F (.drw 1 2 15) ∧ fetches State.reset 0x0000 .cls := by decide

theorem witness_FetchIsBigEndian :
    (State.reset.setPc 0xFFE).reaches 0xFFE ∧ (State.reset.setPc 0xFFE).reaches 0xFFF ∧
    ((withRegs maskParams []).setPc 0xFFFF).reaches 0xFFFF ∧ ((withRegs maskParams []).setPc 0xFFFF).reaches 0x10000 := by decide

theorem witness_FetchOutOfRangeFaults :
    (State.reset.setPc 0xFFF).running ∧ State.reset.params.oobPolicy = .fault ∧ 4095 ≤ (State.reset.setPc 0xFFF).pc.toNat ∧
    4095 ≤ (State.reset.setPc 0xFFFF).pc.toNat := by decide

theorem witness_InvalidOpcodeIsANoOp :
    (placed 0x800F State.reset).running ∧ (placed 0x800F State.reset).fetch = .ok 0x800F ∧
    decodeWord State.reset.params 0x800F = .error (.family8 15) := by decide

theorem witness_EveryFaultIsPrecise :
    (∃ t, (State.reset.setPc 0xFFF).running ∧ step (State.reset.setPc 0xFFF) = .next t ∧ t.faultCause ≠ .none) ∧
    (∃ t, (placed 0x00EE State.reset).running ∧ step (placed 0x00EE State.reset) = .next t ∧ t.faultCause ≠ .none) :=
  ⟨⟨_, rfl, rfl, by decide⟩, ⟨_, rfl, rfl, by decide⟩⟩

/-- The instruction is fetched, and its cycle ends with the cause. -/
def causes (s : State) (w : Nat) (i : Instr) (c : Cause) : Bool :=
  fetches (placed w s) (BitVec.ofNat 16 w) i && decide (after w s (·.faultCause) = some c)

theorem witness_FaultCausesComeFromTheirInstructions :
    causes (State.reset.setIndex 0x1000) 0xD011 (.drw 0 1 1) .readOob ∧ causes (State.reset.setIndex 0xFFF) 0xF165 (.ldLoad 1) .readOob ∧
    causes (State.reset.setIndex 0xFFF) 0xF155 (.ldStore 1) .writeOob ∧ causes (State.reset.setIndex 0xFFE) 0xF033 (.ldB 0) .writeOob ∧
    causes { State.reset with sp := 16 } 0x2300 (.call 0x300) .stackOverflow ∧ causes State.reset 0x00EE .ret .stackUnderflow ∧
    causes (regs [(5, 16)]) 0xE59E (.skp 5) .keyOob ∧ causes (regs [(5, 255)]) 0xE5A1 (.sknp 5) .keyOob ∧
    causes (((withRegs edgeParams [(0, 57)]).setIndex 0x20A).setByte 0x20A 0x01) 0xD011 (.drw 0 1 1) .spriteEdge ∧
    causes State.reset 0x00E0 .cls .none := by decide

/-- The halted state of P6. -/
def haltedState : State :=
  { State.reset with faultCause := .stackUnderflow, faultPc := 0x200, faultWord := 0x00EE, currentInstruction := 0x00EE }

theorem witness_HaltedCoreChangesNothing : haltedState.faultCause ≠ .none ∧ haltedState.faultStatusCoherent :=
  ⟨by decide, ⟨rfl, rfl, rfl⟩, fun h => absurd h (by decide), fun _ => ⟨rfl, rfl, fun h => absurd h (by decide), fun _ => rfl⟩⟩

/-- All three permissive settings. -/
def permissiveParams : Params := { Params.default with oobPolicy := .mask, stackPolicy := .wrap, spriteEdge := .clip }

theorem witness_PermissiveSettingsNeverFault :
    (withRegs permissiveParams []).running ∧ permissiveParams.oobPolicy = .mask ∧ permissiveParams.stackPolicy = .wrap ∧
    permissiveParams.spriteEdge = .clip := by decide

/-- A cycle that writes DT, one that writes ST, one that writes neither, one quiet cycle, and one that faults. -/
theorem witness_TimersCountEveryCycle :
    (fetches (placed 0xFF15 State.reset) 0xFF15 (.ldDtVx 15) ∧ after 0xFF15 State.reset (·.faultCause) = some .none) ∧
    (fetches (placed 0xFF18 State.reset) 0xFF18 (.ldStVx 15) ∧ after 0xFF18 State.reset (·.faultCause) = some .none) ∧
    (fetches State.reset 0x0000 .cls ∧ ((ran 0 State.reset).map (·.faultCause)) = some .none) ∧
    after 0x00EE State.reset (·.faultCause) = some .stackUnderflow := by decide

theorem witness_TimersCountEveryCycle_quiet (bad : Instr → Bool) (h : bad .cls = false) :
    State.reset.quiet bad 1 ∧ ∃ t, Sys2Proof.core.run 1 State.reset = .next t := by
  have hf : State.reset.fetch = .ok 0x0000 := by decide
  have hd : decodeWord State.reset.params 0x0000 = .ok .cls := by decide
  refine ⟨⟨rfl, fun w i h1 h2 => ?_, _, rfl, rfl⟩, ⟨_, rfl⟩⟩
  rw [hf] at h1; cases h1
  rw [hd] at h2; cases h2
  exact h

/-- A register, the key wait's among them, the fault status, and the draws. -/
theorem witness_OnlyTheNamedInstructionsWrite_registers_and_status :
    (∃ t, exec (.ldImm 15 1) State.reset = .next t ∧ t.reg 15 ≠ State.reset.reg 15) ∧
    (∃ t, exec (.ldVxK 0) { State.reset with keys := 0x8000 } = .next t ∧ t.reg 0 ≠ State.reset.reg 0) ∧
    (∃ t, exec .ret State.reset = .next t ∧ t.faultCause ≠ State.reset.faultCause) ∧
    (∃ t, exec (.rnd 0 0) State.reset = .next t ∧ t.draws ≠ State.reset.draws) :=
  ⟨⟨_, rfl, by decide⟩, ⟨_, rfl, by decide⟩, ⟨_, rfl, by decide⟩, ⟨_, rfl, by decide⟩⟩

/-- Each kind of write, by an instruction of its own. -/
theorem witness_OnlyTheNamedInstructionsWrite :
    (∃ t, exec .cls (State.reset.setFb (Vector.replicate 32 1)) = .next t ∧ t.fb ≠ (State.reset.setFb (Vector.replicate 32 1)).fb) ∧
    (∃ t, exec (.ldB 0) ((regs [(0, 255)]).setIndex 0x300) = .next t ∧ t.memory ≠ ((regs [(0, 255)]).setIndex 0x300).memory) ∧
    (∃ t, exec (.call 0x300) State.reset = .next t ∧ t.stack ≠ State.reset.stack ∧ t.sp ≠ State.reset.sp ∧ t.pc ≠ State.reset.pc ∧ t.running) ∧
    (∃ t, exec (.ldDtVx 0) (regs [(0, 1)]) = .next t ∧ t.dt ≠ (regs [(0, 1)]).dt) ∧
    (∃ t, exec (.ldStVx 0) (regs [(0, 1)]) = .next t ∧ t.st ≠ (regs [(0, 1)]).st) ∧
    (∃ t, exec (.ldI 1) State.reset = .next t ∧ t.i ≠ State.reset.i) :=
  ⟨⟨_, rfl, by decide⟩, ⟨_, rfl, by decide⟩, ⟨_, rfl, by decide, by decide, by decide, rfl⟩, ⟨_, rfl, by decide⟩,
    ⟨_, rfl, by decide⟩, ⟨_, rfl, by decide⟩⟩

theorem witness_KeysAreReadOnlyByTheKeyInstructions :
    (∃ t, exec (.ldVxDt 0) State.reset = .next t) ∧
    (∀ x, Instr.ldVxDt 0 ≠ .skp x ∧ Instr.ldVxDt 0 ≠ .sknp x ∧ Instr.ldVxDt 0 ≠ .ldVxK x) :=
  ⟨⟨_, rfl⟩, fun _ => by simp⟩

theorem witness_SoundTimerIsNeverRead :
    (∃ t, State.reset.running ∧ step State.reset = .next t ∧ t.running ∧
      ∀ w x, State.reset.fetch = .ok w → decodeWord State.reset.params w ≠ .ok (.ldStVx x)) ∧
    (∃ t, Sys2Proof.core.run 2 State.reset = .next t) := by
  have hf : State.reset.fetch = .ok 0x0000 := by decide
  have hd : decodeWord State.reset.params 0x0000 = .ok .cls := by decide
  refine ⟨⟨_, rfl, rfl, rfl, fun w x h => ?_⟩, ⟨_, rfl⟩⟩
  rw [hf] at h; cases h
  rw [hd]; simp

theorem witness_OldInstructionWordIsInvisible : State.reset.running ∧ State.reset.fetch = .ok 0x0000 := by decide

/-- Two states that differ in the entry at the stack pointer. -/
theorem witness_StaleStackEntriesAreInvisible :
    State.reset.params.stackPolicy = .fault ∧
    ({ State.reset with sp := 15 } : State).sameLiveStack { State.reset with sp := 15, stack := State.reset.stack.set 15 0xFFFF } ∧
    ∃ t, Sys2Proof.core.run 2 { State.reset with sp := 15 } = .next t := by
  refine ⟨rfl, ⟨rfl, fun j hj hlt => ?_⟩, ⟨_, rfl⟩⟩
  have : j < 15 := hlt
  simp only
  rw [Vector.getElem_set_ne _ _ (by omega)]

/-- A running machine with canonical memory that fetches `i` and steps, and a fetch at `p` that is reached. -/
def storesThenFetches (s : State) (w : Nat) (i : Instr) (p : Nat) : Bool :=
  fetches (placed w s) (BitVec.ofNat 16 w) i && decide ((placed w s).memoryCanonical) && decide ((ran w s).map (·.faultCause) = some .none) &&
    decide ((placed w s).reaches p) && decide ((placed w s).reaches (p + 1))

/-- A range over both bytes of the next instruction; one that ends on its first byte; digits over the storing instruction itself;
and, under `mask`, a range and a fetch that wrap. -/
theorem witness_StoreIsSeenByTheNextFetch :
    (storesThenFetches (State.reset.setIndex 0x202) 0xF155 (.ldStore 1) 0x202 ∧
      ∀ k, k ≤ (1 : Reg).val → (State.reset.setIndex 0x202).reaches (0x202 + k)) ∧
    (storesThenFetches (State.reset.setIndex 0x1F3) 0xFF55 (.ldStore 15) 0x202 ∧
      ∀ k, k ≤ (15 : Reg).val → (State.reset.setIndex 0x1F3).reaches (0x1F3 + k)) ∧
    (storesThenFetches ((regs [(0, 0x7B)]).setIndex 0x200) 0xF033 (.ldB 0) 0x200 ∧
      ∀ k, k ≤ 2 → ((regs [(0, 0x7B)]).setIndex 0x200).reaches (0x200 + k)) ∧
    (storesThenFetches ((withRegs maskParams []).setIndex 0xFFFF) 0xF155 (.ldStore 1) 0xFFFF ∧
      ∀ k, k ≤ (1 : Reg).val → ((withRegs maskParams []).setIndex 0xFFFF).reaches (0xFFFF + k)) := by decide

theorem witness_PlacedInstructionIsRun :
    (State.reset.setPc 0xFFE).running ∧ (State.reset.setPc 0xFFE).memoryCanonical ∧ (State.reset.setPc 0xFFE).pc.toNat < 4095 ∧
    (Instr.ldLoad 15).wellFormed State.reset.params = true := by decide

/-- A step that stores, from a memory that already lists a cell. -/
theorem witness_StepKeepsMemoryCanonical :
    ∃ t, (placed 0xF033 ((regs [(0, 255)]).setIndex 0xFFD)).memoryCanonical ∧
      step (placed 0xF033 ((regs [(0, 255)]).setIndex 0xFFD)) = .next t ∧ t.memory ≠ (placed 0xF033 ((regs [(0, 255)]).setIndex 0xFFD)).memory :=
  ⟨_, by decide, rfl, by decide⟩

theorem witness_StepKeepsStackPointerLegal :
    ∃ t, ({ placed 0x2300 (withRegs wrapParams []) with sp := 15 } : State).stackPointerLegal ∧
      step { placed 0x2300 (withRegs wrapParams []) with sp := 15 } = .next t :=
  ⟨_, fun _ => by decide, rfl⟩

theorem witness_StepKeepsFaultStatusCoherent :
    (State.reset.faultStatusCoherent ∧ ∃ t, step State.reset = .next t) ∧
    ((placed 0x00EE State.reset).faultStatusCoherent ∧ ∃ t, step (placed 0x00EE State.reset) = .next t ∧ t.faultCause = .stackUnderflow) :=
  ⟨⟨⟨rfl, fun _ => ⟨rfl, rfl⟩, fun h => absurd rfl h⟩, _, rfl⟩, ⟨⟨rfl, fun _ => ⟨rfl, rfl⟩, fun h => absurd rfl h⟩, _, rfl, rfl⟩⟩

theorem witness_ResetLeavesTheStatedValues :
    (0xFFF < 4096 ∧ 0x0A0 ≤ 0xFFF) ∧ (0x04F < 4096 ∧ 0x04F < 0x050) ∧ (0x0A0 < 4096 ∧ 0x0A0 ≤ 0x0A0) ∧ 15 < 16 ∧ 4 < 5 ∧ 63 < 64 ∧
    31 < 32 := by decide

/-- The last cell of the screen, and a state with and without a report. -/
theorem witness_OutputPortsShowTheState :
    63 < 64 ∧ 31 < 32 ∧ State.reset.invalidOpcode = false ∧ ({ State.reset with invalidOpcode := true } : State).invalidOpcode = true := by
  decide

/-- The longest image, the shortest that is too long, and a machine that has run. -/
theorem witness_LoaderCopiesTheImage :
    State.reset.memoryCanonical ∧ State.reset.started = false ∧ (List.replicate 3584 (0xFF : Byte)).length ≤ 3584 ∧
    3584 < (List.replicate 3585 (0xFF : Byte)).length ∧ State.reset.takeInputs.started = true :=
  ⟨rfl, rfl, by rw [List.length_replicate], by rw [List.length_replicate]; decide, rfl⟩

/-- A schedule with a write and one without, in cycles of a running CORE, and a cycle of a halted one. -/
theorem witness_InputsAreTakenOncePerCycle :
    (∃ t, ({ State.reset with keyWrites := [0x8000] } : State).keyWrites = 0x8000 :: [] ∧
      ({ State.reset with keyWrites := [0x8000] } : State).running ∧ step { State.reset with keyWrites := [0x8000] } = .next t) ∧
    (∃ t, State.reset.keyWrites = [] ∧ State.reset.running ∧ step State.reset = .next t) ∧
    (∃ t, ({ State.reset with faultCause := .stackUnderflow } : State).faultCause ≠ .none ∧
      step { State.reset with faultCause := .stackUnderflow } = .next t) :=
  ⟨⟨_, rfl, rfl, rfl⟩, ⟨_, rfl, rfl, rfl⟩, ⟨_, by decide, rfl⟩⟩

end Sys2Proof.Tests
end

namespace Sys2Proof.Machine

/-! ## The register file (R20) -/

/-- Settles O13: both loads are register writes, so the register-file laws of `State.setReg` give every clause. -/
theorem registerFileHasNoAlias : Obligations.RegisterFileHasNoAlias := by
  intro s x y b
  refine ⟨s.reg_setReg_same x b, s.reg_setReg_other x y b, s.setReg x b, rfl,
    (s.setReg x b).setReg y ((s.setReg x b).reg x), rfl, ?_, fun z hx hy => ?_⟩
  · rw [State.reg_setReg_same, State.reg_setReg_same]
  · rw [State.reg_setReg_other _ _ _ _ hy, State.reg_setReg_other _ _ _ _ hx]

/-! ## The sound timer (R27)

The noninterference is a simulation between `s` and `s.setSt b`: every operation a handler uses commutes with `State.setSt`, so
every handler but that of LD ST,Vx does; a cycle and then a run carry the relation on. -/

/-! The shared operations commute with a change of the sound timer. -/

theorem State.skipIf_setSt (s : State) (b : Byte) (c : Bool) : (s.setSt b).skipIf c = (s.skipIf c).setSt b := by
  cases c <;> rfl

theorem State.writeResultAndFlag_setSt (s : State) (b : Byte) (x : Reg) (rf : Byte × Bool) :
    (s.setSt b).writeResultAndFlag x rf = (s.writeResultAndFlag x rf).setSt b := by
  simp only [State.writeResultAndFlag, State.setSt_params]
  cases s.params.flagOrder <;> rfl

theorem State.push_setSt (s : State) (b : Byte) (w : Word) : (s.setSt b).push w = (s.push w).map (·.setSt b) := by
  simp only [State.push, State.setSt_params]
  cases s.params.stackPolicy with
  | wrap => rfl
  | fault => by_cases h : s.sp.val < 16 <;> simp [h, State.setSt]

theorem State.pop_setSt (s : State) (b : Byte) : (s.setSt b).pop = s.pop.map fun wt => (wt.1, wt.2.setSt b) := by
  simp only [State.pop, State.setSt_params]
  cases s.params.stackPolicy with
  | wrap => rfl
  | fault => by_cases h : s.sp.val = 0 <;> simp [h, State.setSt]

theorem State.memWrite_setSt (b : Byte) (s : State) (a : Nat) (v : Byte) :
    (s.setSt b).memWrite a v = (s.memWrite a v).map (·.setSt b) := by
  have hr : (s.setSt b).resolve .writeOob a = s.resolve .writeOob a := rfl
  simp only [State.memWrite, hr]
  cases s.resolve .writeOob a <;> rfl

theorem State.storeAt_setSt (s : State) (b : Byte) (cells : List (Nat × Byte)) :
    (s.setSt b).storeAt cells = (s.storeAt cells).map (·.setSt b) :=
  storeFold_map (·.setSt b) (State.memWrite_setSt b) s.i.toNat cells s

theorem State.loadFrom_setSt (s : State) (b : Byte) (regs : List Reg) :
    (s.setSt b).loadFrom regs = (s.loadFrom regs).map (·.setSt b) :=
  loadFold_map (·.setSt b) (fun _ _ _ => rfl) s (s.setSt b) (State.memRead_congr rfl rfl .readOob) s.i.toNat regs s

theorem State.keyRead_setSt (s : State) (b k : Byte) : (s.setSt b).keyRead k = (s.keyRead k).map id := by
  rw [Except.map_id]; rfl

theorem State.drawSprite_setSt (s : State) (b : Byte) (x0 y0 : Nat) (n : Nibble) :
    (s.setSt b).drawSprite x0 y0 n = (s.drawSprite x0 y0 n).map id := by
  rw [Except.map_id, State.drawSprite_congr (s := s) rfl rfl rfl rfl]; rfl

theorem State.takeInputs_setSt (s : State) (b : Byte) : (s.setSt b).takeInputs = s.takeInputs.setSt b := by
  simp only [State.takeInputs, State.setSt_keyWrites]
  cases s.keyWrites <;> rfl

theorem handlerState_setSt (w : Word) (s : State) (b : Byte) :
    handlerState w (s.setSt b) = (handlerState w s).setSt b := by
  rw [handlerState, State.takeInputs_setSt]; rfl

theorem State.endCycle_setSt (s : State) (b : Byte) : ∃ c, (s.setSt b).endCycle = s.endCycle.setSt c := by
  by_cases h : s.running
  · exact ⟨countDown b, by rw [State.endCycle_of_running h, State.endCycle_of_running (s := s.setSt b) h]; rfl⟩
  · exact ⟨b, by rw [State.endCycle_of_halted h, State.endCycle_of_halted (s := s.setSt b) h]⟩

/-- A handler whose run commutes with a change of the sound timer ends alike, fault entry included. -/
theorem finish_setSt {s t : State} {r r' : Except Raise State} (b : Byte) (hr : r' = r.map (·.setSt b))
    (h : finish s r = .next t) : finish (s.setSt b) r' = .next (t.setSt b) := by
  rw [hr, finish_map (·.setSt b) (fun _ _ => rfl), h]

/-- The same for a handler that puts its result together with `g` from what a shared operation answers. -/
theorem finish_map_setSt {α : Type} {s t : State} {x x' : Except Raise α} {g g' : α → State} (f : α → α) (b : Byte)
    (hx : x' = x.map f) (hg : ∀ a, g' (f a) = (g a).setSt b) (h : finish s (x.map g) = .next t) :
    finish (s.setSt b) (x'.map g') = .next (t.setSt b) := by
  refine finish_setSt b ?_ h
  rw [hx]
  cases x with
  | ok a => exact congrArg Except.ok (hg a)
  | error r => rfl

/-! The instructions. -/

/-- Every instruction but LD ST,Vx answers the same whatever the sound timer holds, and leaves it as it is. -/
theorem exec_setSt_of_ne {i : Instr} {s t : State} (b : Byte) (hi : ∀ x, i ≠ .ldStVx x) (h : exec i s = .next t) :
    exec i (s.setSt b) = .next (t.setSt b) := by
  cases i with
  | ldStVx x => exact absurd rfl (hi x)
  | call nnn => exact finish_map_setSt (·.setSt b) b (s.push_setSt b _) (fun _ => rfl) h
  | ret => exact finish_map_setSt (fun wt => (wt.1, wt.2.setSt b)) b (s.pop_setSt b) (fun _ => rfl) h
  | ldStore x => exact finish_map_setSt (·.setSt b) b (s.storeAt_setSt b _) (fun _ => rfl) h
  | ldLoad x => exact finish_map_setSt (·.setSt b) b (s.loadFrom_setSt b _) (fun _ => rfl) h
  | ldB x => exact finish_setSt b (s.storeAt_setSt b _) h
  | skp x => exact finish_map_setSt id b (s.keyRead_setSt b _) (fun c => s.skipIf_setSt b c) h
  | sknp x => exact finish_map_setSt id b (s.keyRead_setSt b _) (fun c => s.skipIf_setSt b (!c)) h
  | drw x y n => exact finish_map_setSt id b (s.drawSprite_setSt b _ _ n) (fun _ => rfl) h
  | ldVxK x =>
    have hk : (s.setSt b).lowestKey = s.lowestKey := rfl
    cases e : s.lowestKey with
    | some k => rw [exec_ldVxK_pressed e] at h; cases h; exact exec_ldVxK_pressed (hk.trans e)
    | none => rw [exec_ldVxK_none e] at h; cases h; exact exec_ldVxK_none (hk.trans e)
  | seImm | sneImm | seReg | sneReg => cases h; exact congrArg _ (State.skipIf_setSt s b _)
  | addReg | sub | subn | shr | shl => cases h; exact congrArg _ (State.writeResultAndFlag_setSt s b _ _)
  | cls | jp | ldImm | addImm | ldReg | orReg | andReg | xorReg | ldI | jpV0 | rnd | ldVxDt | ldDtVx | addI | ldF =>
    cases h; rfl

/-- No instruction reads the sound timer: what it leaves differs at most there. -/
theorem exec_setSt {i : Instr} {s t : State} (b : Byte) (h : exec i s = .next t) :
    ∃ c, exec i (s.setSt b) = .next (t.setSt c) := by
  by_cases hi : ∃ x, i = .ldStVx x
  · obtain ⟨x, rfl⟩ := hi
    cases h
    exact ⟨s.reg x, rfl⟩
  · exact ⟨b, exec_setSt_of_ne b (not_exists.mp hi) h⟩

/-- An instruction other than LD ST,Vx that raises nothing leaves the sound timer. -/
theorem ownFrame_st {i : Instr} {s t : State} (h : ownFrame s t i) (hi : ∀ x, i ≠ .ldStVx x) : t.st = s.st := by
  cases i with
  | ldStVx x => exact absurd rfl (hi x)
  | cls | ret | call | jp | jpV0 | seImm | sneImm | seReg | sneReg | skp | sknp | ldDtVx | ldI | addI | ldF | ldB | ldStore =>
    simp only [ownFrame] at h; rw [h]
  | ldImm | addImm | ldReg | orReg | andReg | xorReg | ldVxDt | addReg | sub | subn | shr | shl | rnd | drw | ldVxK | ldLoad =>
    rw [h.1]

/-! A cycle and a run. -/

theorem step_setSt {s t : State} (b : Byte) (h : step s = .next t) : ∃ c, step (s.setSt b) = .next (t.setSt c) := by
  have hf : (s.setSt b).fetch = s.fetch := State.fetch_congr rfl rfl rfl
  rcases step_cases s with ⟨hs, e⟩ | ⟨hs, _, _, hw, e⟩ | ⟨hs, w, r, hw, hd, e⟩ | ⟨hs, w, i, u, hw, hd, hx, e, _⟩
  all_goals rw [e] at h; cases h
  · exact ⟨b, step_halted (s := s.setSt b) hs⟩
  · exact ⟨b, by rw [step_fetch_error (s := s.setSt b) hs (hf.trans hw), State.takeInputs_setSt]; rfl⟩
  · exact ⟨countDown b, by rw [step_invalid (s := s.setSt b) hs (hf.trans hw) hd, handlerState_setSt]; rfl⟩
  · obtain ⟨c, hc⟩ := exec_setSt b hx
    obtain ⟨d, hd'⟩ := State.endCycle_setSt u c
    exact ⟨d, by rw [step_instr (s := s.setSt b) hs (hf.trans hw) hd (by rw [handlerState_setSt, hc]), hd']⟩

theorem run_setSt {n : Nat} {s t : State} (b : Byte) (h : Sys2Proof.core.run n s = .next t) :
    ∃ c, Sys2Proof.core.run n (s.setSt b) = .next (t.setSt c) := by
  induction n generalizing s b with
  | zero => cases h; exact ⟨b, rfl⟩
  | succ n ih =>
    obtain ⟨u, hu, hr⟩ := run_succ_cases h
    obtain ⟨c, hc⟩ := step_setSt b hu
    rw [run_of_step hc]
    exact ih c hr

/-- The countdown of R245: a cycle that does not fault and does not run LD ST,Vx. -/
theorem step_st_toNat {s t : State} (hs : s.running) (h : step s = .next t) (ht : t.running)
    (hi : ∀ w x, s.fetch = .ok w → decodeWord s.params w ≠ .ok (.ldStVx x)) : t.st.toNat = s.st.toNat - 1 := by
  rcases step_cases s with ⟨hn, _⟩ | ⟨_, _, _, _, e⟩ | ⟨_, w, r, _, _, e⟩ | ⟨_, w, i, u, hw, hd, _, e, hu⟩
  · exact absurd hs hn
  all_goals rw [e] at h; cases h
  · cases ht
  · simp [countDown_toNat, handlerState]
  · rcases hu with ⟨ho, hr⟩ | ⟨c, n, hc, rfl⟩
    · have hst : u.st = (handlerState w s).st := ownFrame_st ho fun x hx => hi w x hw (hx ▸ hd)
      simp [State.endCycle_of_running hr, countDown_toNat, hst, handlerState]
    · rw [State.endCycle_of_halted (mayRaise_ne_none hc)] at ht
      exact absurd ht (mayRaise_ne_none hc)

/-- Settles O47: the write and the host's port by definition, the countdown by `step_st_toNat`, the noninterference by
`run_setSt`, the simulation between a state and the same state with another sound timer. -/
theorem soundTimerIsNeverRead : Obligations.SoundTimerIsNeverRead :=
  ⟨fun x s => ⟨s.setSt (s.reg x), rfl, rfl⟩, fun _ _ => step_st_toNat, fun _ => rfl, fun _ _ _ b h => run_setSt b h⟩

end Sys2Proof.Machine

namespace Sys2Proof.Machine

/-! ## The timers (R245)

A cycle that ends running is inverted once (`step_running_cases`); each timer's countdown follows for one cycle, and
`quiet_countDown` carries it, for either timer, over `n` cycles. -/

theorem handlerState_reg (w : Word) (s : State) (r : Reg) : (handlerState w s).reg r = s.reg r :=
  State.reg_of_v (by simp [handlerState]) r

theorem handlerState_running {s : State} (w : Word) (hs : s.running) : (handlerState w s).running := by
  simp [State.running, handlerState, hs]

/-- Inversion of a cycle that begins and ends running: it fetched, its word was invalid or its instruction raised nothing, and
the timers were counted. -/
theorem step_running_cases {s t : State} (hs : s.running) (h : step s = .next t) (ht : t.running) :
    ∃ w, s.fetch = .ok w ∧
      ((∃ r, decodeWord s.params w = .error r ∧ t = ((handlerState w s).setInvalid true).tick) ∨
       ∃ i u, decodeWord s.params w = .ok i ∧ ownFrame (handlerState w s) u i ∧ t = u.tick) := by
  rcases step_cases s with ⟨hn, _⟩ | ⟨_, _, _, _, e⟩ | ⟨_, w, r, hw, hd, e⟩ | ⟨_, w, i, u, hw, hd, _, e, hu⟩
  · exact absurd hs hn
  all_goals rw [e] at h; cases h
  · cases ht
  · exact ⟨w, hw, .inl ⟨r, hd, rfl⟩⟩
  · rcases hu with ⟨ho, hr⟩ | ⟨c, n, hc, rfl⟩
    · exact ⟨w, hw, .inr ⟨i, u, hd, ho, State.endCycle_of_running hr⟩⟩
    · rw [State.endCycle_of_halted (mayRaise_ne_none hc)] at ht
      exact absurd ht (mayRaise_ne_none hc)

/-! One cycle that rewrites a timer. -/

theorem step_ldDtVx_toNat {s t : State} {w : Word} {x : Reg} (hs : s.running) (h : step s = .next t) (hw : s.fetch = .ok w)
    (hd : decodeWord s.params w = .ok (.ldDtVx x)) : t.dt.toNat = (s.reg x).toNat - 1 := by
  have hr : ((handlerState w s).setDt ((handlerState w s).reg x)).running := handlerState_running w hs
  rw [step_instr hs hw hd rfl, State.endCycle_of_running hr] at h
  cases h
  simp [countDown_toNat, handlerState_reg]

theorem step_ldStVx_toNat {s t : State} {w : Word} {x : Reg} (hs : s.running) (h : step s = .next t) (hw : s.fetch = .ok w)
    (hd : decodeWord s.params w = .ok (.ldStVx x)) : t.st.toNat = (s.reg x).toNat - 1 := by
  have hr : ((handlerState w s).setSt ((handlerState w s).reg x)).running := handlerState_running w hs
  rw [step_instr hs hw hd rfl, State.endCycle_of_running hr] at h
  cases h
  simp [countDown_toNat, handlerState_reg]

/-! One cycle that leaves DT to the countdown; for ST it is `step_st_toNat`. -/

/-- An instruction other than LD DT,Vx that raises nothing leaves the delay timer. -/
theorem ownFrame_dt {i : Instr} {s t : State} (h : ownFrame s t i) (hi : ∀ x, i ≠ .ldDtVx x) : t.dt = s.dt := by
  cases i with
  | ldDtVx x => exact absurd rfl (hi x)
  | cls | ret | call | jp | jpV0 | seImm | sneImm | seReg | sneReg | skp | sknp | ldStVx | ldI | addI | ldF | ldB | ldStore =>
    simp only [ownFrame] at h; rw [h]
  | ldImm | addImm | ldReg | orReg | andReg | xorReg | ldVxDt | addReg | sub | subn | shr | shl | rnd | drw | ldVxK | ldLoad =>
    rw [h.1]

theorem step_dt_toNat {s t : State} (hs : s.running) (h : step s = .next t) (ht : t.running)
    (hi : ∀ w x, s.fetch = .ok w → decodeWord s.params w ≠ .ok (.ldDtVx x)) : t.dt.toNat = s.dt.toNat - 1 := by
  obtain ⟨w, hw, ⟨r, _, rfl⟩ | ⟨i, u, hd, ho, rfl⟩⟩ := step_running_cases hs h ht
  · simp [countDown_toNat, handlerState]
  · have hdt : u.dt = (handlerState w s).dt := ownFrame_dt ho fun x hx => hi w x hw (hx ▸ hd)
    simp [countDown_toNat, hdt, handlerState]

/-! One cycle that ends halted. -/

/-- A CORE that was halted, a fetch fault and a handler's fault all leave the timers. -/
theorem step_halted_timers {s t : State} (h : step s = .next t) (ht : t.faultCause ≠ .none) : t.dt = s.dt ∧ t.st = s.st := by
  rcases step_cases s with ⟨_, e⟩ | ⟨_, _, _, _, e⟩ | ⟨hs, w, r, _, _, e⟩ | ⟨_, w, i, u, _, _, _, e, hu⟩
  all_goals rw [e] at h; cases h
  · exact ⟨rfl, rfl⟩
  · simp [takeFetchFault]
  · exact absurd (handlerState_running w hs) ht
  · rcases hu with ⟨_, hr⟩ | ⟨c, n, hc, rfl⟩
    · rw [State.endCycle_of_running hr] at ht
      exact absurd hr ht
    · rw [State.endCycle_of_halted (mayRaise_ne_none hc)]
      simp [faultEntry, handlerState]

/-! `n` quiet cycles. -/

theorem State.running_of_quiet {bad : Instr → Bool} {n : Nat} {s : State} (h : s.quiet bad n) : s.running := by
  cases n with
  | zero => exact h
  | succ n => exact h.1

/-- A timer that counts in every cycle that ends running and does not fetch an instruction named by `bad` is `n` lower after `n`
such cycles, and 0 at the least. -/
theorem quiet_countDown {timer : State → Byte} {bad : Instr → Bool}
    (hstep : ∀ {s t : State}, s.running → step s = .next t → t.running →
      (∀ w i, s.fetch = .ok w → decodeWord s.params w = .ok i → bad i = false) → (timer t).toNat = (timer s).toNat - 1)
    {n : Nat} {s t : State} (hq : s.quiet bad n) (h : Sys2Proof.core.run n s = .next t) :
    (timer t).toNat = (timer s).toNat - n := by
  induction n generalizing s with
  | zero => cases h; rfl
  | succ n ih =>
    obtain ⟨hs, hbad, u, hu, hqu⟩ := hq
    rw [run_of_step hu] at h
    rw [ih hqu h, hstep hs hu (State.running_of_quiet hqu) hbad]
    omega

/-- The hypothesis of a quiet cycle excludes each instruction `bad` names. -/
theorem decodeWord_ne_of_quiet {bad : Instr → Bool} {s : State} {load : Reg → Instr} (hload : ∀ x, bad (load x) = true)
    (h : ∀ w i, s.fetch = .ok w → decodeWord s.params w = .ok i → bad i = false) (w : Word) (x : Reg) (hw : s.fetch = .ok w) :
    decodeWord s.params w ≠ .ok (load x) := fun hd => by
  have hx := h w _ hw hd
  rw [hload x] at hx
  cases hx

/-- Settles O44: the cycles that rewrite a timer by `step_ldDtVx_toNat` and `step_ldStVx_toNat`, those that do not by
`step_dt_toNat` and `step_st_toNat`, the quiet runs by `quiet_countDown`, a cycle that ends halted by `step_halted_timers`. -/
theorem timersCountEveryCycle : Obligations.TimersCountEveryCycle := by
  refine ⟨fun s t hs h ht => ⟨fun w x => step_ldDtVx_toNat hs h, step_dt_toNat hs h ht, fun w x => step_ldStVx_toNat hs h,
    step_st_toNat hs h ht⟩, fun n s t h => ⟨fun hq => ?_, fun hq => ?_⟩, fun s t => step_halted_timers⟩
  · exact quiet_countDown (timer := State.dt)
      (fun hs h ht hb => step_dt_toNat hs h ht (decodeWord_ne_of_quiet (load := .ldDtVx) (fun _ => rfl) hb)) hq h
  · exact quiet_countDown (timer := State.st)
      (fun hs h ht hb => step_st_toNat hs h ht (decodeWord_ne_of_quiet (load := .ldStVx) (fun _ => rfl) hb)) hq h

end Sys2Proof.Machine

namespace Sys2Proof

/-! ## The decoder (R81 to R90)

A word is dispatched on its family, and in families 0, 8, E and F on its low bits; each dispatch is inverted once. -/

/-- The decoder reads every instruction a build has from its word: the encoder's fields are the fields the decoder dispatches on. -/
theorem decodeWord_encode (p : Params) (i : Instr) (h : i.wellFormed p = true) : decodeWord p (encode i) = .ok i := by
  cases i with
  | cls | ret => rfl
  | jp | call | ldI | jpV0 => simp [decodeWord, encode]
  | seImm | sneImm | ldImm | addImm | rnd => simp [decodeWord, encode]
  | seReg | sneReg | drw => simp [decodeWord, encode]
  | ldReg | orReg | andReg | xorReg | addReg | sub | shr | shl => simp [decodeWord, decode8, encode]
  | subn => simp [decodeWord, decode8, encode, show p.hasSubn = true from h]
  | skp | sknp => simp [decodeWord, decodeE, encode]
  | ldVxDt | ldVxK | ldDtVx | ldStVx | addI | ldF | ldB | ldStore | ldLoad => simp [decodeWord, decodeF, encode]

/-- Settles O1: the word by `decodeWord_encode`, the bytes because a word is put together again from its bytes. -/
theorem decodeOfEncodeIsIdentity : Obligations.DecodeOfEncodeIsIdentity := by
  intro p i h
  have hw := decodeWord_encode p i h
  exact ⟨hw, by simp [decodeBytes, encodeBytes, hw]⟩

/-- Settles O2: nine closed words. -/
theorem decodeWordsWrittenOut : Obligations.DecodeWordsWrittenOut := by
  unfold Obligations.DecodeWordsWrittenOut
  decide

/-! The dispatch on numbers. -/

theorem familyOf_eq {w : Word} {k : Nat} (h : w.toNat / 4096 = k) : familyOf w = BitVec.ofNat 4 k := by
  rw [← h, ← familyOf_toNat, BitVec.ofNat_toNat, BitVec.setWidth_eq]

theorem fieldN_eq {w : Word} {k : Nat} (h : w.toNat % 16 = k) : fieldN w = BitVec.ofNat 4 k := by
  rw [← h, ← fieldN_toNat, BitVec.ofNat_toNat, BitVec.setWidth_eq]

theorem fieldNN_eq {w : Word} {k : Nat} (h : w.toNat % 256 = k) : fieldNN w = BitVec.ofNat 8 k := by
  rw [← h, ← fieldNN_toNat, BitVec.ofNat_toNat, BitVec.setWidth_eq]

theorem fieldNNN_eq {w : Word} {k : Nat} (h : w.toNat % 4096 = k) : fieldNNN w = BitVec.ofNat 12 k := by
  rw [← h, ← fieldNNN_toNat, BitVec.ofNat_toNat, BitVec.setWidth_eq]

/-- Settles O3: the numbers of a row are its fields, and the dispatch on them is closed. -/
theorem decodeReadsEveryRow : Obligations.DecodeReadsEveryRow := by
  intro p w x y hx hy
  obtain rfl : x = fieldX w := Fin.ext (hx.trans (fieldX_val w).symm)
  obtain rfl : y = fieldY w := Fin.ext (hy.trans (fieldY_val w).symm)
  dsimp only
  rw [← fieldNNN_eq rfl, ← fieldNN_eq rfl, ← fieldN_eq rfl]
  refine ⟨?cls, ?ret, ?jp, ?call, ?seImm, ?sneImm, ?seReg, ?ldImm, ?addImm, ?ldReg, ?orReg, ?andReg, ?xorReg, ?addReg, ?sub, ?shr,
    ?subn, ?shl, ?sneReg, ?ldI, ?jpV0, ?rnd, ?drw, ?skp, ?sknp, ?ldVxDt, ?ldVxK, ?ldDtVx, ?ldStVx, ?addI, ?ldF, ?ldB, ?ldStore,
    ?ldLoad⟩
  -- families with no sub-dispatch
  case jp | call | seImm | sneImm | seReg | ldImm | addImm | sneReg | ldI | jpV0 | rnd | drw =>
    intro hf
    simp only [decodeWord, familyOf_eq hf]
  -- families that dispatch on N
  case cls | ret =>
    intro hf hn
    simp only [decodeWord, familyOf_eq hf, decode0, fieldN_eq hn]
  case ldReg | orReg | andReg | xorReg | addReg | sub | shr | shl =>
    intro hf hn
    simp only [decodeWord, familyOf_eq hf, decode8, fieldN_eq hn]
  case subn =>
    intro hf hn hs
    simp only [decodeWord, familyOf_eq hf, decode8, fieldN_eq hn, hs, if_true]
  case skp | sknp =>
    intro hf hn
    simp only [decodeWord, familyOf_eq hf, decodeE, fieldN_eq hn]
  -- the family that dispatches on NN
  case ldVxDt | ldVxK | ldDtVx | ldStVx | addI | ldF | ldB | ldStore | ldLoad =>
    intro hf hn
    simp [decodeWord, familyOf_eq hf, decodeF, fieldNN_eq hn]

/-! The invalid words, dispatch by dispatch. -/

theorem decode0_error_iff (w : Word) : (∃ r, decode0 w = .error r) ↔ fieldN w ≠ 0 ∧ fieldN w ≠ 14 := by
  unfold decode0
  split <;> simp_all

theorem decode8_error_iff (p : Params) (w : Word) :
    (∃ r, decode8 p w = .error r) ↔
      fieldN w ∉ [0x0#4, 0x1#4, 0x2#4, 0x3#4, 0x4#4, 0x5#4, 0x6#4, 0x7#4, 0xE#4] ∨ (fieldN w = 7 ∧ p.hasSubn = false) := by
  unfold decode8
  split
  case h_8 h => cases hs : p.hasSubn <;> simp [h]
  all_goals simp_all

theorem decodeE_error_iff (w : Word) : (∃ r, decodeE w = .error r) ↔ fieldN w ≠ 1 ∧ fieldN w ≠ 14 := by
  unfold decodeE
  split <;> simp_all

theorem decodeF_error_iff (w : Word) :
    (∃ r, decodeF w = .error r) ↔ fieldNN w ∉ [0x07#8, 0x0A#8, 0x15#8, 0x18#8, 0x1E#8, 0x29#8, 0x33#8, 0x55#8, 0x65#8] := by
  unfold decodeF
  split <;> simp_all

/-- Only families 0, 8, E and F hold invalid words. -/
theorem decodeWord_error_iff (p : Params) (w : Word) :
    (∃ r, decodeWord p w = .error r) ↔
      (familyOf w = 0x0 ∧ ∃ r, decode0 w = .error r) ∨ (familyOf w = 0x8 ∧ ∃ r, decode8 p w = .error r) ∨
      (familyOf w = 0xE ∧ ∃ r, decodeE w = .error r) ∨ (familyOf w = 0xF ∧ ∃ r, decodeF w = .error r) := by
  have last : ∀ f : Nibble, f ∉ [0x0#4, 0x1#4, 0x2#4, 0x3#4, 0x4#4, 0x5#4, 0x6#4, 0x7#4, 0x8#4, 0x9#4, 0xA#4, 0xB#4, 0xC#4,
      0xD#4, 0xE#4] → f = 0xF := by decide
  unfold decodeWord
  split
  case h_16 =>
    have hf : familyOf w = 0xF := last _ (by simp only [List.mem_cons, List.not_mem_nil, or_false, not_or]; and_intros <;> assumption)
    simp [hf]
  all_goals
    rename_i hf
    simp [hf]

/-- The decoder gives SUBN only where the build has it (R144). -/
theorem decodeWord_wellFormed {p : Params} {w : Word} {i : Instr} (h : decodeWord p w = .ok i) : i.wellFormed p = true := by
  unfold decodeWord at h
  split at h
  case h_1 => unfold decode0 at h; split at h <;> cases h <;> rfl
  case h_9 =>
    unfold decode8 at h
    split at h
    case h_8 => cases hs : p.hasSubn <;> rw [hs] at h <;> cases h; exact hs
    all_goals cases h <;> rfl
  case h_15 => unfold decodeE at h; split at h <;> cases h <;> rfl
  case h_16 => unfold decodeF at h; split at h <;> cases h <;> rfl
  all_goals cases h; rfl

/-- Settles O4: the dispatches' invalid words, read as numbers. -/
theorem invalidWordsAreExactlyTheTable : Obligations.InvalidWordsAreExactlyTheTable := by
  intro p w
  refine ⟨?_, fun i => decodeWord_wellFormed⟩
  have hN := Nat.mod_lt w.toNat (show 0 < 16 by decide)
  rw [decodeWord_error_iff, decode0_error_iff, decode8_error_iff, decodeE_error_iff, decodeF_error_iff]
  refine or_congr ?family0 (or_congr (and_congr ?family8 (or_congr ?sub8 ?subn)) (or_congr ?familyE ?familyF))
  case sub8 =>
    simp only [List.mem_cons, List.not_mem_nil, or_false, BitVec.toNat_eq, fieldN_toNat, BitVec.toNat_ofNat]
    omega
  all_goals simp [BitVec.toNat_eq, familyOf_toNat, fieldN_toNat, fieldNN_toNat]

end Sys2Proof

namespace Sys2Proof.Machine

/-! ## The cycle (R95, R96)

Every rule about a cycle comes from `step_cases`, read at the two places below: what a cycle that ends halted did, and what
every cycle keeps. -/

/-- Settles O43: `exec_cases` and `step_answers_next`. -/
theorem everyInstructionAndCycleAnswersNext : Obligations.EveryInstructionAndCycleAnswersNext :=
  ⟨fun i s => (exec_cases i s).imp fun _ h => h.1, step_answers_next⟩

/-- A running CORE that fetched an instruction runs it, whatever it is. -/
theorem step_runs_exec {s : State} {w : Word} {i : Instr} (hs : s.running) (hw : s.fetch = .ok w)
    (hd : decodeWord s.params w = .ok i) : ∃ t, exec i (handlerState w s) = .next t ∧ step s = .next t.endCycle := by
  obtain ⟨t, ht, _⟩ := exec_cases i (handlerState w s)
  exact ⟨t, ht, step_instr hs hw hd ht⟩

/-- Settles O35: `exec_cases` gives the handler's answer, `step_instr` the cycle's. -/
theorem stepRunsTheDecodedInstruction : Obligations.StepRunsTheDecodedInstruction :=
  fun _ _ _ => step_runs_exec

/-! The handler's state. -/

@[simp] theorem handlerState_params (w : Word) (s : State) : (handlerState w s).params = s.params := by simp [handlerState]
@[simp] theorem handlerState_v (w : Word) (s : State) : (handlerState w s).v = s.v := by simp [handlerState]
@[simp] theorem handlerState_memory (w : Word) (s : State) : (handlerState w s).memory = s.memory := by simp [handlerState]
@[simp] theorem handlerState_sp (w : Word) (s : State) : (handlerState w s).sp = s.sp := by simp [handlerState]
@[simp] theorem handlerState_i (w : Word) (s : State) : (handlerState w s).i = s.i := by simp [handlerState]

theorem handlerState_byteAt (w : Word) (s : State) (a : Nat) : (handlerState w s).byteAt a = s.byteAt a :=
  State.byteAt_of_memory (by simp) (by simp) a

/-- The entry of a fault undoes the pre-increment (R238). -/
theorem faultEntry_handlerState (c : Cause) (n : Nat) (w : Word) (s : State) :
    faultEntry c n (handlerState w s) = { s.takeInputs with
      currentInstruction := w, invalidOpcode := false, faultCause := c, faultPc := s.pc, faultWord := w
      faultInfo := BitVec.ofNat 17 n } := by
  have hpc : s.pc + 2 - 2 = s.takeInputs.pc := by simp
  simp [faultEntry, handlerState]

/-- The next state of a fetch that is out of range (R56, R238). -/
theorem takeFetchFault_eq (n : Nat) (s : State) :
    takeFetchFault (Raise.of .fetchOob n) (s.takeInputs.setInvalid false) = { s.takeInputs with
      invalidOpcode := false, faultCause := .fetchOob, faultPc := s.pc, faultWord := 0, faultInfo := BitVec.ofNat 17 n } := by
  simp [takeFetchFault, State.latchFault, State.setInvalid, Raise.of]

/-- Inversion of a cycle that begins running and ends halted: the fetch was out of range, or the instruction raised a fault. -/
theorem step_halting_cases {s t : State} (hs : s.running) (h : step s = .next t) (ht : t.faultCause ≠ .none) :
    (s.params.oobPolicy = .fault ∧ 4095 ≤ s.pc.toNat ∧
      s.fetch = .error (Raise.of .fetchOob (firstOutOfRange s.pc.toNat)) ∧ t = { s.takeInputs with
        invalidOpcode := false, faultCause := .fetchOob, faultPc := s.pc, faultWord := 0
        faultInfo := BitVec.ofNat 17 (firstOutOfRange s.pc.toNat) }) ∨
    (∃ w i c n, s.fetch = .ok w ∧ decodeWord s.params w = .ok i ∧ mayRaise (handlerState w s) c n i ∧ c ≠ .none ∧
      t = { s.takeInputs with
        currentInstruction := w, invalidOpcode := false, faultCause := c, faultPc := s.pc, faultWord := w
        faultInfo := BitVec.ofNat 17 n }) := by
  rcases step_cases s with ⟨hn, _⟩ | ⟨_, hp, ha, hw, e⟩ | ⟨_, w, r, _, _, e⟩ | ⟨_, w, i, u, hw, hd, _, e, hu⟩
  · exact absurd hs hn
  all_goals rw [e] at h; cases h
  · exact .inl ⟨hp, ha, hw, takeFetchFault_eq _ s⟩
  · exact absurd (handlerState_running w hs) ht
  · rcases hu with ⟨_, hr⟩ | ⟨c, n, hc, rfl⟩
    · rw [State.endCycle_of_running hr] at ht
      exact absurd hr ht
    · have hne := mayRaise_ne_none hc
      rw [State.endCycle_of_halted hne, faultEntry_handlerState]
      exact .inr ⟨w, i, c, n, hw, hd, hc, hne, rfl⟩

/-- The raised-by column of R232. -/
def raisedBy : Cause → Instr → Prop
  | .none, _ | .fetchOob, _ => False
  | .readOob, i => (∃ x y n, i = .drw x y n) ∨ ∃ x, i = .ldLoad x
  | .writeOob, i => (∃ x, i = .ldStore x) ∨ ∃ x, i = .ldB x
  | .stackOverflow, i => ∃ nnn, i = .call nnn
  | .stackUnderflow, i => i = .ret
  | .keyOob, i => (∃ x, i = .skp x) ∨ ∃ x, i = .sknp x
  | .spriteEdge, i => ∃ x y n, i = .drw x y n

theorem mayRaise_raisedBy {s : State} {c : Cause} {n : Nat} {i : Instr} (h : mayRaise s c n i) : raisedBy c i := by
  cases i with
  | call nnn => obtain ⟨rfl, _⟩ := h; exact ⟨nnn, rfl⟩
  | ret => obtain ⟨rfl, _⟩ := h; rfl
  | skp x => obtain ⟨rfl, _⟩ := h; exact .inl ⟨x, rfl⟩
  | sknp x => obtain ⟨rfl, _⟩ := h; exact .inr ⟨x, rfl⟩
  | ldStore x => obtain ⟨rfl, _⟩ := h; exact .inl ⟨x, rfl⟩
  | ldB x => obtain ⟨rfl, _⟩ := h; exact .inr ⟨x, rfl⟩
  | ldLoad x => obtain ⟨rfl, _⟩ := h; exact .inr ⟨x, rfl⟩
  | drw x y n =>
    rcases h with ⟨rfl, _⟩ | ⟨rfl, _⟩
    · exact .inl ⟨x, y, n, rfl⟩
    · exact ⟨x, y, n, rfl⟩
  | _ => exact h.elim

/-- Settles O39: each of the two ways to halt (`step_halting_cases`) restores the state of the cycle's start. -/
theorem everyFaultIsPrecise : Obligations.EveryFaultIsPrecise := by
  intro s t hs h ht
  rcases step_halting_cases hs h ht with ⟨_, _, _, rfl⟩ | ⟨w, i, c, n, hw, _, hc, _, rfl⟩
  · exact ⟨rfl, .inl ⟨rfl, rfl, s.takeInputs_currentInstruction⟩⟩
  · exact ⟨rfl, .inr ⟨fun hf : c = .fetchOob => (hf ▸ mayRaise_raisedBy hc : raisedBy .fetchOob i), hw, rfl⟩⟩

/-- Settles O40: a cycle that halts on a decoded word took a fault its instruction may raise. -/
theorem faultCausesComeFromTheirInstructions : Obligations.FaultCausesComeFromTheirInstructions := by
  intro s t w i hs hw hd h
  by_cases ht : t.faultCause = .none
  · rw [ht]; trivial
  · rcases step_halting_cases hs h ht with ⟨_, _, he, _⟩ | ⟨w', i', c, n, hw', hd', hc, hne, rfl⟩
    · rw [hw] at he; cases he
    · obtain rfl : w = w' := Except.ok.inj (hw.symm.trans hw')
      obtain rfl : i = i' := Except.ok.inj (hd.symm.trans hd')
      have hr := mayRaise_raisedBy hc
      cases c with
      | none => exact absurd rfl hne
      | _ => exact hr

/-! What every cycle keeps. -/

/-- An instruction leaves the parameters. -/
theorem exec_params {i : Instr} {s t : State} (h : exec i s = .next t) : t.params = s.params := by
  rcases exec_next_cases h with ho | ⟨c, n, _, rfl⟩
  · have hw := ownFrame_endsWell ho
    unfold endsWell at hw
    rw [hw]
  · rfl

@[simp] theorem State.endCycle_params (s : State) : s.endCycle.params = s.params := by
  unfold State.endCycle; split <;> rfl
@[simp] theorem State.endCycle_memory (s : State) : s.endCycle.memory = s.memory := by
  unfold State.endCycle; split <;> rfl
@[simp] theorem State.endCycle_sp (s : State) : s.endCycle.sp = s.sp := by
  unfold State.endCycle; split <;> rfl

/-- A property of memory, stack pointer and parameters that every instruction keeps is kept by every cycle. -/
theorem step_keeps {P : State → Prop}
    (hP : ∀ {s t : State}, t.memory = s.memory → t.sp = s.sp → t.params = s.params → P s → P t)
    (hexec : ∀ {i : Instr} {s t : State}, P s → exec i s = .next t → P t) {s t : State} (hs : P s) (h : step s = .next t) :
    P t := by
  rcases step_cases s with ⟨_, e⟩ | ⟨_, _, _, _, e⟩ | ⟨_, w, r, _, _, e⟩ | ⟨_, w, i, u, _, _, hx, e, _⟩
  all_goals rw [e] at h; cases h
  · exact hP (s := s) rfl rfl rfl hs
  · exact hP s.takeInputs_memory s.takeInputs_sp s.takeInputs_params hs
  · exact hP (handlerState_memory w s) (handlerState_sp w s) (handlerState_params w s) hs
  · have hh : P (handlerState w s) := hP (by simp) (by simp) (by simp) hs
    exact hP (by simp) (by simp) (by simp) (hexec hh hx)

/-- Settles O52: every meaning keeps the canonical form. -/
theorem stepKeepsMemoryCanonical : Obligations.StepKeepsMemoryCanonical := by
  intro s t hs h
  refine step_keeps (P := State.memoryCanonical) (fun hm _ hp hc => ?_) exec_memoryCanonical hs h
  rw [State.memoryCanonical, hm, hp]; exact hc

/-- Settles O53: every meaning keeps the range of the stack pointer. -/
theorem stepKeepsStackPointerLegal : Obligations.StepKeepsStackPointerLegal := by
  intro s t hs h
  refine step_keeps (P := State.stackPointerLegal) (fun _ hsp hp hl => ?_) exec_stackPointerLegal hs h
  rw [State.stackPointerLegal, hsp, hp]; exact hl

/-! The fault status (R32, R232). -/

/-- The information of a fault an instruction raises is in the range of its row, and its parameter lets it arise. -/
theorem faultInfoLegal_of_mayRaise {s t : State} {c : Cause} {n : Nat} {i : Instr} (h : mayRaise s c n i)
    (hp : t.params = s.params) (hsp : t.sp = s.sp) (hc : t.faultCause = c) (hn : t.faultInfo = BitVec.ofNat 17 n) :
    t.faultInfoLegal := by
  have big : 4096 ≤ n → n ≤ 0x1000E → 4096 ≤ t.faultInfo.toNat ∧ t.faultInfo.toNat ≤ 0x1000E := by
    intro h1 h2; rw [hn, BitVec.toNat_ofNat, Nat.mod_eq_of_lt (by omega)]; exact ⟨h1, h2⟩
  unfold State.faultInfoLegal
  rw [hc, hp, hsp]
  cases i with
  | call nnn => obtain ⟨rfl, hpol, rfl, hv⟩ := h; exact ⟨hpol, hn, Fin.ext hv⟩
  | ret => obtain ⟨rfl, hpol, rfl, hv⟩ := h; exact ⟨hpol, hn, Fin.ext hv⟩
  | skp x | sknp x =>
    obtain ⟨rfl, hpol, -, h1, h2⟩ := h
    refine ⟨hpol, ?_⟩
    rw [hn, BitVec.toNat_ofNat]; omega
  | ldStore x | ldB x | ldLoad x => obtain ⟨rfl, hpol, h1, h2⟩ := h; exact ⟨hpol, big h1 h2⟩
  | drw x y m =>
    rcases h with ⟨rfl, hpol, h1, h2⟩ | ⟨rfl, hpol, px, py, ho, hx, hy, rfl⟩
    · exact ⟨hpol, big h1 h2⟩
    · refine ⟨hpol, ?_⟩
      rw [hn, BitVec.toNat_ofNat]
      unfold offScreen at ho
      omega
  | _ => exact h.elim

/-- A cycle that ends running leaves the fault status. -/
theorem step_running_faultStatus {s t : State} (hs : s.running) (h : step s = .next t) (ht : t.running) :
    t.faultPc = s.faultPc ∧ t.faultWord = s.faultWord ∧ t.faultInfo = s.faultInfo := by
  obtain ⟨w, _, ⟨r, _, rfl⟩ | ⟨i, u, _, ho, rfl⟩⟩ := step_running_cases hs h ht
  · simp [handlerState]
  · have hw := ownFrame_endsWell ho
    unfold endsWell at hw
    rw [hw]
    simp [handlerState]

/-- A running CORE's fault status is coherent when it says nothing. -/
theorem faultStatusCoherent_of_running {s : State} (hs : s.running) :
    s.faultStatusCoherent ↔ s.faultPc = 0 ∧ s.faultWord = 0 ∧ s.faultInfo = 0 := by
  unfold State.faultStatusCoherent State.faultInfoLegal
  rw [hs]
  simp only [ne_eq, not_true_eq_false, false_implies, and_true, true_implies]
  tauto

/-- Settles O54: a halted CORE's cycle changes only `invalid_opcode`; a cycle that ends running leaves the fault status
(`step_running_faultStatus`); one that halts sets it from a row of R232 (`step_halting_cases`). -/
theorem stepKeepsFaultStatusCoherent : Obligations.StepKeepsFaultStatusCoherent := by
  intro s t hco h
  by_cases hs : s.running
  · by_cases ht : t.running
    · obtain ⟨h1, h2, h3⟩ := step_running_faultStatus hs h ht
      rw [faultStatusCoherent_of_running ht, h1, h2, h3]
      exact (faultStatusCoherent_of_running hs).mp hco
    · rcases step_halting_cases hs h ht with ⟨hp, ha, _, rfl⟩ | ⟨w, i, c, n, _, _, hc, hne, rfl⟩
      · refine ⟨?_, fun hn => absurd hn ht, fun _ => ⟨s.takeInputs_pc.symm, rfl, fun _ => rfl, fun hn => absurd rfl hn⟩⟩
        have hlt := s.pc.isLt
        refine ⟨by simpa using hp, ?_, ha⟩
        rw [BitVec.toNat_ofNat, Nat.mod_eq_of_lt]
        unfold firstOutOfRange
        split <;> omega
      · refine ⟨faultInfoLegal_of_mayRaise hc (by simp) (by simp) rfl rfl, fun hn => absurd hn ht, fun _ =>
          ⟨s.takeInputs_pc.symm, rfl, fun hf => ?_, fun _ => rfl⟩⟩
        exact ((show c = .fetchOob from hf) ▸ mayRaise_raisedBy hc : raisedBy .fetchOob i).elim
  · rw [step_halted hs] at h
    cases h
    obtain ⟨h1, h2, h3⟩ := hco
    exact ⟨h1, h2, fun hn => ⟨(h3 hn).1, rfl, (h3 hn).2.2⟩⟩

/-- Settles O41: each cycle of a halted CORE clears `invalid_opcode`, which coherence says is clear already. -/
theorem haltedCoreChangesNothing : Obligations.HaltedCoreChangesNothing := by
  intro n s hs hco
  have hinv : s.invalidOpcode = false := (hco.2.2 hs).2.1
  have hstep : step s = .next s := by
    rw [step_halted hs, show s.setInvalid false = s by rw [← hinv]; rfl]
  induction n with
  | zero => rfl
  | succ n ih => rw [run_of_step hstep]; exact ih

/-- Under `mask`, `wrap` and `clip` no row of R232 can arise. -/
theorem not_mayRaise_of_permissive {s : State} {c : Cause} {n : Nat} {i : Instr} (ho : s.params.oobPolicy = .mask)
    (hk : s.params.stackPolicy = .wrap) (he : s.params.spriteEdge = .clip) : ¬ mayRaise s c n i := by
  cases i <;> simp [mayRaise, ho, hk, he]

/-- A cycle leaves the parameters. -/
theorem step_params {s t : State} (h : step s = .next t) : t.params = s.params :=
  step_keeps (P := fun u => u.params = s.params) (fun _ _ hp hs => hp.trans hs) (fun hs hx => (exec_params hx).trans hs) rfl h

/-- Settles O42: a cycle that halted would have taken one of the faults of `step_halting_cases`, which these settings exclude. -/
theorem permissiveSettingsNeverFault : Obligations.PermissiveSettingsNeverFault := by
  intro s hs ho hk he
  obtain ⟨t, h⟩ := step_answers_next s
  refine ⟨t, h, ?_, step_params h⟩
  by_contra ht
  rcases step_halting_cases hs h ht with ⟨hp, _⟩ | ⟨w, i, c, n, _, _, hc, _⟩
  · rw [ho] at hp; cases hp
  · exact not_mayRaise_of_permissive (by simpa using ho) (by simpa using hk) (by simpa using he) hc

/-! The fetch, the invalid word, the inputs. -/

/-- A fetch in range gives the big-endian word. -/
theorem State.fetch_of_reaches {s : State} (h0 : s.reaches s.pc.toNat) (h1 : s.reaches (s.pc.toNat + 1)) :
    s.fetch = .ok (wordOfBytes (s.byteAt (s.pc.toNat % 4096)) (s.byteAt ((s.pc.toNat + 1) % 4096))) := by
  simp [State.fetch, State.memRead_of_reaches _ h0, State.memRead_of_reaches _ h1]

/-- Settles O36: `State.fetch_of_reaches`, its word read as a number. -/
theorem fetchIsBigEndian : Obligations.FetchIsBigEndian :=
  fun _ h0 h1 => ⟨_, State.fetch_of_reaches h0 h1, wordOfBytes_toNat _ _⟩

/-- Settles O37: past 4095 the fetch cannot succeed, and its fault is entered as `takeFetchFault_eq` says. -/
theorem fetchOutOfRangeFaults : Obligations.FetchOutOfRangeFaults := by
  intro s hs hp ha
  rcases s.fetch_cases with ⟨_, h1, _⟩ | ⟨_, _, hw⟩
  · rcases h1 with h1 | h1
    · omega
    · rw [hp] at h1; cases h1
  · rw [step_fetch_error hs hw, takeFetchFault_eq]

/-- Settles O38: the no-op handler changes only the report, and the timers are counted. -/
theorem invalidOpcodeIsANoOp : Obligations.InvalidOpcodeIsANoOp := by
  intro s w r hs hw hd
  refine ⟨_, step_invalid hs hw hd, rfl, rfl, ?_, ?_, ?_, rfl⟩
  · rw [State.invalidReport_of_invalid rfl]; simp [handlerState]
  · simp [countDown_toNat, handlerState]
  · simp [countDown_toNat, handlerState]

/-- Settles O48: the fetch does not look at the latched word, and the handler's state has the new one. -/
theorem oldInstructionWordIsInvisible : Obligations.OldInstructionWordIsInvisible := by
  intro s w c hs hw
  have hw' : ({ s with currentInstruction := c } : State).fetch = .ok w := (State.fetch_congr rfl rfl rfl).trans hw
  have hh : handlerState w { s with currentInstruction := c } = handlerState w s := by
    simp only [handlerState, State.takeInputs]
    cases s.keyWrites <;> rfl
  cases hd : decodeWord s.params w with
  | error r => rw [step_invalid hs hw hd, step_invalid (s := { s with currentInstruction := c }) hs hw' hd, hh]
  | ok i =>
    obtain ⟨t, ht, e⟩ := step_runs_exec hs hw hd
    rw [e, step_instr (s := { s with currentInstruction := c }) hs hw' hd (by rw [hh, ht])]

/-- A running CORE's cycle leaves the inputs as taking them left them. -/
theorem step_inputs {s t : State} (hs : s.running) (h : step s = .next t) :
    t.keys = s.takeInputs.keys ∧ t.keyWrites = s.takeInputs.keyWrites ∧ t.started = true := by
  by_cases ht : t.running
  · obtain ⟨w, _, ⟨r, _, rfl⟩ | ⟨i, u, _, ho, rfl⟩⟩ := step_running_cases hs h ht
    · simp [handlerState]
    · have hw := ownFrame_endsWell ho
      unfold endsWell at hw
      rw [hw]
      simp [handlerState]
  · rcases step_halting_cases hs h ht with ⟨_, _, _, rfl⟩ | ⟨_, _, _, _, _, _, _, _, rfl⟩ <;> simp

/-- Settles O59: taking the inputs by definition, a running cycle by `step_inputs`, a halted one by `step_halted`. -/
theorem inputsAreTakenOncePerCycle : Obligations.InputsAreTakenOncePerCycle := by
  refine ⟨fun s k rest hk => by simp [State.takeInputs, hk], fun s hk => by simp [State.takeInputs, hk], fun s t hs h => ?_,
    fun s t hs h => ?_, fun _ _ => rfl⟩
  · obtain ⟨h1, h2, h3⟩ := step_inputs hs h
    rw [h1, h2]
    exact ⟨h3, fun _ _ => State.takeInputs_keys_of_cons, State.takeInputs_keys_of_nil⟩
  · rw [step_halted hs] at h
    cases h
    exact ⟨rfl, rfl, rfl⟩

end Sys2Proof.Machine

namespace Sys2Proof.Machine

/-! ## Control flow and skips on the handler's side -/

theorem framePc_setPc (s : State) (w : Word) : framePc s (s.setPc w) := ⟨fun _ => rfl, fun _ => rfl, rfl⟩

theorem zext16_toNat (a : Addr12) : (zext16 a).toNat = a.toNat := by
  have := a.isLt
  rw [zext16, BitVec.toNat_setWidth, Nat.mod_eq_of_lt (by omega)]

/-- The sum of R220 fits in 16 bits. -/
theorem offsetTarget_toNat (v0 : Byte) (nnn : Addr12) : (offsetTarget v0 nnn).toNat = v0.toNat + nnn.toNat := by
  have h1 := v0.isLt
  have h2 := nnn.isLt
  rw [offsetTarget, BitVec.toNat_ofNat, Nat.mod_eq_of_lt (by omega)]

/-- Settles O5: both jumps are a write of `pc`. -/
theorem jumpsLoadThePc : Obligations.JumpsLoadThePc := fun nnn s =>
  ⟨⟨_, rfl, zext16_toNat nnn, framePc_setPc s _⟩, ⟨_, rfl, offsetTarget_toNat _ nnn, framePc_setPc s _⟩⟩

/-- A push with room: the entry at `sp` takes the word, and `sp` goes up as its policy says. -/
theorem State.push_of_room {s : State} (w : Word) (h : s.sp.val < 16) :
    ∃ q : Fin 17, s.push w = .ok { s with stack := s.stack.set s.sp.val w, sp := q } ∧
      (s.params.stackPolicy = .fault → q.val = s.sp.val + 1) ∧
      (s.params.stackPolicy = .wrap → q.val = (s.sp.val + 1) % 16) := by
  rcases s.push_cases w with ⟨hp, _, e⟩ | ⟨_, h16, _⟩ | ⟨hp, e⟩
  · exact ⟨_, e, fun _ => rfl, by simp [hp]⟩
  · omega
  · simp only [Nat.mod_eq_of_lt h] at e
    exact ⟨_, e, by simp [hp], fun _ => rfl⟩

/-- Settles O6: the push of `State.push_of_room`, then the jump. -/
theorem callPushesReturnAddress : Obligations.CallPushesReturnAddress := by
  intro nnn s h
  obtain ⟨q, e, hf, hw⟩ := State.push_of_room s.pc h
  refine ⟨_, exec_call_ok e, zext16_toNat nnn, by simp, hf, hw, fun _ => rfl, fun _ => rfl, fun k hk hne => ?_, rfl⟩
  simp [Ne.symm hne]

/-- Settles O7: the entry below `sp` under each policy; 15 below 0 modulo 16 is the last entry. -/
theorem retPopsReturnAddress : Obligations.RetPopsReturnAddress := by
  intro s
  have frame : ∀ (w : Word) (q : Fin 17), frameStack 16 s (({ s with sp := q } : State).setPc w) :=
    fun w q => ⟨fun _ => rfl, fun _ => rfl, fun _ _ _ => rfl, rfl⟩
  rcases s.pop_cases with ⟨hp, h0, e⟩ | ⟨hp, h0, _⟩ | ⟨hp, e⟩
  · exact ⟨fun _ _ => ⟨_, exec_ret_ok e, rfl, rfl, rfl, frame _ _⟩, fun hw => by simp [hp] at hw⟩
  · exact ⟨fun _ hne => absurd h0 hne, fun hw => by simp [hp] at hw⟩
  · refine ⟨fun hf => by simp [hp] at hf, fun _ hlt => ⟨_, exec_ret_ok e, ?_, rfl, rfl, frame _ _⟩⟩
    by_cases h0 : s.sp.val = 0
    · simp [h0]
    · have hmod : (s.sp.val + 15) % 16 = (s.sp.val - 1) % 16 := by omega
      simp [h0, hmod]

/-- Settles O8: under STACK_POLICY = fault a full stack refuses the push and an empty one the pop. -/
theorem stackFaultsAreTaken : Obligations.StackFaultsAreTaken := by
  intro nnn s hp
  refine ⟨fun h => ?_, fun h => ?_⟩
  · rcases s.push_cases s.pc with ⟨_, hlt, _⟩ | ⟨_, _, e⟩ | ⟨hw, _⟩
    · omega
    · exact exec_call_error e
    · simp [hp] at hw
  · rcases s.pop_cases with ⟨_, hne, _⟩ | ⟨_, _, e⟩ | ⟨hw, _⟩
    · exact absurd h hne
    · exact exec_ret_error e
    · simp [hp] at hw

/-- A pop gives back what was pushed, and the stack pointer of before (R111, R112). -/
theorem State.pop_of_pushed {s u : State} {w : Word} (h : s.sp.val < 16) (hp : u.params = s.params)
    (hst : u.stack = s.stack.set s.sp.val w) (hf : s.params.stackPolicy = .fault → u.sp.val = s.sp.val + 1)
    (hw : s.params.stackPolicy = .wrap → u.sp.val = (s.sp.val + 1) % 16) : u.pop = .ok (w, { u with sp := s.sp }) := by
  rcases u.pop_cases with ⟨hpol, h0, e⟩ | ⟨hpol, h0, _⟩ | ⟨hpol, e⟩ <;> rw [hp] at hpol
  · have hsp := hf hpol
    rw [e]
    simp [hst, hsp]
  · have hsp := hf hpol
    omega
  · have hsp : (u.sp.val + 15) % 16 = s.sp.val := by rw [hw hpol]; omega
    rw [e]
    simp [hst, hsp]

/-- Settles O9: the pop of `State.pop_of_pushed` undoes the push of `State.push_of_room`. -/
theorem callThenReturnRestoresPc : Obligations.CallThenReturnRestoresPc := by
  intro nnn s u h hu pc
  obtain ⟨q, e, hf, hw⟩ := State.push_of_room s.pc h
  rw [exec_call_ok e] at hu
  cases hu
  exact ⟨_, exec_ret_ok (State.pop_of_pushed h rfl rfl hf hw), rfl, rfl, rfl, rfl, rfl⟩

/-- Settles O10: each is a `State.skipIf` on its condition. -/
theorem registerSkipsMoveOnlyPc : Obligations.RegisterSkipsMoveOnlyPc := by
  intro x y nn s
  refine ⟨⟨_, rfl, ?_, framePc_skipIf s _⟩, ⟨_, rfl, ?_, framePc_skipIf s _⟩, ⟨_, rfl, ?_, framePc_skipIf s _⟩,
    ⟨_, rfl, ?_, framePc_skipIf s _⟩⟩
  all_goals rw [skipIf_pc]; simp [BitVec.toNat_eq]

/-! ## Register loads, the index, the timers, the random byte -/

/-- Settles O12: both loads are a register write. -/
theorem registerLoadsWriteOneRegister : Obligations.RegisterLoadsWriteOneRegister := fun x _ _ s =>
  ⟨⟨_, rfl, s.reg_setReg_same x _, frameRegs_setReg s x _⟩, ⟨_, rfl, s.reg_setReg_same x _, frameRegs_setReg s x _⟩⟩

/-- Settles O33: a write of one register, of DT and of ST. -/
theorem timerTransfersCopyWhole : Obligations.TimerTransfersCopyWhole := fun x s =>
  ⟨⟨_, rfl, s.reg_setReg_same x _, frameRegs_setReg s x _⟩, ⟨s.setDt (s.reg x), rfl, rfl, fun _ => rfl, fun _ => rfl, rfl⟩,
    ⟨s.setSt (s.reg x), rfl, rfl, fun _ => rfl, fun _ => rfl, rfl⟩⟩

theorem frameIndex_setIndex (s : State) (w : Word) : frameIndex s (s.setIndex w) := ⟨fun _ => rfl, fun _ => rfl, rfl⟩

theorem glyphAddr_toNat {d : Nat} (h : d < 256) : (glyphAddr d).toNat = 0x050 + 5 * d := by
  rw [glyphAddr, fontBase, BitVec.toNat_ofNat, Nat.mod_eq_of_lt (by omega)]

/-- Settles O34: all three are a write of `I`; the glyph's address fits in 16 bits. -/
theorem indexWritesChangeOnlyIndex : Obligations.IndexWritesChangeOnlyIndex := by
  intro nnn x s
  have hx := (s.reg x).isLt
  refine ⟨⟨_, rfl, zext16_toNat nnn, frameIndex_setIndex s _⟩, ⟨_, rfl, ?_, frameIndex_setIndex s _⟩,
    ⟨_, rfl, frameIndex_setIndex s _, fun hf => ?_, fun hf => ?_⟩⟩
  · simp only [State.setIndex_i, BitVec.toNat_add, BitVec.toNat_setWidth]
    omega
  · simp only [State.setIndex_i, hf, glyphDigit]
    exact glyphAddr_toNat hx
  · simp only [State.setIndex_i, hf, glyphDigit]
    exact glyphAddr_toNat (by omega)

/-- Settles O23: the masked draw; a bit outside the mask is 0 whatever the draw. -/
theorem randomByteIsMasked : Obligations.RandomByteIsMasked := by
  intro x nn s
  have hx : (s.withDraw x nn (Config.randomDraw s.draws)).reg x = Config.randomDraw s.draws &&& nn := s.reg_setReg_same x _
  refine ⟨_, rfl, hx, fun k hk => ?_, fun r hr => State.reg_setReg_other s x r _ hr, fun _ => rfl, rfl⟩
  rw [hx, BitVec.getLsbD_and, hk, Bool.and_false]

/-! ## Arithmetic and logic -/

/-- Settles O19: a register write of the sum, which wraps as `BitVec` addition does. -/
theorem addImmediateWrapsWithoutFlag : Obligations.AddImmediateWrapsWithoutFlag := fun x nn s =>
  ⟨_, rfl, by rw [State.reg_setReg_same, BitVec.toNat_add], frameRegs_setReg s x _⟩

/-! The flag computations in unbounded arithmetic. -/

theorem flagByte_toNat (f : Bool) : (flagByte f).toNat = if f then 1 else 0 := by cases f <;> rfl

theorem addCarry_result (a b : Byte) : (addCarry a b).1.toNat = (a.toNat + b.toNat) % 256 := BitVec.toNat_ofNat _ _

theorem addCarry_flag (a b : Byte) : (flagByte (addCarry a b).2).toNat = if a.toNat + b.toNat > 255 then 1 else 0 := by
  simp [flagByte_toNat, addCarry]

theorem subNotBorrow_result (a b : Byte) : (subNotBorrow a b).1.toNat = (a.toNat + 256 - b.toNat) % 256 := by
  have ha := a.isLt
  have hb := b.isLt
  simp only [subNotBorrow, BitVec.toNat_ofInt]
  omega

theorem subNotBorrow_flag (a b : Byte) : (flagByte (subNotBorrow a b).2).toNat = if a.toNat > b.toNat then 1 else 0 := by
  simp [flagByte_toNat, subNotBorrow]

theorem shiftRightOut_result (a : Byte) : (shiftRightOut a).1.toNat = a.toNat / 2 := by
  have ha := a.isLt
  rw [shiftRightOut, BitVec.toNat_ofNat, Nat.mod_eq_of_lt (by omega)]

theorem shiftRightOut_flag (a : Byte) : (flagByte (shiftRightOut a).2).toNat = a.toNat % 2 := by
  simp only [flagByte_toNat, shiftRightOut, BitVec.getLsbD, Nat.testBit_zero, decide_eq_true_eq]
  split <;> omega

theorem shiftLeftOut_result (a : Byte) : (shiftLeftOut a).1.toNat = a.toNat * 2 % 256 := BitVec.toNat_ofNat _ _

theorem shiftLeftOut_flag (a : Byte) : (flagByte (shiftLeftOut a).2).toNat = a.toNat / 128 := by
  have ha := a.isLt
  simp only [flagByte_toNat, shiftLeftOut, BitVec.getLsbD, Nat.testBit_eq_decide_div_mod_eq, decide_eq_true_eq]
  split <;> omega

/-- `writeResultAndFlag_spec` in unbounded arithmetic. -/
theorem writeResultAndFlag_toNat (s : State) (x : Reg) {rf : Byte × Bool} {result flag : Nat} (hr : rf.1.toNat = result)
    (hf : (flagByte rf.2).toNat = flag) :
    frameRegs [x, 15] s (s.writeResultAndFlag x rf) ∧
    (x ≠ 15 → ((s.writeResultAndFlag x rf).reg x).toNat = result ∧ ((s.writeResultAndFlag x rf).reg 15).toNat = flag) ∧
    (x = 15 → s.params.flagOrder = .flagLast → ((s.writeResultAndFlag x rf).reg 15).toNat = flag) ∧
    (x = 15 → s.params.flagOrder = .resultLast → ((s.writeResultAndFlag x rf).reg 15).toNat = result) := by
  obtain ⟨h1, h2, h3, h4⟩ := writeResultAndFlag_spec s x rf
  refine ⟨h1, fun hx => ?_, fun hx ho => ?_, fun hx ho => ?_⟩
  · rw [(h2 hx).1, (h2 hx).2]; exact ⟨hr, hf⟩
  · rw [h3 hx ho]; exact hf
  · rw [h4 hx ho]; exact hr

/-- Settles O20: `writeResultAndFlag_toNat` with the flag computation of each. -/
theorem addSubResultAndFlag : Obligations.AddSubResultAndFlag := fun x _ s =>
  ⟨⟨_, rfl, writeResultAndFlag_toNat s x (addCarry_result _ _) (addCarry_flag _ _)⟩,
    ⟨_, rfl, writeResultAndFlag_toNat s x (subNotBorrow_result _ _) (subNotBorrow_flag _ _)⟩,
    ⟨_, rfl, writeResultAndFlag_toNat s x (subNotBorrow_result _ _) (subNotBorrow_flag _ _)⟩⟩

theorem State.shiftOperand_toNat (s : State) (x y : Reg) :
    (s.shiftOperand x y).toNat = if s.params.shiftSource = .vx then (s.reg x).toNat else (s.reg y).toNat := by
  unfold State.shiftOperand
  cases s.params.shiftSource <;> rfl

/-- Settles O21: `writeResultAndFlag_toNat` with the shift of the source SHIFT_SOURCE names. -/
theorem shiftResultAndFlag : Obligations.ShiftResultAndFlag := by
  intro x y s
  dsimp only
  rw [← s.shiftOperand_toNat x y]
  exact ⟨⟨_, rfl, writeResultAndFlag_toNat s x (shiftRightOut_result _) (shiftRightOut_flag _)⟩,
    ⟨_, rfl, writeResultAndFlag_toNat s x (shiftLeftOut_result _) (shiftLeftOut_flag _)⟩⟩

/-- Settles O22: the three are register writes, and the bit operations of `BitVec` are bit by bit. -/
theorem logicWorksBitByBit : Obligations.LogicWorksBitByBit := by
  intro x y s
  refine ⟨⟨_, rfl, frameRegs_setReg s x _, fun k _ => ?_⟩, ⟨_, rfl, frameRegs_setReg s x _, fun k _ => ?_⟩,
    ⟨_, rfl, frameRegs_setReg s x _, fun k _ => ?_⟩⟩ <;> rw [State.reg_setReg_same]
  · exact BitVec.getLsbD_or
  · exact BitVec.getLsbD_and
  · exact BitVec.getLsbD_xor

/-! ## The flag register (R21) -/

theorem flagByte_zero_or_one (f : Bool) : flagByte f = 0 ∨ flagByte f = 1 := by cases f <;> decide

/-- VF after `WriteResultAndFlag` is the flag, unless the result is written over it. -/
theorem writeResultAndFlag_vf (s : State) (x : Reg) (rf : Byte × Bool) (h : x ≠ 15 ∨ s.params.flagOrder = .flagLast) :
    (s.writeResultAndFlag x rf).reg 15 = 0 ∨ (s.writeResultAndFlag x rf).reg 15 = 1 := by
  obtain ⟨_, h2, h3, _⟩ := writeResultAndFlag_spec s x rf
  have hv : (s.writeResultAndFlag x rf).reg 15 = flagByte rf.2 := by
    by_cases hx : x = 15
    · exact h3 hx (h.resolve_left (not_not_intro hx))
    · exact (h2 hx).2
  rw [hv]
  exact flagByte_zero_or_one _

/-- Settles O24: the producers by `writeResultAndFlag_vf` and the whole sprite of `exec_drw_running`, every other instruction by
its frame. -/
theorem flagRegisterChangesOnlyAsNamed : Obligations.FlagRegisterChangesOnlyAsNamed := by
  intro i s t _ h ht
  have ho := exec_ownFrame h ht
  cases i with
  | addReg | sub | subn | shr | shl => cases h; exact writeResultAndFlag_vf s _ _
  | drw x y n =>
    obtain ⟨r, _, rfl⟩ := exec_drw_running h ht
    have hv : ((s.setFb r.1).setReg vf (flagByte r.2)).reg 15 = flagByte r.2 := State.reg_setReg_same _ vf _
    simp only [hv]
    exact flagByte_zero_or_one _
  | ldImm | addImm | ldReg | orReg | andReg | xorReg | rnd | ldVxDt | ldVxK => exact fun hx => ho.2 15 (Ne.symm hx)
  | ldLoad x => exact fun hx => ho.2 15 (Fin.lt_last_iff_ne_last.mpr hx)
  | cls | ret | jp | call | seImm | sneImm | seReg | sneReg | ldI | jpV0 | skp | sknp | ldDtVx | ldStVx | addI | ldF | ldB
  | ldStore => exact State.reg_of_v (by simp only [ownFrame] at ho; rw [ho]) 15

/-! ## Keys -/

/-- Settles O30: `State.keyRead_ok` and `State.keyRead_fault`. -/
theorem keySkipsReadOneKey : Obligations.KeySkipsReadOneKey := by
  intro x s
  refine ⟨fun h => ?_, fun h hp => ?_⟩
  · have e := State.keyRead_ok (s := s) (k := s.reg x) h
    refine ⟨⟨_, exec_skp_ok e, skipIf_pc s _, framePc_skipIf s _⟩, ⟨_, exec_sknp_ok e, ?_, framePc_skipIf s _⟩⟩
    rw [skipIf_pc]
    cases s.keys.getLsbD ((s.reg x).toNat % 16) <;> rfl
  · have e := State.keyRead_fault (s := s) (k := s.reg x) hp h
    exact ⟨exec_skp_error e, exec_sknp_error e⟩

theorem State.lowestKey_eq_none {s : State} (h : ∀ k, k < 16 → s.keys.getLsbD k = false) : s.lowestKey = none := by
  rw [State.lowestKey, List.find?_eq_none]
  exact fun k _ => by rw [State.key, h k.val k.isLt]; exact Bool.false_ne_true

/-- The registers are searched in ascending order (R193). -/
theorem State.lowestKey_eq_some {s : State} {k : Nat} (hk : k < 16) (hp : s.keys.getLsbD k = true)
    (hlow : ∀ j, j < k → s.keys.getLsbD j = false) : s.lowestKey = some ⟨k, hk⟩ := by
  obtain ⟨pre, post, e, hpre⟩ := regsUpTo_split 15 ⟨k, hk⟩ (Nat.le_of_lt_succ hk)
  rw [State.lowestKey, List.find?_eq_some_iff_append]
  exact ⟨hp, pre, post, e, fun q hq => by rw [State.key, hlow q.val (hpre q hq)]; rfl⟩

/-- Settles O31: the register number of the lowest key fits in a byte; with no key only `pc` is written. -/
theorem keyWaitTakesLowestKeyOrRewinds : Obligations.KeyWaitTakesLowestKeyOrRewinds := by
  intro x s
  refine ⟨fun k hk hp hlow => ⟨_, exec_ldVxK_pressed (State.lowestKey_eq_some hk hp hlow), ?_, frameRegs_setReg s x _⟩,
    fun h => ⟨_, exec_ldVxK_none (State.lowestKey_eq_none h), rfl, framePc_setPc s _⟩⟩
  rw [State.reg_setReg_same, byteOfReg, BitVec.toNat_ofNat]
  exact Nat.mod_eq_of_lt (by omega)

end Sys2Proof.Machine

namespace Sys2Proof.Machine

/-! ## Stores, loads and the bytes they reach -/

/-! The first address out of range (R232). -/

/-- A run of accesses that leaves memory does so at the address R232 names, and all before it are in range. -/
theorem firstOutOfRange_spec {a n : Nat} (h : 4096 ≤ a + n) :
    ∃ k, k ≤ n ∧ a + k = firstOutOfRange a ∧ 4096 ≤ a + k ∧ ∀ j, j < k → a + j < 4096 := by
  unfold firstOutOfRange
  split
  · exact ⟨4096 - a, by omega, by omega, by omega, fun j hj => by omega⟩
  · exact ⟨0, by omega, rfl, by omega, fun j hj => by omega⟩

/-- The digits in the order of their addresses. -/
theorem bcdDigits_split (b : Byte) {k : Nat} (h : k ≤ 2) :
    ∃ pre c post, bcdDigits b = pre ++ c :: post ∧ c.1 = k ∧ ∀ d ∈ pre, d.1 < k := by
  refine ⟨(bcdDigits b).take k, (bcdDigits b)[k]'(by simp [bcdDigits]; omega), (bcdDigits b).drop (k + 1), by simp, ?_, ?_⟩
  all_goals interval_cases k <;> simp [bcdDigits]

/-- Settles O18: the accesses before the first address out of range succeed, and that address raises the fault. -/
theorem dataAccessFaultsAreTaken : Obligations.DataAccessFaultsAreTaken := by
  intro x s hp
  refine ⟨fun h => ?_, fun h => ?_⟩
  · obtain ⟨k, hk, ha, hge, hlow⟩ := firstOutOfRange_spec h
    obtain ⟨pre, post, e, hpre⟩ := regsUpTo_split x ⟨k, by omega⟩ hk
    rw [← ha]
    refine ⟨exec_ldStore_error ?_, exec_ldLoad_error ?_⟩
    · rw [e, List.map_append, List.map_cons]
      refine storeFold_error s.i.toNat _ _ _ s hp (fun d hd => ?_) hge
      obtain ⟨q, hq, rfl⟩ := List.mem_map.mp hd
      exact hlow _ (hpre q hq)
    · rw [e]
      exact loadFold_error s s.i.toNat pre ⟨k, by omega⟩ post s hp (fun q hq => hlow _ (hpre q hq)) hge
  · obtain ⟨k, hk, ha, hge, hlow⟩ := firstOutOfRange_spec h
    obtain ⟨pre, c, post, e, rfl, hpre⟩ := bcdDigits_split (s.reg x) hk
    rw [← ha]
    refine exec_ldB_error ?_
    rw [e]
    exact storeFold_error s.i.toNat pre c post s hp (fun d hd => hlow _ (hpre d hd)) hge

/-! `I` after a range (R132, R133, D15). -/

theorem indexAfterRange_unchanged {l : LdstI} (i : Word) (x : Reg) (h : l = .unchanged) : indexAfterRange l i x = i := by
  subst h; rfl

theorem indexAfterRange_increment {l : LdstI} (i : Word) (x : Reg) (h : l = .increment) :
    (indexAfterRange l i x).toNat = (i.toNat + x.val + 1) % 65536 := by
  subst h
  simp only [indexAfterRange, BitVec.toNat_add, BitVec.toNat_ofNat]
  omega

/-! Stores. -/

/-- A run of stores at distinct offsets of a register range, every address reached: `storeFold_ok` from `I` on. -/
theorem State.storeAt_of_reaches {s : State} {cells : List (Nat × Byte)} (hc : s.memoryCanonical)
    (hr : ∀ c ∈ cells, s.reaches (s.i.toNat + c.1)) (hlt : ∀ c ∈ cells, c.1 < 16) (hd : cells.Pairwise fun c d => c.1 ≠ d.1) :
    ∃ u, s.storeAt cells = .ok u ∧ u = { s with memory := u.memory } ∧
      (∀ c ∈ cells, u.byteAt ((s.i.toNat + c.1) % 4096) = c.2) ∧
      (∀ a, (∀ c ∈ cells, a ≠ (s.i.toNat + c.1) % 4096) → u.byteAt a = s.byteAt a) := by
  obtain ⟨u, e, hu, _, hoff, hon⟩ := storeFold_ok s.i.toNat cells s hc hr
  refine ⟨u, e, hu, hon (hd.imp_of_mem fun {c d} hc hd' hne => ?_), hoff⟩
  have h1 := hlt c hc
  have h2 := hlt d hd'
  omega

/-- LD [I],Vx where every address is reached (R132). -/
theorem exec_ldStore_of_reaches {x : Reg} {s : State} (hc : s.memoryCanonical)
    (hr : ∀ k, k ≤ x.val → s.reaches (s.i.toNat + k)) :
    ∃ t, exec (.ldStore x) s = .next t ∧ t = { s with memory := t.memory, i := indexAfterRange s.params.ldstI s.i x } ∧
      (∀ r : Reg, r.val ≤ x.val → t.byteAt ((s.i.toNat + r.val) % 4096) = s.reg r) ∧
      (∀ a, (∀ k, k ≤ x.val → a ≠ (s.i.toNat + k) % 4096) → t.byteAt a = s.byteAt a) := by
  have hcell : ∀ c ∈ (regsUpTo x).map (fun r => (r.val, s.reg r)), c.1 ≤ x.val := by
    intro c hc
    obtain ⟨r, hr, rfl⟩ := List.mem_map.mp hc
    exact (mem_regsUpTo x r).mp hr
  obtain ⟨u, e, hu, hon, hoff⟩ := State.storeAt_of_reaches hc (fun c h => hr _ (hcell c h))
    (fun c h => Nat.lt_of_le_of_lt (hcell c h) x.isLt)
    (List.pairwise_map.mpr ((regsUpTo_nodup x).imp fun hne hv => hne (Fin.ext hv)))
  refine ⟨_, exec_ldStore_ok e, by rw [hu]; rfl, fun r h => ?_, fun a ha => hoff a fun c h => ha _ (hcell c h)⟩
  exact hon _ (List.mem_map.mpr ⟨r, (mem_regsUpTo x r).mpr h, rfl⟩)

/-- LD B,Vx where its three addresses are reached (R165): the `k`-th byte is the `k`-th decimal digit. -/
theorem exec_ldB_of_reaches {x : Reg} {s : State} (hc : s.memoryCanonical)
    (hr : ∀ k, k ≤ 2 → s.reaches (s.i.toNat + k)) :
    ∃ t, exec (.ldB x) s = .next t ∧ t = { s with memory := t.memory } ∧
      (∀ k, k ≤ 2 → (t.byteAt ((s.i.toNat + k) % 4096)).toNat = (s.reg x).toNat / 10 ^ (2 - k) % 10) ∧
      (∀ a, (∀ k, k ≤ 2 → a ≠ (s.i.toNat + k) % 4096) → t.byteAt a = s.byteAt a) := by
  have hx := (s.reg x).isLt
  have hcell : ∀ c ∈ bcdDigits (s.reg x), c.1 ≤ 2 ∧ c.2.toNat = (s.reg x).toNat / 10 ^ (2 - c.1) % 10 := by
    intro c hc
    simp only [bcdDigits, List.mem_cons, List.not_mem_nil, or_false] at hc
    rcases hc with rfl | rfl | rfl <;> simp only [BitVec.toNat_ofNat] <;> omega
  obtain ⟨u, e, hu, hon, hoff⟩ := State.storeAt_of_reaches hc (fun c h => hr _ (hcell c h).1)
    (fun c h => Nat.lt_of_le_of_lt (hcell c h).1 (by decide)) (by simp [bcdDigits])
  refine ⟨u, exec_ldB_ok e, hu, fun k hk => ?_, fun a ha => hoff a fun c h => ha _ (hcell c h).1⟩
  obtain ⟨pre, c, post, hsplit, rfl, _⟩ := bcdDigits_split (s.reg x) hk
  have hmem : c ∈ bcdDigits (s.reg x) := by rw [hsplit]; simp
  rw [hon c hmem, (hcell c hmem).2]

/-- Settles O14: `exec_ldStore_of_reaches`, with `I` read off by `indexAfterRange`. -/
theorem storeRangeWritesExactlyItsBytes : Obligations.StoreRangeWritesExactlyItsBytes := by
  intro x s hc hr
  obtain ⟨t, e, ht, hon, hoff⟩ := exec_ldStore_of_reaches hc hr
  have hi : t.i = indexAfterRange s.params.ldstI s.i x := by rw [ht]
  refine ⟨t, e, hon, fun hl => ?_, fun hl => ?_, fun r => State.reg_of_v (by rw [ht]) r, fun a ha => ?_, ?_⟩
  · rw [hi, indexAfterRange_unchanged _ _ hl]
  · rw [hi, indexAfterRange_increment _ _ hl]
  · exact hoff a fun k hk h => ha ⟨k, hk, h⟩
  · rw [hi]; exact ht

/-- Settles O16: the digits of a byte, hundreds at most 2 and so their own last digit. -/
theorem bcdStoresThreeDigits : Obligations.BcdStoresThreeDigits := by
  intro x s hc hr
  obtain ⟨t, e, ht, hon, hoff⟩ := exec_ldB_of_reaches (x := x) hc hr
  have hx := (s.reg x).isLt
  have hi : t.i = s.i := by rw [ht]
  refine ⟨t, e, ?_, ?_, ?_, hi, fun r => State.reg_of_v (by rw [ht]) r, fun a ha => hoff a fun k hk h => ha ⟨k, hk, h⟩, ?_⟩
  · have h0 := hon 0 (by decide)
    rw [Nat.add_zero] at h0
    omega
  · have h1 := hon 1 (by decide)
    omega
  · have h2 := hon 2 (by decide)
    omega
  · rw [hi]; exact ht

/-- Settles O17: the digits of `bcdStoresThreeDigits` rebuild their number. -/
theorem bcdDigitsRebuildTheValue : Obligations.BcdDigitsRebuildTheValue := by
  intro x s t hc hr h
  obtain ⟨t', e, h0, h1, h2, _⟩ := bcdStoresThreeDigits x s hc hr
  rw [h] at e
  cases e
  have hx := (s.reg x).isLt
  dsimp only
  omega

/-! Loads. -/

/-- Settles O15: `loadFold_ok` from `I` on, over V0..VX. -/
theorem loadRangeReadsExactlyItsBytes : Obligations.LoadRangeReadsExactlyItsBytes := by
  intro x s hr
  obtain ⟨u, e, hu, hoff, hon⟩ := loadFold_ok s s.i.toNat (regsUpTo x) s (fun r h => hr _ ((mem_regsUpTo x r).mp h))
    (regsUpTo_nodup x)
  refine ⟨_, exec_ldLoad_ok e, fun r h => hon r ((mem_regsUpTo x r).mpr h), fun r h => hoff r ?_, fun hl => ?_, fun hl => ?_,
    fun a => State.byteAt_of_memory (by rw [hu]; rfl) (by rw [hu]; rfl) a, by rw [hu]; rfl⟩
  · rw [mem_regsUpTo]; omega
  · exact indexAfterRange_unchanged _ _ hl
  · exact indexAfterRange_increment _ _ hl

/-! ## Whole cycles of one instruction -/

/-- A whole cycle whose handler does not fault: its state with the timers counted. -/
theorem step_instr_running {s t : State} {w : Word} {i : Instr} (hs : s.running) (hw : s.fetch = .ok w)
    (hd : decodeWord s.params w = .ok i) (he : exec i (handlerState w s) = .next t) (ht : t.faultCause = (handlerState w s).faultCause) :
    step s = .next t.tick := by
  rw [step_instr hs hw hd he, State.endCycle_of_running]
  rw [State.running, ht]
  exact handlerState_running w hs

/-- A whole cycle of a skip: the pre-increment, and 2 more when the condition holds (R110). -/
theorem step_skip {s : State} {w : Word} {i : Instr} {holds : Bool} (hs : s.running) (hw : s.fetch = .ok w)
    (hd : decodeWord s.params w = .ok i) (he : exec i (handlerState w s) = .next ((handlerState w s).skipIf holds)) :
    ∃ t, step s = .next t ∧ (t.pc = if holds then s.pc + 4 else s.pc + 2) ∧
      t = { handlerState w s with pc := t.pc, dt := t.dt, st := t.st } := by
  refine ⟨_, step_instr_running hs hw hd he (by cases holds <;> rfl), ?_, by cases holds <;> rfl⟩
  rw [State.tick_pc, skipIf_pc]
  cases holds
  · rfl
  · simp [handlerState, BitVec.add_assoc]

/-- The key number a skip names is read from the cycle's snapshot. -/
theorem handlerState_keyRead {s : State} (w : Word) {x : Reg} (hk : (s.reg x).toNat < 16 ∨ s.params.oobPolicy = .mask) :
    (handlerState w s).keyRead ((handlerState w s).reg x) = .ok (s.takeInputs.keys.getLsbD ((s.reg x).toNat % 16)) := by
  rw [handlerState_reg, State.keyRead_ok (by rwa [handlerState_params])]
  rfl

/-- Settles O11: each of the six answers `State.skipIf` on its condition, and `step_skip` says what the cycle makes of it. -/
theorem skipAdvancesByFourOrTwo : Obligations.SkipAdvancesByFourOrTwo := by
  intro s w i holds hs hw hd ⟨x, y, nn, hi⟩
  refine step_skip hs hw hd ?_
  rcases hi with ⟨rfl, hb⟩ | ⟨rfl, hb⟩ | ⟨rfl, hb⟩ | ⟨rfl, hb⟩ | ⟨rfl, hk, rfl⟩ | ⟨rfl, hk, rfl⟩
  · rw [show holds = (s.reg x == nn) by rw [Bool.eq_iff_iff, hb, beq_iff_eq], ← handlerState_reg w]; rfl
  · rw [show holds = (s.reg x != nn) by rw [Bool.eq_iff_iff, hb, bne_iff_ne], ← handlerState_reg w]; rfl
  · rw [show holds = (s.reg x == s.reg y) by rw [Bool.eq_iff_iff, hb, beq_iff_eq], ← handlerState_reg w, ← handlerState_reg w s y]
    rfl
  · rw [show holds = (s.reg x != s.reg y) by rw [Bool.eq_iff_iff, hb, bne_iff_ne], ← handlerState_reg w, ← handlerState_reg w s y]
    rfl
  · exact exec_skp_ok (handlerState_keyRead w hk)
  · exact exec_sknp_ok (handlerState_keyRead w hk)

/-- Settles O32: with no key the handler rewinds `pc` over the pre-increment, and the timers are counted. -/
theorem keyWaitStallsTheProgramNotTheTimers : Obligations.KeyWaitStallsTheProgramNotTheTimers := by
  intro s w x hs hw hd hk
  have e : exec (.ldVxK x) (handlerState w s) = _ := exec_ldVxK_none (State.lowestKey_eq_none hk)
  have hpc : (handlerState w s).pc - 2 = s.pc := by simp [handlerState]
  rw [hpc] at e
  exact ⟨_, step_instr_running hs hw hd e rfl, rfl, handlerState_v w s, by simp [countDown_toNat, handlerState],
    by simp [countDown_toNat, handlerState], rfl⟩

/-! ## Writes to memory and later fetches -/

/-- A fetch at `p`, byte by byte. -/
theorem fetch_at_bytes {u : State} {p : Word} (h0 : u.reaches p.toNat) (h1 : u.reaches (p.toNat + 1)) :
    ∃ v, ({ u with pc := p } : State).fetch = .ok v ∧ v.toNat / 256 = (u.byteAt (p.toNat % 4096)).toNat ∧
      v.toNat % 256 = (u.byteAt ((p.toNat + 1) % 4096)).toNat := by
  have hb := (u.byteAt ((p.toNat + 1) % 4096)).isLt
  have hf : ({ u with pc := p } : State).fetch =
      .ok (wordOfBytes (u.byteAt (p.toNat % 4096)) (u.byteAt ((p.toNat + 1) % 4096))) := State.fetch_of_reaches h0 h1
  refine ⟨_, hf, ?_⟩
  rw [wordOfBytes_toNat]
  omega

/-- A cycle of a store (R66, R283): its handler answers `t`, which holds `value k` in the `k`-th of `n` bytes from `I` on and the old
bytes elsewhere; every later fetch sees that, byte by byte. -/
theorem step_store_seen {s t u : State} {w p : Word} {i : Instr} {n : Nat} {value : Nat → Nat} (hs : s.running)
    (hw : s.fetch = .ok w) (hd : decodeWord s.params w = .ok i) (hu : step s = .next u) (h0 : s.reaches p.toNat)
    (h1 : s.reaches (p.toNat + 1)) (he : exec i (handlerState w s) = .next t)
    (ht : t = { handlerState w s with memory := t.memory, i := t.i })
    (hon : ∀ k, k < n → (t.byteAt ((s.i.toNat + k) % 4096)).toNat = value k)
    (hoff : ∀ a, (∀ k, k < n → a ≠ (s.i.toNat + k) % 4096) → t.byteAt a = s.byteAt a) :
    u.pc = s.pc + 2 ∧ u.currentInstruction = w ∧
      ∃ v, ({ u with pc := p } : State).fetch = .ok v ∧ s.holdsAfterStore n value (p.toNat % 4096) (v.toNat / 256) ∧
        s.holdsAfterStore n value ((p.toNat + 1) % 4096) (v.toNat % 256) := by
  rw [step_instr_running hs hw hd he (by rw [ht])] at hu
  cases hu
  have hp : t.tick.params = s.params := by rw [State.tick_params, ht, handlerState_params]
  obtain ⟨v, hv, hhi, hlo⟩ := fetch_at_bytes (u := t.tick) (p := p) (by rwa [State.reaches, hp]) (by rwa [State.reaches, hp])
  have hold : ∀ a, s.holdsAfterStore n value a (t.byteAt a).toNat := fun a =>
    ⟨fun k hk e => e ▸ hon k hk, fun h => by rw [hoff a fun k hk e => h k hk e.symm]⟩
  refine ⟨by rw [State.tick_pc, ht]; rfl, by rw [State.tick_currentInstruction, ht]; rfl, v, hv, ?_, ?_⟩
  · rw [hhi]; exact hold _
  · rw [hlo]; exact hold _

/-- Settles O50: `step_store_seen` with what each of the two stores leaves in memory. -/
theorem storeIsSeenByTheNextFetch : Obligations.StoreIsSeenByTheNextFetch := by
  intro x s u w p hc hs hw hu h0 h1
  have hc' : (handlerState w s).memoryCanonical := by rwa [State.memoryCanonical, handlerState_memory, handlerState_params]
  have hr' : ∀ {m : Nat}, (∀ k, k ≤ m → s.reaches (s.i.toNat + k)) →
      ∀ k, k ≤ m → (handlerState w s).reaches ((handlerState w s).i.toNat + k) := by
    intro m hr k hk
    rw [State.reaches, handlerState_params, handlerState_i]; exact hr k hk
  refine ⟨fun hd hr => ?_, fun hd hr => ?_⟩
  · obtain ⟨t, he, ht, hon, hoff⟩ := exec_ldStore_of_reaches hc' (hr' hr)
    rw [handlerState_i] at hon hoff
    refine step_store_seen hs hw hd hu h0 h1 he (by rw [ht]) (fun k hk => ?_) fun a ha => ?_
    · have hx := x.isLt
      rw [hon ⟨k, by omega⟩ (Nat.le_of_lt_succ hk), handlerState_reg, dif_pos (by omega)]
    · rw [hoff a fun k hk => ha k (by omega), handlerState_byteAt]
  · obtain ⟨t, he, ht, hon, hoff⟩ := exec_ldB_of_reaches (x := x) hc' (hr' hr)
    rw [handlerState_i] at hon hoff
    refine step_store_seen hs hw hd hu h0 h1 he (by rw [ht]) (fun k hk => ?_) fun a ha => ?_
    · rw [hon k (by omega), handlerState_reg]
    · rw [hoff a fun k hk => ha k (by omega), handlerState_byteAt]

/-- A word placed below 4095 is what the next fetch reads (log 17). -/
theorem State.fetch_placeWord {s : State} (hc : s.memoryCanonical) (hpc : s.pc.toNat < 4095) (w : Word) :
    (s.placeWord w).fetch = .ok w := by
  have e0 : s.pc.toNat % 4096 = s.pc.toNat := Nat.mod_eq_of_lt (by omega)
  have e1 : (s.pc.toNat + 1) % 4096 = s.pc.toNat + 1 := Nat.mod_eq_of_lt (by omega)
  have hc1 := State.memoryCanonical_setByte hc (bytesOfWord w).1 (a := s.pc.toNat) (by omega)
  have hp : s.placeWord w = (s.setByte s.pc.toNat (bytesOfWord w).1).setByte (s.pc.toNat + 1) (bytesOfWord w).2 := by
    rw [State.placeWord, memorySize, e0, e1]
  have hfetch := State.fetch_of_reaches (s := s.placeWord w) (.inl (show s.pc.toNat < 4096 by omega))
    (.inl (show s.pc.toNat + 1 < 4096 by omega))
  rw [show (s.placeWord w).pc = s.pc from rfl, e0, e1, hp, State.byteAt_setByte_same hc1,
    State.byteAt_setByte_other hc1 _ (by omega), State.byteAt_setByte_same hc, wordOfBytes_bytesOfWord] at hfetch
  rw [hp, hfetch]

/-- Settles O51: the placed word is fetched (`State.fetch_placeWord`), decodes to the instruction (`decodeWord_encode`), and the
step runs it. -/
theorem placedInstructionIsRun : Obligations.PlacedInstructionIsRun := by
  intro s i hs hc hpc hi
  have hword : s.withFetchWord 16 (encode i).toNat = s.placeWord (encode i) := by
    rw [State.withFetchWord, Nat.mod_eq_of_lt (encode i).isLt, BitVec.ofNat_toNat, BitVec.setWidth_eq]
  rw [hword]
  have hf := State.fetch_placeWord hc hpc (encode i)
  exact ⟨hf, step_runs_exec (s := s.placeWord (encode i)) hs hf (decodeWord_encode s.params i hi)⟩

end Sys2Proof.Machine

namespace Sys2Proof.Machine

/-! ## Who writes what (R22 to R32, R50, R96) -/

/-- What ends well leaves the fault status, the status outputs, the inputs and the parameters. -/
theorem endsWell_unwritten {s t : State} (h : endsWell s t) :
    t.faultCause = s.faultCause ∧ t.faultPc = s.faultPc ∧ t.faultWord = s.faultWord ∧ t.faultInfo = s.faultInfo ∧
    t.currentInstruction = s.currentInstruction ∧ t.invalidOpcode = s.invalidOpcode ∧ t.keys = s.keys ∧
    t.keyWrites = s.keyWrites ∧ t.started = s.started ∧ t.params = s.params := by
  unfold endsWell at h
  rw [h]
  simp

/-- The frame of an instruction lets a field differ only where the spec names the instruction for it. -/
theorem ownFrame_writes {i : Instr} {s t : State} (h : ownFrame s t i) :
    (t.fb ≠ s.fb → i = .cls ∨ ∃ x y n, i = .drw x y n) ∧
    (t.memory ≠ s.memory → ∃ x, i = .ldStore x ∨ i = .ldB x) ∧
    (t.stack ≠ s.stack → ∃ nnn, i = .call nnn) ∧
    (t.sp ≠ s.sp → i = .ret ∨ ∃ nnn, i = .call nnn) ∧
    (t.i ≠ s.i → (∃ nnn, i = .ldI nnn) ∨ (∃ x, i = .addI x ∨ i = .ldF x) ∨ ∃ x, i = .ldStore x ∨ i = .ldLoad x) ∧
    (t.pc ≠ s.pc → (∃ nnn, i = .jp nnn ∨ i = .call nnn ∨ i = .jpV0 nnn) ∨ i = .ret ∨
      (∃ x nn, i = .seImm x nn ∨ i = .sneImm x nn) ∨ (∃ x y, i = .seReg x y ∨ i = .sneReg x y) ∨
      (∃ x, i = .skp x ∨ i = .sknp x ∨ i = .ldVxK x)) ∧
    (t.draws ≠ s.draws → ∃ x nn, i = .rnd x nn) := by
  cases i with
  | cls | ret | call | jp | jpV0 | seImm | sneImm | seReg | sneReg | skp | sknp | ldDtVx | ldStVx | ldI | addI | ldF | ldB
  | ldStore =>
    simp only [ownFrame] at h
    rw [h]
    simp
  | ldImm | addImm | ldReg | orReg | andReg | xorReg | ldVxDt | addReg | sub | subn | shr | shl | rnd | drw | ldVxK | ldLoad =>
    rw [h.1]
    simp

/-- A register range leaves `I` unless LDST_I = increment. -/
theorem exec_range_index {i : Instr} {s t : State} {x : Reg} (hi : i = .ldStore x ∨ i = .ldLoad x) (h : exec i s = .next t)
    (hne : t.i ≠ s.i) : s.params.ldstI = .increment := by
  cases hl : s.params.ldstI with
  | increment => rfl
  | unchanged =>
    refine absurd ?_ hne
    rcases hi with rfl | rfl <;> rcases finish_cases h with h1 | ⟨e, _, rfl⟩
    all_goals try rfl
    all_goals
      obtain ⟨u, _, rfl⟩ := Except_map_eq_ok h1
      exact indexAfterRange_unchanged _ _ hl

/-- An instruction that raises nothing writes only the registers of its row of R22. -/
theorem exec_writes_reg {i : Instr} {s t : State} (h : exec i s = .next t) (ho : ownFrame s t i) (r : Reg)
    (hne : t.reg r ≠ s.reg r) : s.mayWriteReg r i := by
  cases i with
  | cls | ret | call | jp | jpV0 | seImm | sneImm | seReg | sneReg | skp | sknp | ldDtVx | ldStVx | ldI | addI | ldF | ldB
  | ldStore =>
    simp only [ownFrame] at ho
    exact absurd (State.reg_of_v (by rw [ho]) r) hne
  | ldImm x | addImm x | ldReg x | orReg x | andReg x | xorReg x | ldVxDt x | rnd x =>
    exact not_not.mp fun hx => hne (ho.2 r hx)
  | drw => exact not_not.mp fun hx => hne (ho.2 r hx)
  | addReg x | sub x | subn x | shr x | shl x =>
    exact not_not.mp fun hx => hne (ho.2 r (not_or.mp hx).1 (not_or.mp hx).2)
  | ldLoad x => exact Nat.le_of_not_lt fun hx => hne (ho.2 r hx)
  | ldVxK x =>
    refine ⟨not_not.mp fun hx => hne (ho.2 r hx), ?_⟩
    cases e : s.lowestKey with
    | some k =>
      have hk : s.key k = true := List.find?_some e
      exact ⟨k.val, k.isLt, hk⟩
    | none => rw [exec_ldVxK_none e] at h; cases h; exact absurd rfl hne

theorem mayRaise_namedByFaults {s : State} {c : Cause} {n : Nat} {i : Instr} (h : mayRaise s c n i) : namedByFaults i := by
  cases i with
  | call | ret | skp | sknp | ldStore | ldB | ldLoad | drw => trivial
  | _ => exact h.elim

/-- Settles O45: what ends well by its instruction's frame, a fault's entry field by field. -/
theorem onlyTheNamedInstructionsWrite : Obligations.OnlyTheNamedInstructionsWrite := by
  intro i s t h
  rcases exec_next_cases h with ho | ⟨c, n, hc, rfl⟩
  · obtain ⟨hfb, hmem, hstack, hsp, hi, hpc, hdraws⟩ := ownFrame_writes ho
    obtain ⟨h1, h2, h3, h4, hrest⟩ := endsWell_unwritten (ownFrame_endsWell ho)
    obtain ⟨h5, h6, h7, h8, h9, h10⟩ := hrest
    refine ⟨exec_writes_reg h ho, hfb, hmem, hstack, hsp, fun hne => ?_, fun hne => ?_, fun hne => ?_, fun _ => hpc, ?_, h5, h6,
      h7, h8, h9, h10, hdraws⟩
    · by_contra hx
      exact hne (ownFrame_dt ho fun x e => hx ⟨x, e⟩)
    · by_contra hx
      exact hne (ownFrame_st ho fun x e => hx ⟨x, e⟩)
    · rcases hi hne with hx | hx | ⟨x, hx⟩
      · exact .inl hx
      · exact .inr (.inl hx)
      · exact .inr (.inr ⟨exec_range_index hx h hne, x, hx⟩)
    · rw [h1, h2, h3, h4]; simp
  · have hne := mayRaise_ne_none hc
    refine ⟨fun r hr => absurd rfl hr, fun h => absurd rfl h, fun h => absurd rfl h, fun h => absurd rfl h, fun h => absurd rfl h,
      fun h => absurd rfl h, fun h => absurd rfl h, fun h => absurd rfl h, fun h => absurd h hne,
      fun _ => ⟨mayRaise_namedByFaults hc, hne, rfl, rfl⟩, rfl, rfl, rfl, rfl, rfl, rfl, fun h => absurd rfl h⟩

/-! ## Fields the handlers do not look at

A change `f` of the state that no read sees and every write commutes with is carried through every handler. The key latch is
such a field for all but the key instructions, and the stack for all but CALL and RET. -/

/-- The change `f` is not seen by the reads of the handlers and commutes with their writes; keys and stack are left open. -/
structure Unread (f : State → State) : Prop where
  params : ∀ s, (f s).params = s.params
  v : ∀ s, (f s).v = s.v
  i : ∀ s, (f s).i = s.i
  pc : ∀ s, (f s).pc = s.pc
  dt : ∀ s, (f s).dt = s.dt
  fb : ∀ s, (f s).fb = s.fb
  memory : ∀ s, (f s).memory = s.memory
  draws : ∀ s, (f s).draws = s.draws
  setReg : ∀ s r b, (f s).setReg r b = f (s.setReg r b)
  setIndex : ∀ s w, (f s).setIndex w = f (s.setIndex w)
  setPc : ∀ s w, (f s).setPc w = f (s.setPc w)
  setDt : ∀ s b, (f s).setDt b = f (s.setDt b)
  setSt : ∀ s b, (f s).setSt b = f (s.setSt b)
  setFb : ∀ s g, (f s).setFb g = f (s.setFb g)
  setByte : ∀ s a b, (f s).setByte a b = f (s.setByte a b)
  withDraw : ∀ s x nn draw, (f s).withDraw x nn draw = f (s.withDraw x nn draw)
  takeFault : ∀ r s, takeFault r (f s) = f (takeFault r s)

/-- The stack controller commutes with `f`. -/
def StackUnread (f : State → State) : Prop :=
  (∀ s w, (f s).push w = (s.push w).map f) ∧ ∀ s, (f s).pop = s.pop.map fun wt => (wt.1, f wt.2)

section
variable {f : State → State} (hf : Unread f)
include hf

theorem Unread.reg (s : State) (r : Reg) : (f s).reg r = s.reg r := State.reg_of_v (hf.v s) r

theorem Unread.skipIf (s : State) (c : Bool) : (f s).skipIf c = f (s.skipIf c) := by
  cases c
  · rfl
  · show (f s).setPc ((f s).pc + 2) = f (s.setPc (s.pc + 2))
    rw [hf.setPc, hf.pc]

theorem Unread.writeResultAndFlag (s : State) (x : Reg) (rf : Byte × Bool) :
    (f s).writeResultAndFlag x rf = f (s.writeResultAndFlag x rf) := by
  simp only [State.writeResultAndFlag, hf.params]
  cases s.params.flagOrder <;> simp only [hf.setReg]

theorem Unread.shiftOperand (s : State) (x y : Reg) : (f s).shiftOperand x y = s.shiftOperand x y := by
  simp only [State.shiftOperand, hf.params, hf.reg]

theorem Unread.memWrite (s : State) (a : Nat) (b : Byte) : (f s).memWrite a b = (s.memWrite a b).map f := by
  have hr : (f s).resolve .writeOob a = s.resolve .writeOob a := by simp only [State.resolve, hf.params]
  simp only [State.memWrite, hr]
  cases s.resolve .writeOob a with
  | ok c => exact congrArg Except.ok (hf.setByte s c b)
  | error r => rfl

theorem Unread.drawSprite (s : State) (x0 y0 : Nat) (n : Nibble) :
    (f s).drawSprite x0 y0 n = (s.drawSprite x0 y0 n).map id := by
  rw [Except.map_id]
  exact State.drawSprite_congr (hf.memory s) (hf.params s) (hf.i s) (hf.fb s) x0 y0 n

theorem Unread.keyRead {s : State} (hk : (f s).keys = s.keys) (k : Byte) : (f s).keyRead k = (s.keyRead k).map id := by
  rw [Except.map_id]
  simp only [State.keyRead, State.key, hk, hf.params, id]

theorem Unread.storeAt (s : State) (cells : List (Nat × Byte)) : (f s).storeAt cells = (s.storeAt cells).map f := by
  simp only [State.storeAt, State.dataAddr, hf.i]
  exact storeFold_map f hf.memWrite s.i.toNat cells s

theorem Unread.loadFrom (s : State) (regs : List Reg) : (f s).loadFrom regs = (s.loadFrom regs).map f := by
  simp only [State.loadFrom, State.dataAddr, hf.i]
  exact loadFold_map f hf.setReg s (f s) (State.memRead_congr (hf.memory s) (hf.params s) .readOob) s.i.toNat regs s

/-- A handler whose result commutes with `f` ends alike, fault entry included. -/
theorem Unread.finish {s t : State} {r : Except Raise State} (h : finish s r = .next t) :
    finish (f s) (r.map f) = .next (f t) := by
  rw [finish_map f hf.takeFault, h]

/-- The same for a handler that puts its result together from what a shared operation answers. -/
theorem Unread.finish_of_map {α : Type} {s t : State} {x : Except Raise α} {φ : α → α} {g g' : α → State}
    (hg : ∀ a, g' (φ a) = f (g a)) (h : Machine.finish s (x.map g) = .next t) :
    Machine.finish (f s) ((x.map φ).map g') = .next (f t) := by
  rw [← hf.finish h]
  cases x with
  | ok a => exact congrArg (fun u => Machine.finish (f s) (.ok u)) (hg a)
  | error r => rfl

/-- An instruction carries `f` through, unless it reads the keys or works on the stack and `f` changes that. -/
theorem Unread.exec {i : Instr} {s t : State}
    (hkeys : (∀ s, (f s).keys = s.keys) ∨ ∀ x, i ≠ .skp x ∧ i ≠ .sknp x ∧ i ≠ .ldVxK x)
    (hstack : StackUnread f ∨ (i ≠ .ret ∧ ∀ nnn, i ≠ .call nnn)) (h : exec i s = .next t) : exec i (f s) = .next (f t) := by
  cases i with
  | call nnn =>
    obtain ⟨hpush, _⟩ := hstack.resolve_right fun hn => hn.2 nnn rfl
    rw [Machine.exec, execCall, hf.pc, hpush]
    exact hf.finish_of_map (fun u => hf.setPc u _) h
  | ret =>
    obtain ⟨_, hpop⟩ := hstack.resolve_right fun hn => hn.1 rfl
    rw [Machine.exec, execRet, hpop]
    exact hf.finish_of_map (fun wt => hf.setPc wt.2 wt.1) h
  | skp x =>
    rw [Machine.exec, execSkp, hf.reg, hf.keyRead (hkeys.resolve_right (fun hn => (hn x).1 rfl) s)]
    exact hf.finish_of_map (fun c => hf.skipIf s c) h
  | sknp x =>
    rw [Machine.exec, execSknp, hf.reg, hf.keyRead (hkeys.resolve_right (fun hn => (hn x).2.1 rfl) s)]
    exact hf.finish_of_map (fun c => hf.skipIf s (!c)) h
  | ldVxK x =>
    have hk : (f s).lowestKey = s.lowestKey := by
      unfold State.lowestKey State.key
      rw [(hkeys.resolve_right fun hn => (hn x).2.2 rfl) s]
    cases e : s.lowestKey with
    | some k => rw [exec_ldVxK_pressed e] at h; cases h; rw [exec_ldVxK_pressed (hk.trans e), hf.setReg]
    | none => rw [exec_ldVxK_none e] at h; cases h; rw [exec_ldVxK_none (hk.trans e), hf.setPc, hf.pc]
  | ldStore x =>
    simp only [Machine.exec, execLdStore, hf.reg, hf.storeAt, hf.params, hf.i]
    exact hf.finish_of_map (fun u => hf.setIndex u _) h
  | ldLoad x =>
    simp only [Machine.exec, execLdLoad, hf.loadFrom, hf.params, hf.i]
    exact hf.finish_of_map (fun u => hf.setIndex u _) h
  | ldB x =>
    rw [Machine.exec, execLdB, hf.reg, hf.storeAt]
    exact hf.finish h
  | drw x y n =>
    rw [Machine.exec, execDrw, hf.reg, hf.reg, hf.drawSprite]
    exact hf.finish_of_map (fun fh => by rw [hf.setFb, hf.setReg, id]) h
  | seImm | sneImm | seReg | sneReg =>
    cases h
    exact congrArg Host.Outcome.next (by simp only [hf.reg, hf.skipIf])
  | addReg | sub | subn | shr | shl =>
    cases h
    exact congrArg Host.Outcome.next (by simp only [hf.reg, hf.shiftOperand, hf.writeResultAndFlag])
  | rnd x nn =>
    cases h
    exact congrArg Host.Outcome.next (by rw [hf.draws, hf.withDraw])
  | cls | jp | ldImm | addImm | ldReg | orReg | andReg | xorReg | ldI | jpV0 | ldVxDt | ldDtVx | ldStVx | addI | ldF =>
    cases h
    exact congrArg Host.Outcome.next
      (by simp only [hf.reg, hf.i, hf.dt, hf.params, hf.setReg, hf.setPc, hf.setIndex, hf.setDt, hf.setSt, hf.setFb])

end

/-! ## The key latch (R28) -/

theorem unread_driveKeys (k : Word) : Unread (·.driveKeys k) := by
  constructor <;> intros <;> rfl

/-- The stack controller does not look at the keys. -/
theorem stackUnread_driveKeys (k : Word) : StackUnread (·.driveKeys k) := by
  refine ⟨fun s w => ?_, fun s => ?_⟩
  · simp only [State.push, State.driveKeys]
    cases s.params.stackPolicy with
    | wrap => rfl
    | fault => by_cases h : s.sp.val < 16 <;> simp [h]
  · simp only [State.pop, State.driveKeys]
    cases s.params.stackPolicy with
    | wrap => rfl
    | fault => by_cases h : s.sp.val = 0 <;> simp [h]

/-- Settles O46: no frame has the latch, and a change of it is unread by every other instruction. -/
theorem keysAreReadOnlyByTheKeyInstructions : Obligations.KeysAreReadOnlyByTheKeyInstructions := by
  intro i s t k h
  refine ⟨?_, fun hi => (unread_driveKeys k).exec (.inr hi) (.inl (stackUnread_driveKeys k)) h⟩
  obtain ⟨_, _, _, _, _, _, _, _, _, _, _, _, hkeys, _⟩ := onlyTheNamedInstructionsWrite i s t h
  exact hkeys

/-! ## Stack entries at or above the stack pointer (R25, R36) -/

/-- The stack becomes `m`. -/
def State.withStack (s : State) (m : Vector Word 16) : State := { s with stack := m }

theorem unread_withStack (m : Vector Word 16) : Unread (·.withStack m) := by
  constructor <;> intros <;> rfl

section
variable {s : State} {m : Vector Word 16} (hp : s.params.stackPolicy = .fault)
  (hlive : ∀ j (_ : j < 16), j < s.sp.val → m[j] = s.stack[j])
include hp hlive

/-- A push overwrites the entry at the pointer, so that what is below the new pointer agrees. -/
theorem State.push_withStack (w : Word) :
    (∃ u u', s.push w = .ok u ∧ (s.withStack m).push w = .ok u' ∧ u.sameLiveStack u') ∨
    (∃ n, s.push w = .error (Raise.of .stackOverflow n) ∧ (s.withStack m).push w = .error (Raise.of .stackOverflow n)) := by
  rcases s.push_cases w with ⟨_, hlt, e⟩ | ⟨_, h16, e⟩ | ⟨hw, _⟩
  · refine .inl ⟨_, { s with stack := m.set s.sp.val w, sp := ⟨s.sp.val + 1, by omega⟩ }, e,
      by simp [State.push, State.withStack, hp, hlt], rfl, fun j hj hjs => ?_⟩
    show (m.set s.sp.val w)[j] = (s.stack.set s.sp.val w)[j]
    rw [Vector.getElem_set, Vector.getElem_set]
    split
    · rfl
    · exact hlive j hj (by have : j < s.sp.val + 1 := hjs; omega)
  · exact .inr ⟨16, e, by simp [State.push, State.withStack, hp, h16]⟩
  · rw [hp] at hw; cases hw

/-- A pop reads an entry below the pointer. -/
theorem State.pop_withStack :
    (∃ w u, s.pop = .ok (w, u) ∧ (s.withStack m).pop = .ok (w, u.withStack m) ∧ u.sameLiveStack (u.withStack m)) ∨
    (∃ n, s.pop = .error (Raise.of .stackUnderflow n) ∧ (s.withStack m).pop = .error (Raise.of .stackUnderflow n)) := by
  rcases s.pop_cases with ⟨_, h0, e⟩ | ⟨_, h0, e⟩ | ⟨hw, _⟩
  · have hread := hlive (s.sp.val - 1) (by omega) (by omega)
    refine .inl ⟨_, _, e, by simp [State.pop, State.withStack, hp, h0, hread], rfl, fun j hj hjs => hlive j hj ?_⟩
    have hjs' : j < s.sp.val - 1 := hjs
    omega
  · exact .inr ⟨0, e, by simp [State.pop, State.withStack, hp, h0]⟩
  · rw [hp] at hw; cases hw

/-- Under STACK_POLICY = fault an instruction answers alike on states that differ in such entries. -/
theorem exec_withStack {i : Instr} {u : State} (h : exec i s = .next u) :
    ∃ u', exec i (s.withStack m) = .next u' ∧ u.sameLiveStack u' := by
  by_cases hi : i ≠ .ret ∧ ∀ nnn, i ≠ .call nnn
  · obtain ⟨_, _, _, hstack, hsp, _⟩ := onlyTheNamedInstructionsWrite i s u h
    have hstack' : u.stack = s.stack := by
      by_contra hne
      obtain ⟨nnn, e⟩ := hstack hne
      exact hi.2 nnn e
    have hsp' : u.sp = s.sp := by
      by_contra hne
      rcases hsp hne with e | ⟨nnn, e⟩
      · exact hi.1 e
      · exact hi.2 nnn e
    refine ⟨u.withStack m, (unread_withStack m).exec (.inl fun _ => rfl) (.inr hi) h, rfl, fun j hj hjs => ?_⟩
    rw [hsp'] at hjs
    simp only [hstack']
    exact hlive j hj hjs
  · have hentry : ∀ c n, (faultEntry c n s).sameLiveStack (faultEntry c n (s.withStack m)) := fun c n => ⟨rfl, hlive⟩
    cases i
    case call nnn =>
      rcases State.push_withStack hp hlive s.pc with ⟨v, v', e, e', hv⟩ | ⟨n, e, e'⟩
      · rw [exec_call_ok e] at h
        cases h
        refine ⟨_, exec_call_ok e', ?_, hv.2⟩
        rw [hv.1]; rfl
      · rw [exec_call_error e] at h
        cases h
        exact ⟨_, exec_call_error e', hentry _ _⟩
    case ret =>
      rcases State.pop_withStack hp hlive with ⟨w, v, e, e', hv⟩ | ⟨n, e, e'⟩
      · rw [exec_ret_ok e] at h
        cases h
        exact ⟨_, exec_ret_ok e', rfl, hv.2⟩
      · rw [exec_ret_error e] at h
        cases h
        exact ⟨_, exec_ret_error e', hentry _ _⟩
    all_goals exact absurd ⟨nofun, nofun⟩ hi

end

@[simp] theorem State.endCycle_stack (s : State) : s.endCycle.stack = s.stack := by
  unfold State.endCycle; split <;> rfl

theorem State.endCycle_withStack (s : State) (m : Vector Word 16) : (s.withStack m).endCycle = s.endCycle.withStack m := by
  by_cases h : s.running
  · rw [State.endCycle_of_running h, State.endCycle_of_running (s := s.withStack m) h]; rfl
  · rw [State.endCycle_of_halted h, State.endCycle_of_halted (s := s.withStack m) h]

theorem State.takeInputs_withStack (s : State) (m : Vector Word 16) : (s.withStack m).takeInputs = s.takeInputs.withStack m := by
  simp only [State.takeInputs, State.withStack]
  cases s.keyWrites <;> rfl

theorem handlerState_withStack (w : Word) (s : State) (m : Vector Word 16) :
    handlerState w (s.withStack m) = (handlerState w s).withStack m := by
  rw [handlerState, State.takeInputs_withStack]; rfl

/-- A cycle keeps the relation: whatever is not an instruction does not look at the stack. -/
theorem step_sameLiveStack {s t u : State} (hp : s.params.stackPolicy = .fault) (hst : s.sameLiveStack t) (h : step s = .next u) :
    ∃ u', step t = .next u' ∧ u.sameLiveStack u' := by
  obtain ⟨m, rfl⟩ : ∃ m, t = s.withStack m := ⟨t.stack, hst.1⟩
  have hlive : ∀ j (_ : j < 16), j < s.sp.val → m[j] = s.stack[j] := hst.2
  have hf : (s.withStack m).fetch = s.fetch := State.fetch_congr rfl rfl rfl
  have hinputs : ∀ j (_ : j < 16), j < s.takeInputs.sp.val → m[j] = s.takeInputs.stack[j] := by simpa using hlive
  rcases step_cases s with ⟨hs, e⟩ | ⟨hs, _, _, hw, e⟩ | ⟨hs, w, r, hw, hd, e⟩ | ⟨hs, w, i, v, hw, hd, hx, e, _⟩
  all_goals rw [e] at h; cases h
  · exact ⟨_, step_halted (s := s.withStack m) hs, rfl, hlive⟩
  · exact ⟨_, step_fetch_error (s := s.withStack m) hs (hf.trans hw), by rw [State.takeInputs_withStack]; rfl,
      by rw [State.takeInputs_withStack]; exact hinputs⟩
  · exact ⟨_, step_invalid (s := s.withStack m) hs (hf.trans hw) hd, by rw [handlerState_withStack]; rfl,
      by rw [handlerState_withStack]; exact hinputs⟩
  · obtain ⟨v', hx', hv⟩ := exec_withStack (s := handlerState w s) (by simpa using hp) hinputs hx
    refine ⟨_, step_instr (s := s.withStack m) hs (hf.trans hw) hd (by rw [handlerState_withStack, hx']), ?_⟩
    obtain ⟨m', rfl⟩ : ∃ m', v' = v.withStack m' := ⟨v'.stack, hv.1⟩
    rw [State.endCycle_withStack]
    refine ⟨rfl, fun j hj hjs => ?_⟩
    rw [State.endCycle_sp] at hjs
    simp only [State.endCycle_stack]
    exact hv.2 j hj hjs

/-- Settles O49, by induction on the number of cycles. -/
theorem staleStackEntriesAreInvisible : Obligations.StaleStackEntriesAreInvisible := by
  intro n
  induction n with
  | zero => intro s t s' _ hst h; cases h; exact ⟨t, rfl, hst⟩
  | succ n ih =>
    intro s t s' hp hst h
    obtain ⟨u, hu, hr⟩ := run_succ_cases h
    obtain ⟨u', hu', hlive⟩ := step_sameLiveStack hp hst hu
    rw [run_of_step hu']
    exact ih u u' s' (by rw [step_params hu, hp]) hlive hr

end Sys2Proof.Machine

namespace Sys2Proof.Machine

/-! ## The blit engine (R170 to R174) -/

/-- Settles O25: the cleared framebuffer has every cell off (`fbCell_fbClear`). -/
theorem clearTurnsEveryCellOff : Obligations.ClearTurnsEveryCellOff := fun s =>
  ⟨s.setFb fbClear, rfl, fun px py _ _ => fbCell_fbClear px py, fun _ => rfl, fun _ => rfl, rfl⟩

/-- Settles O27: with no rows nothing is drawn and nothing is hit. -/
theorem drawOfNoRowsOnlyClearsFlag : Obligations.DrawOfNoRowsOnlyClearsFlag := by
  intro x y s
  have e : s.drawSprite (spriteColumn (s.reg x)) (spriteRow (s.reg y)) 0 = .ok (s.fb, false) := rfl
  exact ⟨_, exec_drw_ok e, rfl, State.reg_setReg_same _ vf _, frameRegs_setReg (s.setFb s.fb) vf _⟩

theorem flagByte_eq_one (f : Bool) : flagByte f = 1 ↔ f = true := by cases f <;> decide

/-- Settles O26: `State.drawRows_ok` over all the rows, from the framebuffer with nothing hit. -/
theorem drawFlipsExactlyTheSpriteCells : Obligations.DrawFlipsExactlyTheSpriteCells := by
  intro x y n s x0 y0 covers hr he
  obtain ⟨r, e, hcell, hhit⟩ := s.drawRows_ok x0 y0 n.toNat (s.fb, false) hr he
  have hvf : ((s.setFb r.1).setReg vf (flagByte r.2)).reg 15 = flagByte r.2 := State.reg_setReg_same _ vf _
  refine ⟨_, exec_drw_ok e, fun px py hx hy => ?_, ?_, ?_, fun q hq => State.reg_setReg_other _ vf q _ hq, fun _ => rfl, rfl⟩
  · rw [Bool.eq_iff_iff, bne_iff_ne]
    show fbCell r.1 px py = true ↔ _
    rw [hcell px py hx hy]
    cases fbCell s.fb px py <;> cases hc : covers px py <;> simp [covers] at hc ⊢ <;> simp [hc]
  · rw [hvf]; exact flagByte_zero_or_one _
  · rw [hvf, flagByte_eq_one, hhit]
    simp [covers]

/-- A sprite of fewer rows covers the cells of the larger one in those rows. -/
theorem State.spriteCovers_of_fewer_rows {s : State} {x0 y0 m n px py : Nat} (hmn : m ≤ n)
    (h : s.spriteCovers x0 y0 m px py = true) : s.spriteCovers x0 y0 n px py = true ∧ py < y0 + m := by
  obtain ⟨row, hrow, hy, hc⟩ := (s.spriteCovers_iff x0 y0 m px py).mp h
  exact ⟨(s.spriteCovers_iff x0 y0 n px py).mpr ⟨row, by omega, hy, hc⟩, by omega⟩

/-- Settles O28: the rows before the faulting one draw, and it raises its fault: at its read, or at its first set bit past the
edge. -/
theorem drawFaultsInRowMajorOrder : Obligations.DrawFaultsInRowMajorOrder := by
  intro x y n s x0 y0 covers
  have hx0 : x0 < 64 := Nat.mod_lt _ (by decide)
  refine ⟨fun row hrow hp hge hlow hedge => exec_drw_error ?_, fun px py hedge ho hc hreach hfirst => exec_drw_error ?_⟩
  · refine s.drawRows_error x0 y0 n.toNat row (s.fb, false) _ hrow (fun k hk => .inl (hlow k hk)) (fun he px py ho => ?_)
      fun a => by rw [State.drawRow, State.dataAddr, State.memRead_fault _ hp hge]
    by_contra hcov
    obtain ⟨hcov', hlt⟩ := State.spriteCovers_of_fewer_rows hrow.le (Bool.eq_true_of_not_eq_false hcov)
    exact Bool.false_ne_true ((hedge he px py hlt ho).symm.trans hcov')
  · obtain ⟨row, hrow, rfl, c, hcmem, rfl, hbit⟩ := (s.spriteCovers_iff x0 y0 n.toNat px py).mp hc
    have hc8 := (mem_spriteCols c).mp hcmem
    obtain ⟨pre, post, hsplit, hpre⟩ := spriteCols_split c hc8
    refine s.drawRows_error x0 y0 n.toNat row (s.fb, false) _ hrow (fun k hk => hreach k (by omega)) (fun _ qx qy hq => ?_)
      fun a => ?_
    · by_contra hcov
      obtain ⟨hcov', hlt⟩ := State.spriteCovers_of_fewer_rows hrow.le (Bool.eq_true_of_not_eq_false hcov)
      have := hfirst qx qy hq hcov'
      omega
    · rw [State.drawRow_of_reaches (hreach row (by omega)), drawBits, hedge, hsplit]
      refine drawCols_fault x0 (y0 + row) (s.spriteByte row) pre c post a hbit ho (by omega) fun d hd hdbit hdo => ?_
      have hdc := hpre d hd
      have hcov : covers (x0 + d) (y0 + row) = true := (s.spriteCovers_iff x0 y0 n.toNat _ _).mpr
        ⟨row, hrow, rfl, d, (mem_spriteCols d).mpr (by omega), rfl, hdbit⟩
      have := hfirst _ _ hdo hcov
      omega

/-- Two states with the same `I` and the same sprite bytes draw the same sprite. -/
theorem State.spriteCovers_congr {s s' : State} {n : Nat} (hi : s'.i = s.i)
    (hb : ∀ k, k < n → s'.byteAt ((s.i.toNat + k) % 4096) = s.byteAt ((s.i.toNat + k) % 4096)) (x0 y0 px py : Nat) :
    s'.spriteCovers x0 y0 n px py = s.spriteCovers x0 y0 n px py := by
  have hbyte : ∀ row, row < n → s'.spriteByte row = s.spriteByte row := fun row h => by
    rw [State.spriteByte, hi]; exact hb row h
  rw [Bool.eq_iff_iff, State.spriteCovers_iff, State.spriteCovers_iff]
  constructor <;> rintro ⟨row, h, hy, hc⟩ <;> refine ⟨row, h, hy, ?_⟩
  · rwa [hbyte row h] at hc
  · rwa [hbyte row h]

/-- Settles O29: the first drawing ended well, so its sprite meets the conditions of O26 (`State.drawRows_conditions`); the second
has the same sprite, and a cell flipped twice is as before. -/
theorem drawingTwiceRestoresTheScreen : Obligations.DrawingTwiceRestoresTheScreen := by
  intro x y x' y' n s t s' t' _ hs' h ht hfb hi hp hb hx hy h'
  obtain ⟨r, hd, _⟩ := exec_drw_running h ht
  obtain ⟨hr, he⟩ := State.drawRows_conditions s _ _ n.toNat (s.fb, false) r (Nat.mod_lt _ (by decide)) hd
  obtain ⟨u, hu, hcell, _⟩ := drawFlipsExactlyTheSpriteCells x y n s hr he
  rw [h] at hu
  cases hu
  have hcov : s'.spriteCovers ((s'.reg x').toNat % 64) ((s'.reg y').toNat % 32) n.toNat =
      s.spriteCovers ((s.reg x).toNat % 64) ((s.reg y).toNat % 32) n.toNat := by
    rw [hx, hy]
    funext px py
    exact State.spriteCovers_congr hi hb _ _ px py
  obtain ⟨u', hu', hcell', _, hhit', _, _, hframe⟩ := drawFlipsExactlyTheSpriteCells x' y' n s'
    (fun row hrow => by rw [State.reaches, hp, hi]; exact hr row hrow)
    (fun hf px py ho => by rw [hcov]; exact he (hp ▸ hf) px py ho)
  rw [h'] at hu'
  cases hu'
  rw [hcov, hfb] at hcell' hhit'
  refine ⟨by rw [hframe]; exact hs', fb_ext fun px py h1 h2 => ?_, hhit'.trans ?_⟩
  · rw [hcell' px py h1 h2, hcell px py h1 h2]
    cases fbCell s.fb px py <;> cases State.spriteCovers .. <;> rfl
  · refine exists_congr fun px => exists_congr fun py => and_congr_right fun h1 => and_congr_right fun h2 => ?_
    rw [hcell px py h1 h2]
    cases fbCell s.fb px py <;> cases State.spriteCovers .. <;> simp

/-! ## Reset (R37, R270) -/

theorem resetWith_invariants (p : Params) : (State.resetWith p).memoryCanonical ∧ (State.resetWith p).stackPointerLegal ∧
    (State.resetWith p).faultStatusCoherent :=
  ⟨rfl, fun _ => Nat.zero_lt_succ 15, (faultStatusCoherent_of_running rfl).mpr ⟨rfl, rfl, rfl⟩⟩

/-- Settles O55: the reset input gives the reset state but for keys, schedule and draws, which no invariant looks at. -/
theorem resetHasTheInvariants : Obligations.ResetHasTheInvariants :=
  ⟨resetWith_invariants, fun s => resetWith_invariants s.params, resetWith_invariants _⟩

theorem initialByte_outside (font : Font) {a : Nat} (h : a < 0x050 ∨ 0x0A0 ≤ a) : initialByte font a = 0 := by
  rw [initialByte, dif_neg (by unfold fontBase; omega)]

theorem initialByte_glyph (font : Font) {d k : Nat} (hd : d < 16) (hk : k < 5) :
    initialByte font (0x050 + 5 * d + k) = font[d][k] := by
  have h1 : (0x050 + 5 * d + k - fontBase) / 5 = d := by unfold fontBase; omega
  have h2 : (0x050 + 5 * d + k - fontBase) % 5 = k := by unfold fontBase; omega
  rw [initialByte, dif_pos (by unfold fontBase; omega)]
  simp only [h1, h2]

theorem resetWith_holdsResetValues (p : Params) : (State.resetWith p).holdsResetValues := by
  refine ⟨fun r => by simp [State.reg, State.resetWith], fun a _ ha => initialByte_outside p.font ha,
    fun d k hd hk => initialByte_glyph p.font hd hk, rfl, rfl, rfl, fun j hj => by simp [State.resetWith], rfl, rfl,
    fun px py _ _ => fbCell_fbClear px py, rfl, rfl, rfl, rfl, rfl, rfl⟩

/-- Settles O56: `resetWith_holdsResetValues`; the reset input gives that state but for keys, schedule and draws. -/
theorem resetLeavesTheStatedValues : Obligations.ResetLeavesTheStatedValues :=
  ⟨fun p => ⟨resetWith_holdsResetValues p, rfl, rfl, rfl⟩, ⟨resetWith_holdsResetValues _, rfl, rfl, rfl⟩,
    fun s => ⟨resetWith_holdsResetValues s.params, rfl, rfl, rfl, rfl, rfl, rfl⟩⟩

/-! ## The host interface (R250 to R259) -/

theorem Cause.code_eq_zero (c : Cause) : c.code.toNat = 0 ↔ c = .none := by cases c <;> decide

/-- Settles O57: the framebuffer port by `fbPort_getLsbD`, the report by its two cases, the cause by its code. -/
theorem outputPortsShowTheState : Obligations.OutputPortsShowTheState := by
  intro s
  refine ⟨fun px py hx hy => ?_, rfl, ?_, rfl, rfl, fun h => ⟨_, State.invalidReport_of_invalid h, by simp⟩,
    State.invalidReport_of_valid, ?_, rfl, rfl, rfl, ?_, Cause.code_eq_zero _⟩
  · rw [Nat.mul_comm 64 py, ← fbPort_getLsbD s.fb hx hy, State.outputs]
  · simp [State.outputs, BitVec.toNat_eq]
  · show s.faultCause.code.toNat = _
    cases s.faultCause <;> rfl
  · exact s.halted_iff.trans (Cause.code_eq_zero _).not.symm

/-- Settles O58: the three branches of the loader; what the copy leaves is the memory laws of `Memory.writeBytes`. -/
theorem loaderCopiesTheImage : Obligations.LoaderCopiesTheImage := by
  intro s image hc
  refine ⟨fun hs hlen => ?_, fun hs hlen => ?_, fun hs => by rw [State.loadImage, if_pos hs]⟩
  · have hfit : loadBase + image.length ≤ 4096 := by unfold loadBase; omega
    refine ⟨{ s with memory := s.memory.writeBytes s.params.font loadBase image }, ?_, Memory.wf_writeBytes image hc hfit,
      fun j hj => Memory.read_writeBytes_inside image hc hfit hj, fun a ha => Memory.read_writeBytes_other image hc hfit ha, rfl⟩
    rw [State.loadImage, if_neg (by simp [hs]), if_neg (by simp only [maxImage, memorySize, loadBase]; omega)]
  · rw [State.loadImage, if_neg (by simp [hs]), if_pos (by simp only [maxImage, memorySize, loadBase]; omega)]

end Sys2Proof.Machine
